-- ==== Sys2Proof/Word.lean ====
section
/-! DEFINITION. The word types: a byte of an arbitrary-precision sequence (20_memory.md R60), the 32-bit command
word and W32 pattern, and the 64-bit port and W64 pattern (10_state.md R33 to R35). -/

namespace Sys2Proof

/-- A byte `AB[i]` or `RBi[k]` (10_state.md R34, R35). -/
abbrev Byte := BitVec 8

/-- A 32-bit pattern: the command word (30_encoding.md R90) or a W32 operand (10_state.md R33). -/
abbrev Word32 := BitVec 32

/-- A 64-bit pattern: `OPA`, `RVi` or a W64 operand (10_state.md R33 to R35). -/
abbrev Word64 := BitVec 64

end Sys2Proof
end

