-- ==== Sys2Proof/Syntax.lean ====
section
/-! DEFINITION. The command set BOC-1: one constructor of `Instr` per row of spec/opcode_table.json, that is per
legal (operation, width mode) pair of 30_encoding.md R95 and R96, with the command-word fields the row has
(P: R93; CNT: R94) as arguments. `Instr.mnemonic` and `Instr.assembly` give the command text of R101. -/

namespace Sys2Proof

/-- The width modes (10_state.md R33). WM = 3 is no mode: a word with it is illegal. -/
inductive Width where
  | w32
  | w64
  | arb
  deriving DecidableEq, Repr

/-- A command of BOC-1 (30_encoding.md R95). The suffix is the width mode of 10_state.md R33: 32, 64 or A
(arbitrary precision). `proper` is the field P (R93); `count` is the field CNT read as a signed number (R94). -/
inductive Instr where
  /-- POPCNT.32, R130; base word 0x00000000. -/
  | popcnt32
  /-- POPCNT.64, R130; base word 0x00000040. -/
  | popcnt64
  /-- POPCNT.A, R130; base word 0x00000080. -/
  | popcntA
  /-- BITLEN.32, R132; base word 0x00000001. -/
  | bitlen32
  /-- BITLEN.64, R132; base word 0x00000041. -/
  | bitlen64
  /-- BITLEN.A, R132; base word 0x00000081. -/
  | bitlenA
  /-- LOG2.32, R134; base word 0x00000002. -/
  | log232
  /-- LOG2.64, R134; base word 0x00000042. -/
  | log264
  /-- LOG2.A, R134; base word 0x00000082. -/
  | log2A
  /-- LZC.32, R136; base word 0x00000003. -/
  | lzc32
  /-- LZC.64, R136; base word 0x00000043. -/
  | lzc64
  /-- LZC.A, R136; base word 0x00000083. -/
  | lzcA
  /-- TZC.32, R138; base word 0x00000004. -/
  | tzc32
  /-- TZC.64, R138; base word 0x00000044. -/
  | tzc64
  /-- TZC.A, R138; base word 0x00000084. -/
  | tzcA
  /-- FOLDR.32, R170; base word 0x00000005. -/
  | foldr32
  /-- FOLDR.64, R170; base word 0x00000045. -/
  | foldr64
  /-- FOLDR.A, R170; base word 0x00000085. -/
  | foldrA
  /-- FOLDL.32, R172; base word 0x00000006. -/
  | foldl32
  /-- FOLDL.64, R172; base word 0x00000046. -/
  | foldl64
  /-- FOLDL.A, R172; base word 0x00000086. -/
  | foldlA
  /-- ISPOW2.32, R174; base word 0x00000007. -/
  | ispow232
  /-- ISPOW2.64, R174; base word 0x00000047. -/
  | ispow264
  /-- ISPOW2.A, R174; base word 0x00000087. -/
  | ispow2A
  /-- ROUNDUP.32, R176; base word 0x00000008. -/
  | roundup32 (proper : Bool)
  /-- ROUNDUP.64, R176; base word 0x00000048. -/
  | roundup64 (proper : Bool)
  /-- ROUNDUP.A, R176; base word 0x00000088. -/
  | roundupA (proper : Bool)
  /-- ROUNDDN.32, R178; base word 0x00000009. -/
  | rounddn32 (proper : Bool)
  /-- ROUNDDN.64, R178; base word 0x00000049. -/
  | rounddn64 (proper : Bool)
  /-- ROUNDDN.A, R178; base word 0x00000089. -/
  | rounddnA (proper : Bool)
  /-- ROUNDNR.32, R180; base word 0x0000000A. -/
  | roundnr32
  /-- ROUNDNR.64, R180; base word 0x0000004A. -/
  | roundnr64
  /-- ROUNDNR.A, R180; base word 0x0000008A. -/
  | roundnrA
  /-- LSB1.32, R210; base word 0x0000000B. -/
  | lsb132
  /-- LSB1.64, R210; base word 0x0000004B. -/
  | lsb164
  /-- LSB1.A, R210; base word 0x0000008B. -/
  | lsb1A
  /-- MSB1.32, R212; base word 0x0000000C. -/
  | msb132
  /-- MSB1.64, R212; base word 0x0000004C. -/
  | msb164
  /-- MSB1.A, R212; base word 0x0000008C. -/
  | msb1A
  /-- BIDXL.32, R214; base word 0x0000000D. -/
  | bidxl32
  /-- BIDXL.64, R214; base word 0x0000004D. -/
  | bidxl64
  /-- BIDXL.A, R214; base word 0x0000008D. -/
  | bidxlA
  /-- BIDXM.32, R215; base word 0x0000000E. -/
  | bidxm32
  /-- BIDXM.64, R215; base word 0x0000004E. -/
  | bidxm64
  /-- BIDXM.A, R215; base word 0x0000008E. -/
  | bidxmA
  /-- REVBITS.32, R240; base word 0x0000000F. -/
  | revbits32
  /-- REVBITS.64, R240; base word 0x0000004F. -/
  | revbits64
  /-- REVBITS.A, R245; base word 0x0000008F. -/
  | revbitsA
  /-- REVBYTES.32, R246; base word 0x00000010. -/
  | revbytes32
  /-- REVBYTES.64, R246; base word 0x00000050. -/
  | revbytes64
  /-- SHLC.32, R247; base word 0x00000011. -/
  | shlc32 (count : Int)
  /-- SHLC.64, R247; base word 0x00000051. -/
  | shlc64 (count : Int)
  /-- SHRC.32, R248; base word 0x00000012. -/
  | shrc32 (count : Int)
  /-- SHRC.64, R248; base word 0x00000052. -/
  | shrc64 (count : Int)
  /-- ADPLEN.A, R284; base word 0x00000093. -/
  | adplenA
  /-- ADPHNZ.A, R285; base word 0x00000094. -/
  | adphnzA
  /-- ADPLNZ.A, R286; base word 0x00000095. -/
  | adplnzA
  deriving DecidableEq, Repr

/-- The mnemonic with its width suffix, as 30_encoding.md R101 and the opcode table spell it. -/
def Instr.mnemonic : Instr → String
  | .popcnt32 => "POPCNT.32"
  | .popcnt64 => "POPCNT.64"
  | .popcntA => "POPCNT.A"
  | .bitlen32 => "BITLEN.32"
  | .bitlen64 => "BITLEN.64"
  | .bitlenA => "BITLEN.A"
  | .log232 => "LOG2.32"
  | .log264 => "LOG2.64"
  | .log2A => "LOG2.A"
  | .lzc32 => "LZC.32"
  | .lzc64 => "LZC.64"
  | .lzcA => "LZC.A"
  | .tzc32 => "TZC.32"
  | .tzc64 => "TZC.64"
  | .tzcA => "TZC.A"
  | .foldr32 => "FOLDR.32"
  | .foldr64 => "FOLDR.64"
  | .foldrA => "FOLDR.A"
  | .foldl32 => "FOLDL.32"
  | .foldl64 => "FOLDL.64"
  | .foldlA => "FOLDL.A"
  | .ispow232 => "ISPOW2.32"
  | .ispow264 => "ISPOW2.64"
  | .ispow2A => "ISPOW2.A"
  | .roundup32 _ => "ROUNDUP.32"
  | .roundup64 _ => "ROUNDUP.64"
  | .roundupA _ => "ROUNDUP.A"
  | .rounddn32 _ => "ROUNDDN.32"
  | .rounddn64 _ => "ROUNDDN.64"
  | .rounddnA _ => "ROUNDDN.A"
  | .roundnr32 => "ROUNDNR.32"
  | .roundnr64 => "ROUNDNR.64"
  | .roundnrA => "ROUNDNR.A"
  | .lsb132 => "LSB1.32"
  | .lsb164 => "LSB1.64"
  | .lsb1A => "LSB1.A"
  | .msb132 => "MSB1.32"
  | .msb164 => "MSB1.64"
  | .msb1A => "MSB1.A"
  | .bidxl32 => "BIDXL.32"
  | .bidxl64 => "BIDXL.64"
  | .bidxlA => "BIDXL.A"
  | .bidxm32 => "BIDXM.32"
  | .bidxm64 => "BIDXM.64"
  | .bidxmA => "BIDXM.A"
  | .revbits32 => "REVBITS.32"
  | .revbits64 => "REVBITS.64"
  | .revbitsA => "REVBITS.A"
  | .revbytes32 => "REVBYTES.32"
  | .revbytes64 => "REVBYTES.64"
  | .shlc32 _ => "SHLC.32"
  | .shlc64 _ => "SHLC.64"
  | .shrc32 _ => "SHRC.32"
  | .shrc64 _ => "SHRC.64"
  | .adplenA => "ADPLEN.A"
  | .adphnzA => "ADPHNZ.A"
  | .adplnzA => "ADPLNZ.A"

/-- The text of a command without its operand (30_encoding.md R101): `p=` only for ROUNDUP and ROUNDDN, `c=` only
for SHLC and SHRC. -/
def Instr.assembly : Instr → String
  | .popcnt32 => "POPCNT.32"
  | .popcnt64 => "POPCNT.64"
  | .popcntA => "POPCNT.A"
  | .bitlen32 => "BITLEN.32"
  | .bitlen64 => "BITLEN.64"
  | .bitlenA => "BITLEN.A"
  | .log232 => "LOG2.32"
  | .log264 => "LOG2.64"
  | .log2A => "LOG2.A"
  | .lzc32 => "LZC.32"
  | .lzc64 => "LZC.64"
  | .lzcA => "LZC.A"
  | .tzc32 => "TZC.32"
  | .tzc64 => "TZC.64"
  | .tzcA => "TZC.A"
  | .foldr32 => "FOLDR.32"
  | .foldr64 => "FOLDR.64"
  | .foldrA => "FOLDR.A"
  | .foldl32 => "FOLDL.32"
  | .foldl64 => "FOLDL.64"
  | .foldlA => "FOLDL.A"
  | .ispow232 => "ISPOW2.32"
  | .ispow264 => "ISPOW2.64"
  | .ispow2A => "ISPOW2.A"
  | .roundup32 proper => "ROUNDUP.32 p=" ++ (if proper then "1" else "0")
  | .roundup64 proper => "ROUNDUP.64 p=" ++ (if proper then "1" else "0")
  | .roundupA proper => "ROUNDUP.A p=" ++ (if proper then "1" else "0")
  | .rounddn32 proper => "ROUNDDN.32 p=" ++ (if proper then "1" else "0")
  | .rounddn64 proper => "ROUNDDN.64 p=" ++ (if proper then "1" else "0")
  | .rounddnA proper => "ROUNDDN.A p=" ++ (if proper then "1" else "0")
  | .roundnr32 => "ROUNDNR.32"
  | .roundnr64 => "ROUNDNR.64"
  | .roundnrA => "ROUNDNR.A"
  | .lsb132 => "LSB1.32"
  | .lsb164 => "LSB1.64"
  | .lsb1A => "LSB1.A"
  | .msb132 => "MSB1.32"
  | .msb164 => "MSB1.64"
  | .msb1A => "MSB1.A"
  | .bidxl32 => "BIDXL.32"
  | .bidxl64 => "BIDXL.64"
  | .bidxlA => "BIDXL.A"
  | .bidxm32 => "BIDXM.32"
  | .bidxm64 => "BIDXM.64"
  | .bidxmA => "BIDXM.A"
  | .revbits32 => "REVBITS.32"
  | .revbits64 => "REVBITS.64"
  | .revbitsA => "REVBITS.A"
  | .revbytes32 => "REVBYTES.32"
  | .revbytes64 => "REVBYTES.64"
  | .shlc32 count => "SHLC.32 c=" ++ toString count
  | .shlc64 count => "SHLC.64 c=" ++ toString count
  | .shrc32 count => "SHRC.32 c=" ++ toString count
  | .shrc64 count => "SHRC.64 c=" ++ toString count
  | .adplenA => "ADPLEN.A"
  | .adphnzA => "ADPHNZ.A"
  | .adplnzA => "ADPLNZ.A"

/-- The width mode a command runs in (10_state.md R33, 30_encoding.md R92). -/
def Instr.width : Instr → Width
  | .popcnt32 => .w32
  | .popcnt64 => .w64
  | .popcntA => .arb
  | .bitlen32 => .w32
  | .bitlen64 => .w64
  | .bitlenA => .arb
  | .log232 => .w32
  | .log264 => .w64
  | .log2A => .arb
  | .lzc32 => .w32
  | .lzc64 => .w64
  | .lzcA => .arb
  | .tzc32 => .w32
  | .tzc64 => .w64
  | .tzcA => .arb
  | .foldr32 => .w32
  | .foldr64 => .w64
  | .foldrA => .arb
  | .foldl32 => .w32
  | .foldl64 => .w64
  | .foldlA => .arb
  | .ispow232 => .w32
  | .ispow264 => .w64
  | .ispow2A => .arb
  | .roundup32 _ => .w32
  | .roundup64 _ => .w64
  | .roundupA _ => .arb
  | .rounddn32 _ => .w32
  | .rounddn64 _ => .w64
  | .rounddnA _ => .arb
  | .roundnr32 => .w32
  | .roundnr64 => .w64
  | .roundnrA => .arb
  | .lsb132 => .w32
  | .lsb164 => .w64
  | .lsb1A => .arb
  | .msb132 => .w32
  | .msb164 => .w64
  | .msb1A => .arb
  | .bidxl32 => .w32
  | .bidxl64 => .w64
  | .bidxlA => .arb
  | .bidxm32 => .w32
  | .bidxm64 => .w64
  | .bidxmA => .arb
  | .revbits32 => .w32
  | .revbits64 => .w64
  | .revbitsA => .arb
  | .revbytes32 => .w32
  | .revbytes64 => .w64
  | .shlc32 _ => .w32
  | .shlc64 _ => .w64
  | .shrc32 _ => .w32
  | .shrc64 _ => .w64
  | .adplenA => .arb
  | .adphnzA => .arb
  | .adplnzA => .arb

end Sys2Proof
end

