-- ==== Sys2Proof/WellFormed.lean ====
section
/-! DEFINITION. Which terms of `Instr` are commands: the shift count must be one that the 8-bit field CNT holds
(30_encoding.md R94: range -128 .. 127). Every other field is a fact of its type. -/

namespace Sys2Proof

/-- The numbers the signed 8-bit field CNT holds (30_encoding.md R94). -/
def countEncodable (count : Int) : Bool := decide (-128 ≤ count) && decide (count ≤ 127)

/-- The term is a command that some command word stands for (30_encoding.md R96). -/
def Instr.wf : Instr → Bool
  | .popcnt32 => true
  | .popcnt64 => true
  | .popcntA => true
  | .bitlen32 => true
  | .bitlen64 => true
  | .bitlenA => true
  | .log232 => true
  | .log264 => true
  | .log2A => true
  | .lzc32 => true
  | .lzc64 => true
  | .lzcA => true
  | .tzc32 => true
  | .tzc64 => true
  | .tzcA => true
  | .foldr32 => true
  | .foldr64 => true
  | .foldrA => true
  | .foldl32 => true
  | .foldl64 => true
  | .foldlA => true
  | .ispow232 => true
  | .ispow264 => true
  | .ispow2A => true
  | .roundup32 _ => true
  | .roundup64 _ => true
  | .roundupA _ => true
  | .rounddn32 _ => true
  | .rounddn64 _ => true
  | .rounddnA _ => true
  | .roundnr32 => true
  | .roundnr64 => true
  | .roundnrA => true
  | .lsb132 => true
  | .lsb164 => true
  | .lsb1A => true
  | .msb132 => true
  | .msb164 => true
  | .msb1A => true
  | .bidxl32 => true
  | .bidxl64 => true
  | .bidxlA => true
  | .bidxm32 => true
  | .bidxm64 => true
  | .bidxmA => true
  | .revbits32 => true
  | .revbits64 => true
  | .revbitsA => true
  | .revbytes32 => true
  | .revbytes64 => true
  | .shlc32 count => countEncodable count
  | .shlc64 count => countEncodable count
  | .shrc32 count => countEncodable count
  | .shrc64 count => countEncodable count
  | .adplenA => true
  | .adphnzA => true
  | .adplnzA => true

end Sys2Proof
end

