-- ==== Sys2Proof/Decode.lean ====
section
/-! DEFINITION. The decoder of 30_encoding.md R100, total on every 32-bit command word, which rejects an illegal
word by the reason R100 names; and the encoder of R96, written from the same table. -/

namespace Sys2Proof

/-- Why a command word is illegal (30_encoding.md R97, with the reasons of R100). All lead to the one status
ILLEGAL_COMMAND, so the reason is not observable (R100). -/
inductive Illegal where
  /-- `RSV0` or `RSV1` is not 0 (R97, 6). -/
  | reservedBits
  /-- `OP` is 0x16 or more (R97, 1). -/
  | reservedOpcode
  /-- `WM` is 3 (R97, 2). -/
  | reservedWidthMode
  /-- REVBYTES, SHLC or SHRC with WM = 2 (R97, 3). -/
  | fixedWidthOnly
  /-- ADPLEN, ADPHNZ or ADPLNZ with WM other than 2 (R97, 3). -/
  | arbitraryOnly
  /-- P is 1 outside ROUNDUP and ROUNDDN (R97, 4). -/
  | pNotAField
  /-- CNT is not 0 outside SHLC and SHRC (R97, 5). -/
  | cntNotAField
  deriving DecidableEq, Repr

/-- `CMD[5:0]` (R90). -/
def fieldOp (w : Word32) : BitVec 6 := w.extractLsb' 0 6
/-- `CMD[7:6]` (R90). -/
def fieldWm (w : Word32) : BitVec 2 := w.extractLsb' 6 2
/-- `CMD[8]` (R90). -/
def fieldP (w : Word32) : BitVec 1 := w.extractLsb' 8 1
/-- `CMD[15:9]` (R90). -/
def fieldRsv0 (w : Word32) : BitVec 7 := w.extractLsb' 9 7
/-- `CMD[23:16]` (R90). -/
def fieldCnt (w : Word32) : BitVec 8 := w.extractLsb' 16 8
/-- `CMD[31:24]` (R90). -/
def fieldRsv1 (w : Word32) : BitVec 8 := w.extractLsb' 24 8

/-- REVBYTES, SHLC and SHRC exist at fixed widths only (R95). -/
def opFixedOnly (op : BitVec 6) : Bool := op == 0x10 || op == 0x11 || op == 0x12
/-- ADPLEN, ADPHNZ and ADPLNZ exist at arbitrary precision only (R95). -/
def opArbOnly (op : BitVec 6) : Bool := op == 0x13 || op == 0x14 || op == 0x15
/-- ROUNDUP and ROUNDDN have the field P (R93). -/
def opHasP (op : BitVec 6) : Bool := op == 0x08 || op == 0x09
/-- SHLC and SHRC have the field CNT (R94). -/
def opHasCnt (op : BitVec 6) : Bool := op == 0x11 || op == 0x12

/-- The command at an opcode and width mode of the table of R95, with its fields. `none`: the pair is not in the
table. -/
def instrAt (op wm : Nat) (proper : Bool) (count : Int) : Option Instr :=
  match op, wm with
  | 0x00, 0 => some .popcnt32
  | 0x00, 1 => some .popcnt64
  | 0x00, 2 => some .popcntA
  | 0x01, 0 => some .bitlen32
  | 0x01, 1 => some .bitlen64
  | 0x01, 2 => some .bitlenA
  | 0x02, 0 => some .log232
  | 0x02, 1 => some .log264
  | 0x02, 2 => some .log2A
  | 0x03, 0 => some .lzc32
  | 0x03, 1 => some .lzc64
  | 0x03, 2 => some .lzcA
  | 0x04, 0 => some .tzc32
  | 0x04, 1 => some .tzc64
  | 0x04, 2 => some .tzcA
  | 0x05, 0 => some .foldr32
  | 0x05, 1 => some .foldr64
  | 0x05, 2 => some .foldrA
  | 0x06, 0 => some .foldl32
  | 0x06, 1 => some .foldl64
  | 0x06, 2 => some .foldlA
  | 0x07, 0 => some .ispow232
  | 0x07, 1 => some .ispow264
  | 0x07, 2 => some .ispow2A
  | 0x08, 0 => some (.roundup32 proper)
  | 0x08, 1 => some (.roundup64 proper)
  | 0x08, 2 => some (.roundupA proper)
  | 0x09, 0 => some (.rounddn32 proper)
  | 0x09, 1 => some (.rounddn64 proper)
  | 0x09, 2 => some (.rounddnA proper)
  | 0x0A, 0 => some .roundnr32
  | 0x0A, 1 => some .roundnr64
  | 0x0A, 2 => some .roundnrA
  | 0x0B, 0 => some .lsb132
  | 0x0B, 1 => some .lsb164
  | 0x0B, 2 => some .lsb1A
  | 0x0C, 0 => some .msb132
  | 0x0C, 1 => some .msb164
  | 0x0C, 2 => some .msb1A
  | 0x0D, 0 => some .bidxl32
  | 0x0D, 1 => some .bidxl64
  | 0x0D, 2 => some .bidxlA
  | 0x0E, 0 => some .bidxm32
  | 0x0E, 1 => some .bidxm64
  | 0x0E, 2 => some .bidxmA
  | 0x0F, 0 => some .revbits32
  | 0x0F, 1 => some .revbits64
  | 0x0F, 2 => some .revbitsA
  | 0x10, 0 => some .revbytes32
  | 0x10, 1 => some .revbytes64
  | 0x11, 0 => some (.shlc32 count)
  | 0x11, 1 => some (.shlc64 count)
  | 0x12, 0 => some (.shrc32 count)
  | 0x12, 1 => some (.shrc64 count)
  | 0x13, 2 => some .adplenA
  | 0x14, 2 => some .adphnzA
  | 0x15, 2 => some .adplnzA
  | _, _ => none

/-- The decoder (30_encoding.md R100). After its checks the pair is in the table
(`Laws/Decode.lean`, `instrAt_isSome_of_checks`), so the last line's fallback is never taken. -/
def decode (w : Word32) : Except Illegal Instr :=
  if fieldRsv0 w ≠ 0 ∨ fieldRsv1 w ≠ 0 then .error .reservedBits
  else if 0x16 ≤ (fieldOp w).toNat then .error .reservedOpcode
  else if fieldWm w = 3 then .error .reservedWidthMode
  else if opFixedOnly (fieldOp w) ∧ fieldWm w = 2 then .error .fixedWidthOnly
  else if opArbOnly (fieldOp w) ∧ fieldWm w ≠ 2 then .error .arbitraryOnly
  else if fieldP w = 1 ∧ ¬ opHasP (fieldOp w) then .error .pNotAField
  else if fieldCnt w ≠ 0 ∧ ¬ opHasCnt (fieldOp w) then .error .cntNotAField
  else
    match instrAt (fieldOp w).toNat (fieldWm w).toNat (fieldP w == 1) (fieldCnt w).toInt with
    | some i => .ok i
    | none => .error .reservedOpcode

/-- The host's entry to the decoder: the instruction read from a row's `nbits` bits `w`, numbered as the opcode
table numbers them (bit 0 least significant). A command word is one 32-bit word (30_encoding.md R99), presented
whole on the port CMD, so the table's numbering is the port's own; the bits above `nbits` are 0. -/
def decodeTableWord (nbits w : Nat) : Option Instr :=
  if nbits ≤ 32 then (decode (BitVec.ofNat 32 (w % 2 ^ nbits))).toOption else none

/-- `CMD = OP | (WM << 6) | (P << 8) | ((count mod 256) << 16)` (30_encoding.md R96). -/
def commandWord (op wm : Nat) (proper : Bool) (count : Int) : Word32 :=
  BitVec.ofNat 32 op ||| (BitVec.ofNat 32 wm <<< (6 : Nat)) ||| ((if proper then 1#32 else 0#32) <<< (8 : Nat)) |||
    ((BitVec.ofInt 8 count).setWidth 32 <<< (16 : Nat))

/-- The encoder: the command word of a command (30_encoding.md R95 and R96). -/
def encode : Instr → Word32
  | .popcnt32 => commandWord 0x00 0 false 0
  | .popcnt64 => commandWord 0x00 1 false 0
  | .popcntA => commandWord 0x00 2 false 0
  | .bitlen32 => commandWord 0x01 0 false 0
  | .bitlen64 => commandWord 0x01 1 false 0
  | .bitlenA => commandWord 0x01 2 false 0
  | .log232 => commandWord 0x02 0 false 0
  | .log264 => commandWord 0x02 1 false 0
  | .log2A => commandWord 0x02 2 false 0
  | .lzc32 => commandWord 0x03 0 false 0
  | .lzc64 => commandWord 0x03 1 false 0
  | .lzcA => commandWord 0x03 2 false 0
  | .tzc32 => commandWord 0x04 0 false 0
  | .tzc64 => commandWord 0x04 1 false 0
  | .tzcA => commandWord 0x04 2 false 0
  | .foldr32 => commandWord 0x05 0 false 0
  | .foldr64 => commandWord 0x05 1 false 0
  | .foldrA => commandWord 0x05 2 false 0
  | .foldl32 => commandWord 0x06 0 false 0
  | .foldl64 => commandWord 0x06 1 false 0
  | .foldlA => commandWord 0x06 2 false 0
  | .ispow232 => commandWord 0x07 0 false 0
  | .ispow264 => commandWord 0x07 1 false 0
  | .ispow2A => commandWord 0x07 2 false 0
  | .roundup32 proper => commandWord 0x08 0 proper 0
  | .roundup64 proper => commandWord 0x08 1 proper 0
  | .roundupA proper => commandWord 0x08 2 proper 0
  | .rounddn32 proper => commandWord 0x09 0 proper 0
  | .rounddn64 proper => commandWord 0x09 1 proper 0
  | .rounddnA proper => commandWord 0x09 2 proper 0
  | .roundnr32 => commandWord 0x0A 0 false 0
  | .roundnr64 => commandWord 0x0A 1 false 0
  | .roundnrA => commandWord 0x0A 2 false 0
  | .lsb132 => commandWord 0x0B 0 false 0
  | .lsb164 => commandWord 0x0B 1 false 0
  | .lsb1A => commandWord 0x0B 2 false 0
  | .msb132 => commandWord 0x0C 0 false 0
  | .msb164 => commandWord 0x0C 1 false 0
  | .msb1A => commandWord 0x0C 2 false 0
  | .bidxl32 => commandWord 0x0D 0 false 0
  | .bidxl64 => commandWord 0x0D 1 false 0
  | .bidxlA => commandWord 0x0D 2 false 0
  | .bidxm32 => commandWord 0x0E 0 false 0
  | .bidxm64 => commandWord 0x0E 1 false 0
  | .bidxmA => commandWord 0x0E 2 false 0
  | .revbits32 => commandWord 0x0F 0 false 0
  | .revbits64 => commandWord 0x0F 1 false 0
  | .revbitsA => commandWord 0x0F 2 false 0
  | .revbytes32 => commandWord 0x10 0 false 0
  | .revbytes64 => commandWord 0x10 1 false 0
  | .shlc32 count => commandWord 0x11 0 false count
  | .shlc64 count => commandWord 0x11 1 false count
  | .shrc32 count => commandWord 0x12 0 false count
  | .shrc64 count => commandWord 0x12 1 false count
  | .adplenA => commandWord 0x13 2 false 0
  | .adphnzA => commandWord 0x14 2 false 0
  | .adplnzA => commandWord 0x15 2 false 0

end Sys2Proof
end

