-- ==== Sys2Proof/Machine/Bits.lean ====
section
/-! DEFINITION. The helper functions of 00_scope.md R11 to R13 and the fold of 41_fold_pow2.md: bit length,
population count, zero counts, the infinite two's-complement operations on integers, reversal. -/

namespace Sys2Proof.Machine

/-- `bl(n)`: the least m with n < 2^m (00_scope.md R13). -/
def bitLength (n : Nat) : Nat := if n = 0 then 0 else n.log2 + 1

/-- The number of 1 digits among the lowest `k` binary digits of `n`. -/
def onesBelow : Nat → Nat → Nat
  | 0, _ => 0
  | k + 1, n => n % 2 + onesBelow k (n / 2)

/-- `popcount(n)`: the number of 1 digits in the binary expansion of n (00_scope.md R13). -/
def popcount (n : Nat) : Nat := onesBelow (bitLength n) n

/-- The number of zero bits below the lowest 1 among the lowest `k` binary digits of `n` (`k` if there is none). -/
def zerosBelow : Nat → Nat → Nat
  | 0, _ => 0
  | k + 1, n => if n % 2 = 1 then 0 else zerosBelow k (n / 2) + 1

/-- `ctz(v)` for v ≠ 0: the largest k with 2^k dividing v (00_scope.md R13). -/
def ctz (v : Int) : Nat := zerosBelow (bitLength v.natAbs) v.natAbs

/-- `ctz_W(a)`: the number of zero bits below the lowest 1 bit of a; W when a = 0 (00_scope.md R13). -/
def ctzW {w : Nat} (a : BitVec w) : Nat := zerosBelow w a.toNat

/-- `clz_W(a) = W - bl(uint(a))` (00_scope.md R13). -/
def clzW {w : Nat} (a : BitVec w) : Nat := w - bitLength a.toNat

/-- `~v = -v - 1` on integers (00_scope.md R11). -/
def intNot (v : Int) : Int := -v - 1

/-- `x & y` on integers read as infinite two's-complement bit strings (00_scope.md R11). A negative integer
`-(n+1)` is the complement of the natural number n. -/
def intAnd : Int → Int → Int
  | .ofNat a, .ofNat b => .ofNat (a &&& b)
  | .ofNat a, .negSucc b => .ofNat (a - (a &&& b))
  | .negSucc a, .ofNat b => .ofNat (b - (a &&& b))
  | .negSucc a, .negSucc b => .negSucc (a ||| b)

/-- `fold(x) = 2^bl(x) - 1` for an integer x ≥ 0 (41_fold_pow2.md, preamble). -/
def fold (x : Nat) : Nat := 2 ^ bitLength x - 1

/-- `fold_W(a) = pat_W(2^bl(uint(a)) - 1)` (41_fold_pow2.md, preamble). -/
def foldW {w : Nat} (a : BitVec w) : BitVec w := BitVec.ofNat w (fold a.toNat)

/-- ISPOW2 on an exact integer: x > 0 and x & (x - 1) = 0 (41_fold_pow2.md R174). -/
def isPow2 (x : Int) : Bool := decide (0 < x) && intAnd x (x - 1) == 0

/-- `rev_W(a)`: bit i of the result is bit W-1-i of a (43_reverse_shift.md, preamble). -/
def revW {w : Nat} (a : BitVec w) : BitVec w := a.reverse

/-- `v = 2^k` for some k ≥ 0: an isolated bit (00_scope.md R17, 42_isolate_index.md R213). -/
def isolatedInt (v : Int) : Bool := decide (0 < v) && popcount v.toNat == 1

/-- The pattern has exactly one 1 bit (42_isolate_index.md R213). -/
def isolatedW {w : Nat} (a : BitVec w) : Bool := popcount a.toNat == 1

end Sys2Proof.Machine
end

