-- ==== Sys2Proof/Machine/Bytes.lean ====
section
/-! DEFINITION. Arbitrary-precision byte sequences (20_memory.md R60 to R64), the byte order of patterns
(R65, 43_reverse_shift.md R246), the non-zero-byte locators and the offset accumulator (44_adapter.md R281, R282). -/

namespace Sys2Proof.Machine

/-- The lowest `n` bytes of `x`, least significant first (20_memory.md R60). -/
def bytesLE (n x : Nat) : List Byte := (List.range n).map fun i => BitVec.ofNat 8 (x >>> (8 * i))

/-- `sum bs[i] * 2^(8i)`: byte 0 is least significant (20_memory.md R60). -/
def natOfBytes : List Byte → Nat
  | [] => 0
  | b :: bs => b.toNat + 256 * natOfBytes bs

/-- The magnitude bits of v: those of v itself, or of `~v` for a negative v. -/
def magnitude : Int → Nat
  | .ofNat n => n
  | .negSucc n => n

/-- The least n ≥ 1 with -2^(8n-1) ≤ v < 2^(8n-1) (20_memory.md R61): the magnitude bits and a sign bit. -/
def byteLen (v : Int) : Nat := bitLength (magnitude v) / 8 + 1

/-- `bytes(v)`: the minimal two's-complement byte sequence of v, least significant first (20_memory.md R61). -/
def bytes (v : Int) : List Byte := bytesLE (byteLen v) (v % (2 : Int) ^ (8 * byteLen v)).toNat

/-- The top byte of a sequence has its bit 7 set: the sign of the decomposer (44_adapter.md R280). -/
def topNegative (bs : List Byte) : Bool := decide (0x80 ≤ (bs.getD (bs.length - 1) 0).toNat)

/-- `sval(bs)`: the signed reading of a byte sequence (20_memory.md R62). -/
def sval (bs : List Byte) : Int :=
  (natOfBytes bs : Int) - (if topNegative bs then (2 : Int) ^ (8 * bs.length) else 0)

/-- The check of 20_memory.md R63: a sequence of two bytes or more has no redundant top byte. -/
def minimal (bs : List Byte) : Bool :=
  let top := (bs.getD (bs.length - 1) 0).toNat
  let next := (bs.getD (bs.length - 2) 0).toNat
  !(decide (2 ≤ bs.length) &&
    ((decide (top = 0x00) && decide (next < 0x80)) || (decide (top = 0xFF) && decide (0x80 ≤ next))))

/-- `HNZ_INDEX(bs)`, with `none` for the -1 of the spec (44_adapter.md R281). -/
def hnzIndex : List Byte → Option Nat
  | [] => none
  | b :: bs =>
    match hnzIndex bs with
    | some i => some (i + 1)
    | none => if b = 0 then none else some 0

/-- `LNZ_INDEX(bs)`, with `none` for the -1 of the spec (44_adapter.md R281). -/
def lnzIndex : List Byte → Option Nat
  | [] => none
  | b :: bs => if b = 0 then (lnzIndex bs).map (· + 1) else some 0

/-- `ACC_BYTE(i, r) = r + 8*i` (44_adapter.md R282). -/
def accByte (i r : Nat) : Nat := r + 8 * i

/-- `ACC_WORD(j, r) = r + 32*j` (44_adapter.md R282). -/
def accWord (j r : Nat) : Nat := r + 32 * j

/-- The byte reversal of a W-bit pattern, W a multiple of 8: byte k of the result is byte W/8-1-k of a
(43_reverse_shift.md R246). -/
def revBytesW {w : Nat} (a : BitVec w) : BitVec w :=
  BitVec.ofNat w (natOfBytes (bytesLE (w / 8) a.toNat).reverse)

end Sys2Proof.Machine
end

