-- ==== Sys2Proof/Config.lean ====
section
/-! DEFINITION. What an implementation fixes and what the spec leaves free: the value `N_ARB_MAX` has in the reset
state, and the free value behind `UNSPECIFIED` (00_scope.md R14). -/

namespace Sys2Proof

/-- The six commands that can draw an UNSPECIFIED index (42_isolate_index.md R214, R215). -/
inductive Config.IndexCommand where
  | bidxl32
  | bidxl64
  | bidxlA
  | bidxm32
  | bidxm64
  | bidxmA
  deriving DecidableEq, Repr

/-- The free value behind `UNSPECIFIED(0 .. top)` (00_scope.md R14, 93_implementation_defined.md U1), a constant with
no body: nothing can be proved of its values. It is applied to the command, the operand it reads, the top of the
range and the number of the draw, so that no two commands, operands, ranges or draws are bound to agree
(42_isolate_index.md R215, 20_memory.md R68). The range is applied where it is drawn (`Machine.drawIndex`). Log 6. -/
opaque Config.freeIndex (command : Config.IndexCommand) (operand : Int) (top : Nat) (draw : Nat) : Nat

/-- DESIGN CHOICE (log 4): the `N_ARB_MAX` of the reset state. The spec leaves the parameter open (00_scope.md R6,
92_eei_decisions.md D9). The statements need of it only that it is positive. -/
def Config.resetNArbMax : Nat := 64

end Sys2Proof
end

