-- ==== Sys2Proof/Machine/State.lean ====
section
/-! DEFINITION. The state of the machine: the ROMs and the parameter of the block, its input ports, the response on
its output ports, and two fields of the model's own (the commands the host will present, and the number of
UNSPECIFIED values drawn). Plain data throughout. -/

namespace Sys2Proof.Machine

/-- The values of STATUS (60_exceptions.md R300). Their 2-bit codes are `Status.code` in Machine/Flags.lean. -/
inductive Status where
  | ok
  | invalidArgument
  | missingInput
  | illegalCommand
  deriving DecidableEq, Repr

/-- What one result slot's ports carry (10_state.md R35, R36): `RVi`, and the valid bytes of `RBi`, lane 0 first.
`RLi` is the number of valid bytes (`SlotPort.rl`), and a lane above them reads as 0 (`SlotPort.lane`). Log 8. -/
structure SlotPort where
  rv : Word64
  rb : List Byte
  deriving DecidableEq, Repr

/-- A response: one status and three result slots (00_scope.md R3, 10_state.md R35). -/
structure Response where
  status : Status
  r0 : SlotPort
  r1 : SlotPort
  r2 : SlotPort
  deriving DecidableEq, Repr

/-- The four input ports, presented together and belonging to one command (10_state.md R34). `ab` lists the lanes of
`AB` from lane 0 up; a lane it does not list carries 0 (log 9). -/
structure Command where
  cmd : Word32
  opa : Word64
  ab : List Byte
  alen : Nat
  deriving DecidableEq, Repr

/-- The state of the block and its ports. -/
structure State where
  /-- The ROMs (10_state.md R40), fixed from power-on (R46). -/
  rom : BuiltRom
  /-- The parameter `N_ARB_MAX` (00_scope.md R6). No step changes it. Log 4. -/
  nArbMax : Nat
  /-- The input ports, as sampled for the command that is being run (10_state.md R34). Log 5. -/
  ports : Command
  /-- The response on the output ports; none before the first command (10_state.md R35, R47). Log 3. -/
  response : Option Response
  /-- The model's own field: the commands the host will present, the next one first (10_state.md R31). Log 1. -/
  pending : List Command
  /-- The model's own field: the number of UNSPECIFIED values drawn so far (00_scope.md R14). Log 6. -/
  draws : Nat
  deriving DecidableEq, Repr

/-- The faults of the machine: none. The block has no traps (60_exceptions.md R312), and every command completes with
a status (R309; 93_implementation_defined.md: "No item is stuck"). Nobody raises a fault. Log 11. -/
inductive Fault : Type
  deriving DecidableEq, Repr

/-- Why the model gives a step no meaning. -/
inductive Refusal where
  /-- Raised by an arm of `exec` for an instruction that has no meaning yet; no arm raises it now. Safe. -/
  | notModelled (mnemonic : String)
  /-- Raised by `step` when the host presents no command: a step is one command (10_state.md R39, R340). Safe. Log 2. -/
  | noCommand
  /-- Raised by every ARB command when `ALEN` exceeds `N_ARB_MAX`: the port cannot carry it, and a model must refuse it
  as an input (60_exceptions.md R305, 93_implementation_defined.md U10). Safe. Log 10. -/
  | operandTooLong
  deriving DecidableEq, Repr

/-- The input ports before the host drives them (log 5). -/
def Command.undriven : Command where
  cmd := 0
  opa := 0
  ab := []
  alen := 0

/-- The machine right after reset: the ROMs as built, no response, and nothing else (10_state.md R47,
70_reset_and_hazards.md R340, R341). -/
def State.reset : State where
  rom := BuiltRom.built
  nArbMax := Config.resetNArbMax
  ports := Command.undriven
  response := none
  pending := []
  draws := 0

end Sys2Proof.Machine
end

