-- ==== Sys2Proof/Machine/Ops.lean ====
section
/-! DEFINITION. The shared operations of a command: how a result slot is carried on its ports (10_state.md R36), the
response of a command that completes and of one that fails (00_scope.md R14, 60_exceptions.md R303), and the draw of
an UNSPECIFIED value. The block has no traps (R312, R313): failing is one response with a status, the counterpart of
taking an exception, and nothing has to be returned from. -/

namespace Sys2Proof.Machine

/-- The outcome of a command. -/
abbrev Outcome := Host.Outcome State Fault Refusal

/-- The kinds of result slot (00_scope.md R15). A W32 pattern is held zero-extended, as R36 carries it. -/
inductive Slot where
  | empty
  | cnt (n : Int)
  | fix (a : Word64)
  | arb (v : Int)
  deriving DecidableEq, Repr

/-- A W-bit pattern as a slot: `0 ++ a` (10_state.md R36). -/
def Slot.pattern {w : Nat} (a : BitVec w) : Slot := .fix (a.setWidth 64)

/-- How a slot is carried on its ports (10_state.md R36). -/
def Slot.ports : Slot → SlotPort
  | .empty => { rv := 0, rb := [] }
  | .cnt n => { rv := BitVec.ofInt 64 n, rb := [] }
  | .fix a => { rv := a, rb := [] }
  | .arb v => { rv := 0, rb := bytes v }

/-- `RLi`: the number of valid bytes of `RBi` (10_state.md R35). -/
def SlotPort.rl (p : SlotPort) : Nat := p.rb.length

/-- Byte lane k of `RBi`: bytes `RLi` and above are 0 (10_state.md R36). -/
def SlotPort.lane (p : SlotPort) (k : Nat) : Byte := p.rb.getD k 0

/-- A response made of a status and three slots. -/
def Response.make (st : Status) (s0 s1 s2 : Slot) : Response where
  status := st
  r0 := s0.ports
  r1 := s1.ports
  r2 := s2.ports

/-- The state with a response put on the output ports (10_state.md R35). -/
def State.answered (s : State) (r : Response) : State := { s with response := some r }

/-- `respond(S0, S1, S2)`: the command completes with STATUS = OK (00_scope.md R14). -/
def respond (s : State) (s0 : Slot) (s1 : Slot := .empty) (s2 : Slot := .empty) : Outcome :=
  .next (s.answered (Response.make .ok s0 s1 s2))

/-- `raise`: the command completes with an error status and all slots empty (00_scope.md R14, 60_exceptions.md R303).
Only the status is recorded (R306). -/
def raise (s : State) (st : Status) : Outcome :=
  .next (s.answered (Response.make st .empty .empty .empty))

/-- `UNSPECIFIED(0 .. top)`: the value drawn and the state after the draw (00_scope.md R14). Every value of the range
is admitted, and none is settled: `Config.freeIndex` has no body. Log 6. -/
def drawIndex (s : State) (command : Config.IndexCommand) (operand : Int) (top : Nat) : Nat × State :=
  (Config.freeIndex command operand top s.draws % (top + 1), { s with draws := s.draws + 1 })

end Sys2Proof.Machine
end

