-- ==== Sys2Proof/Machine/Flags.lean ====
section
/-! DEFINITION. The block has no condition codes and no sticky flags (10_state.md R32). What stands in their place is
STATUS: its codes (60_exceptions.md R300) and the domain checks that give INVALID_ARGUMENT (R301, step 3 of R304). -/

namespace Sys2Proof.Machine

/-- The 2-bit code on the port STATUS (60_exceptions.md R300). -/
def Status.code : Status → BitVec 2
  | .ok => 0
  | .invalidArgument => 1
  | .missingInput => 2
  | .illegalCommand => 3

/-- A domain check of an instruction (60_exceptions.md R304, step 3): outside the domain the command completes with
INVALID_ARGUMENT. -/
def inDomain (s : State) (good : Bool) (k : Outcome) : Outcome :=
  if good then k else raise s .invalidArgument

/-- The domain "not negative" (60_exceptions.md R301, causes 2 to 5 and 7). -/
def notNegative (x : Int) : Bool := decide (0 ≤ x)

/-- The domain of rounding, x > 0 (60_exceptions.md R301, cause 6; 41_fold_pow2.md R173). -/
def positive (x : Int) : Bool := decide (0 < x)

/-- The domain of a shift count, 0 ≤ c ≤ W (60_exceptions.md R301, cause 8). -/
def countInRange (w : Nat) (c : Int) : Bool := decide (0 ≤ c) && decide (c ≤ w)

end Sys2Proof.Machine
end

