-- ==== Sys2Proof/Machine/Operands.lean ====
section
/-! DEFINITION. The three operand forms (10_state.md R37): the pattern `OPA[31:0]`, the pattern `OPA[63:0]`, and the
integer on `AB`/`ALEN` with the checks of 20_memory.md R63, through the byte decomposer of 44_adapter.md R280. -/

namespace Sys2Proof.Machine

/-- The W32 operand `OPA[31:0]`; the upper half is ignored (10_state.md R37). -/
def opa32 (s : State) : Word32 := s.ports.opa.setWidth 32

/-- The W64 operand `OPA[63:0]` (10_state.md R37). -/
def opa64 (s : State) : Word64 := s.ports.opa

/-- The operand bytes `AB[0..ALEN-1]` (10_state.md R34, 20_memory.md R60). -/
def Command.operandBytes (c : Command) : List Byte := (List.range c.alen).map fun k => c.ab.getD k 0

/-- What the byte decomposer gives (44_adapter.md R280): the minimal sequence, its length and the sign. -/
structure Decomposed where
  bs : List Byte
  n : Nat
  neg : Bool
  deriving DecidableEq, Repr

/-- `DECOMPOSE(AB, ALEN)` (44_adapter.md R280), after the checks of 20_memory.md R63. -/
def decompose (c : Command) : Decomposed where
  bs := c.operandBytes
  n := c.alen
  neg := topNegative c.operandBytes

/-- The ARB operand with its checks, in the order of 60_exceptions.md R304 (20_memory.md R63): no bytes is
MISSING_INPUT, a sequence that is not minimal is INVALID_ARGUMENT, and otherwise the command goes on with what the
decomposer gives. A length the port cannot carry is no input of `Step` and is refused (R305; log 10). -/
def withDecomposed (s : State) (k : Decomposed → Outcome) : Outcome :=
  if s.nArbMax < s.ports.alen then .refused .operandTooLong
  else if s.ports.alen = 0 then raise s .missingInput
  else if minimal s.ports.operandBytes then k (decompose s.ports)
  else raise s .invalidArgument

/-- The ARB operand as the integer v = sval(AB[0..ALEN-1]) (10_state.md R37, 20_memory.md R63). -/
def withArb (s : State) (k : Int → Outcome) : Outcome :=
  withDecomposed s fun d => k (sval d.bs)

end Sys2Proof.Machine
end

