-- ==== Sys2Proof/Machine/Adapter.lean ====
section
/-! DEFINITION. The adapter commands ADPLEN, ADPHNZ, ADPLNZ, which expose the byte decomposer (44_adapter.md R284 to
R286). -/

namespace Sys2Proof.Machine

/-- The response of ADPHNZ and ADPLNZ: the index and the byte there, or (-1, 0) when every byte is 0 (44_adapter.md
R285, R286). -/
def respondByteAt (s : State) (bs : List Byte) (index : Option Nat) : Outcome :=
  match index with
  | none => respond s (.cnt (-1)) (.cnt 0)
  | some i => respond s (.cnt i) (.cnt (bs.getD i 0).toNat)

/-- ADPLEN.A (44_adapter.md R284). -/
def execAdplenA (s : State) : Outcome := withDecomposed s fun d => respond s (.cnt d.n)
/-- ADPHNZ.A (44_adapter.md R285). -/
def execAdphnzA (s : State) : Outcome := withDecomposed s fun d => respondByteAt s d.bs (hnzIndex d.bs)
/-- ADPLNZ.A (44_adapter.md R286). -/
def execAdplnzA (s : State) : Outcome := withDecomposed s fun d => respondByteAt s d.bs (lnzIndex d.bs)

end Sys2Proof.Machine
end

