-- ==== Sys2Proof/Machine/Count.lean ====
section
/-! DEFINITION. The counting family: POPCNT, BITLEN, LOG2, LZC, TZC (40_count.md). Each count is a `cnt` slot in R0. -/

namespace Sys2Proof.Machine

/-- BITLEN of a W-bit pattern (40_count.md R132): a negative pattern fills its width. -/
def bitLenW {w : Nat} (a : BitVec w) : Int :=
  if a.toInt < 0 then w else bitLength a.toInt.toNat

/-- BITLEN of an integer (40_count.md R132): -1 is the sentinel of a negative operand. -/
def bitLenInt (v : Int) : Int :=
  if v < 0 then -1 else bitLength v.toNat

/-- LOG2 of an exact operand x ≥ 0, with the sentinel 0 for 0 (40_count.md R134). -/
def log2Int (x : Int) : Int :=
  if x = 0 then 0 else (bitLength x.toNat : Int) - 1

/-- LZC of an integer v ≥ 0: `(1 << bl(b)) - b` with b = bl(v) (40_count.md R136). -/
def lzcInt (v : Int) : Int :=
  (2 : Int) ^ bitLength (bitLength v.toNat) - bitLength v.toNat

/-- TZC of an integer: -1 for 0, else `popcount((v & -v) - 1)` (40_count.md R138). -/
def tzcInt (v : Int) : Int :=
  if v = 0 then -1 else popcount (intAnd v (-v) - 1).toNat

/-- POPCNT.32 (40_count.md R130). -/
def execPopcnt32 (s : State) : Outcome := respond s (.cnt (popcount (opa32 s).toNat))
/-- POPCNT.64 (40_count.md R130). -/
def execPopcnt64 (s : State) : Outcome := respond s (.cnt (popcount (opa64 s).toNat))
/-- POPCNT.A (40_count.md R130): a negative operand is rejected. -/
def execPopcntA (s : State) : Outcome :=
  withArb s fun v => inDomain s (notNegative v) (respond s (.cnt (popcount v.toNat)))

/-- BITLEN.32 (40_count.md R132). -/
def execBitlen32 (s : State) : Outcome := respond s (.cnt (bitLenW (opa32 s)))
/-- BITLEN.64 (40_count.md R132). -/
def execBitlen64 (s : State) : Outcome := respond s (.cnt (bitLenW (opa64 s)))
/-- BITLEN.A (40_count.md R132). -/
def execBitlenA (s : State) : Outcome := withArb s fun v => respond s (.cnt (bitLenInt v))

/-- LOG2.32 (40_count.md R134): a negative operand is rejected. -/
def execLog232 (s : State) : Outcome :=
  inDomain s (notNegative (opa32 s).toInt) (respond s (.cnt (log2Int (opa32 s).toInt)))
/-- LOG2.64 (40_count.md R134). -/
def execLog264 (s : State) : Outcome :=
  inDomain s (notNegative (opa64 s).toInt) (respond s (.cnt (log2Int (opa64 s).toInt)))
/-- LOG2.A (40_count.md R134). -/
def execLog2A (s : State) : Outcome :=
  withArb s fun v => inDomain s (notNegative v) (respond s (.cnt (log2Int v)))

/-- LZC.32 (40_count.md R136). -/
def execLzc32 (s : State) : Outcome := respond s (.cnt (clzW (opa32 s)))
/-- LZC.64 (40_count.md R136). -/
def execLzc64 (s : State) : Outcome := respond s (.cnt (clzW (opa64 s)))
/-- LZC.A (40_count.md R136): a negative operand is rejected. -/
def execLzcA (s : State) : Outcome :=
  withArb s fun v => inDomain s (notNegative v) (respond s (.cnt (lzcInt v)))

/-- TZC.32 (40_count.md R138). -/
def execTzc32 (s : State) : Outcome := respond s (.cnt (ctzW (opa32 s)))
/-- TZC.64 (40_count.md R138). -/
def execTzc64 (s : State) : Outcome := respond s (.cnt (ctzW (opa64 s)))
/-- TZC.A (40_count.md R138): a negative operand is legal. -/
def execTzcA (s : State) : Outcome := withArb s fun v => respond s (.cnt (tzcInt v))

end Sys2Proof.Machine
end

