-- ==== Sys2Proof/Machine/FoldPow2.lean ====
section
/-! DEFINITION. The fold and power-of-two family: FOLDR, FOLDL, ISPOW2, ROUNDUP, ROUNDDN, ROUNDNR (41_fold_pow2.md). -/

namespace Sys2Proof.Machine

/-- FOLDL of a W-bit pattern (41_fold_pow2.md R172); the zero case is tested first. Shifts are logical (00_scope.md
R12). -/
def foldLeftW {w : Nat} (a : BitVec w) : BitVec w :=
  if a = 0 then 0 else (foldW a >>> ctzW a) <<< ctzW a

/-- FOLDL of an integer v ≥ 0 (41_fold_pow2.md R172); `v << n` is `v * 2^n` (00_scope.md R11). -/
def foldLeftInt (v : Int) : Int :=
  if v = 0 then 0 else ((fold v.toNat : Int) >>> ctz v) * (2 : Int) ^ ctz v

/-- ISPOW2 of a W-bit pattern (41_fold_pow2.md R174): 1 for true and 0 for false (00_scope.md R15). -/
def isPow2W {w : Nat} (a : BitVec w) : Int :=
  if 0 < a.toInt ∧ a &&& (a - 1) = 0 then 1 else 0

/-- `greaterThan`: the power of two at or above x > 0, `fold(x - 1) + 1` (41_fold_pow2.md R176, R180). -/
def powerAbove (x : Int) : Int := (fold (x - 1).toNat : Int) + 1

/-- ROUNDUP of an exact x > 0 (41_fold_pow2.md R176); `proper` is strict. -/
def roundUp (proper : Bool) (x : Int) : Int :=
  if isPow2 x then (if proper then x * 2 else x) else powerAbove x

/-- ROUNDDN of an exact x > 0 (41_fold_pow2.md R178); `proper` is strict. -/
def roundDown (proper : Bool) (x : Int) : Int :=
  if isPow2 x then (if proper then x >>> (1 : Nat) else x) else powerAbove x >>> (1 : Nat)

/-- The nearer of the two bracketing powers of an exact x > 0; a tie goes to `greaterThan` (41_fold_pow2.md R180). -/
def roundNearest (x : Int) : Int :=
  if powerAbove x - x > x - powerAbove x >>> (1 : Nat) then powerAbove x >>> (1 : Nat) else powerAbove x

/-- A rounding result at width W: `fix(pat_W(r))` (41_fold_pow2.md R173). -/
def roundedSlot (w : Nat) (r : Int) : Slot := .pattern (BitVec.ofInt w r)

/-- FOLDR.32 (41_fold_pow2.md R170). -/
def execFoldr32 (s : State) : Outcome := respond s (.pattern (foldW (opa32 s)))
/-- FOLDR.64 (41_fold_pow2.md R170). -/
def execFoldr64 (s : State) : Outcome := respond s (.pattern (foldW (opa64 s)))
/-- FOLDR.A (41_fold_pow2.md R170): a negative operand is rejected. -/
def execFoldrA (s : State) : Outcome :=
  withArb s fun v => inDomain s (notNegative v) (respond s (.arb (fold v.toNat)))

/-- FOLDL.32 (41_fold_pow2.md R172). -/
def execFoldl32 (s : State) : Outcome := respond s (.pattern (foldLeftW (opa32 s)))
/-- FOLDL.64 (41_fold_pow2.md R172). -/
def execFoldl64 (s : State) : Outcome := respond s (.pattern (foldLeftW (opa64 s)))
/-- FOLDL.A (41_fold_pow2.md R172): a negative operand is rejected. -/
def execFoldlA (s : State) : Outcome :=
  withArb s fun v => inDomain s (notNegative v) (respond s (.arb (foldLeftInt v)))

/-- ISPOW2.32 (41_fold_pow2.md R174). -/
def execIspow232 (s : State) : Outcome := respond s (.cnt (isPow2W (opa32 s)))
/-- ISPOW2.64 (41_fold_pow2.md R174). -/
def execIspow264 (s : State) : Outcome := respond s (.cnt (isPow2W (opa64 s)))
/-- ISPOW2.A (41_fold_pow2.md R174). -/
def execIspow2A (s : State) : Outcome := withArb s fun v => respond s (.cnt (if isPow2 v then 1 else 0))

/-- ROUNDUP.32 (41_fold_pow2.md R176), on x = sint(a), exact (R173). -/
def execRoundup32 (proper : Bool) (s : State) : Outcome :=
  inDomain s (positive (opa32 s).toInt) (respond s (roundedSlot 32 (roundUp proper (opa32 s).toInt)))
/-- ROUNDUP.64 (41_fold_pow2.md R176). -/
def execRoundup64 (proper : Bool) (s : State) : Outcome :=
  inDomain s (positive (opa64 s).toInt) (respond s (roundedSlot 64 (roundUp proper (opa64 s).toInt)))
/-- ROUNDUP.A (41_fold_pow2.md R176). -/
def execRoundupA (proper : Bool) (s : State) : Outcome :=
  withArb s fun v => inDomain s (positive v) (respond s (.arb (roundUp proper v)))

/-- ROUNDDN.32 (41_fold_pow2.md R178), on x = sint(a), exact (R173). -/
def execRounddn32 (proper : Bool) (s : State) : Outcome :=
  inDomain s (positive (opa32 s).toInt) (respond s (roundedSlot 32 (roundDown proper (opa32 s).toInt)))
/-- ROUNDDN.64 (41_fold_pow2.md R178). -/
def execRounddn64 (proper : Bool) (s : State) : Outcome :=
  inDomain s (positive (opa64 s).toInt) (respond s (roundedSlot 64 (roundDown proper (opa64 s).toInt)))
/-- ROUNDDN.A (41_fold_pow2.md R178). -/
def execRounddnA (proper : Bool) (s : State) : Outcome :=
  withArb s fun v => inDomain s (positive v) (respond s (.arb (roundDown proper v)))

/-- ROUNDNR.32 (41_fold_pow2.md R180): R0 nearest, R1 greaterThan, R2 lessThan. -/
def execRoundnr32 (s : State) : Outcome :=
  inDomain s (positive (opa32 s).toInt)
    (respond s (roundedSlot 32 (roundNearest (opa32 s).toInt)) (roundedSlot 32 (powerAbove (opa32 s).toInt))
      (roundedSlot 32 (powerAbove (opa32 s).toInt >>> (1 : Nat))))
/-- ROUNDNR.64 (41_fold_pow2.md R180). -/
def execRoundnr64 (s : State) : Outcome :=
  inDomain s (positive (opa64 s).toInt)
    (respond s (roundedSlot 64 (roundNearest (opa64 s).toInt)) (roundedSlot 64 (powerAbove (opa64 s).toInt))
      (roundedSlot 64 (powerAbove (opa64 s).toInt >>> (1 : Nat))))
/-- ROUNDNR.A (41_fold_pow2.md R180). -/
def execRoundnrA (s : State) : Outcome :=
  withArb s fun v => inDomain s (positive v)
    (respond s (.arb (roundNearest v)) (.arb (powerAbove v)) (.arb (powerAbove v >>> (1 : Nat))))

end Sys2Proof.Machine
end

