-- ==== Sys2Proof/Machine/IsolateIndex.lean ====
section
/-! DEFINITION. The isolation and index family: LSB1, MSB1, BIDXL, BIDXM (42_isolate_index.md). -/

namespace Sys2Proof.Machine

/-- MSB1 of a W-bit pattern: `f & ~(f >>u 1)` with f = fold_W(a) (42_isolate_index.md R212). -/
def msb1W {w : Nat} (a : BitVec w) : BitVec w := foldW a &&& ~~~(foldW a >>> (1 : Nat))

/-- MSB1 of an integer v ≥ 0: `f & ~(f >> 1)` with f = fold(v) (42_isolate_index.md R212). -/
def msb1Int (v : Int) : Int := intAnd (fold v.toNat) (intNot ((fold v.toNat : Int) >>> (1 : Nat)))

/-- The response of BIDXL and BIDXM (42_isolate_index.md R213 to R215): the index of an isolated bit, and otherwise an
UNSPECIFIED index in 0 .. top with STATUS = OK. The precondition is not checked: no status depends on it. -/
def respondIndex (s : State) (isolated : Bool) (k : Nat) (command : Config.IndexCommand) (operand : Int)
    (top : Nat) : Outcome :=
  if isolated then respond s (.cnt k)
  else respond (drawIndex s command operand top).2 (.cnt (drawIndex s command operand top).1)

/-- BIDXL or BIDXM of a W-bit pattern; an UNSPECIFIED index lies in 0 .. W-1 (42_isolate_index.md R214, R215). -/
def indexW {w : Nat} (s : State) (command : Config.IndexCommand) (a : BitVec w) : Outcome :=
  respondIndex s (isolatedW a) (ctzW a) command a.toNat (w - 1)

/-- BIDXL or BIDXM of an integer; an UNSPECIFIED index lies in 0 .. 8*N_ARB_MAX + 23 (42_isolate_index.md R214,
R215). -/
def indexArb (s : State) (command : Config.IndexCommand) (v : Int) : Outcome :=
  respondIndex s (isolatedInt v) (ctz v) command v (8 * s.nArbMax + 23)

/-- LSB1.32 (42_isolate_index.md R210). -/
def execLsb132 (s : State) : Outcome := respond s (.pattern (opa32 s &&& -opa32 s))
/-- LSB1.64 (42_isolate_index.md R210). -/
def execLsb164 (s : State) : Outcome := respond s (.pattern (opa64 s &&& -opa64 s))
/-- LSB1.A (42_isolate_index.md R210): a negative operand is legal. -/
def execLsb1A (s : State) : Outcome := withArb s fun v => respond s (.arb (intAnd v (-v)))

/-- MSB1.32 (42_isolate_index.md R212). -/
def execMsb132 (s : State) : Outcome := respond s (.pattern (msb1W (opa32 s)))
/-- MSB1.64 (42_isolate_index.md R212). -/
def execMsb164 (s : State) : Outcome := respond s (.pattern (msb1W (opa64 s)))
/-- MSB1.A (42_isolate_index.md R212): a negative operand is rejected. -/
def execMsb1A (s : State) : Outcome :=
  withArb s fun v => inDomain s (notNegative v) (respond s (.arb (msb1Int v)))

/-- BIDXL.32 (42_isolate_index.md R214). -/
def execBidxl32 (s : State) : Outcome := indexW s .bidxl32 (opa32 s)
/-- BIDXL.64 (42_isolate_index.md R214). -/
def execBidxl64 (s : State) : Outcome := indexW s .bidxl64 (opa64 s)
/-- BIDXL.A (42_isolate_index.md R214). -/
def execBidxlA (s : State) : Outcome := withArb s fun v => indexArb s .bidxlA v

/-- BIDXM.32 (42_isolate_index.md R215). -/
def execBidxm32 (s : State) : Outcome := indexW s .bidxm32 (opa32 s)
/-- BIDXM.64 (42_isolate_index.md R215). -/
def execBidxm64 (s : State) : Outcome := indexW s .bidxm64 (opa64 s)
/-- BIDXM.A (42_isolate_index.md R215). -/
def execBidxmA (s : State) : Outcome := withArb s fun v => indexArb s .bidxmA v

end Sys2Proof.Machine
end

