-- ==== Sys2Proof/Machine/ReverseShift.lean ====
section
/-! DEFINITION. The reversal and carry-preserving shift family: REVBITS, REVBYTES, SHLC, SHRC (43_reverse_shift.md). -/

namespace Sys2Proof.Machine

/-- The reversed bytes of a sequence of length n: `rb[j] = REV8_TABLE[bs[n-1-j]]` (43_reverse_shift.md R245). -/
def reversedBytes (rom : Rom) (bs : List Byte) : List Byte := bs.reverse.map rom.rev8

/-- SHLC of a W-bit pattern by c: the shifted value and the carry-out in the low c bits. The amounts are used as given,
not reduced mod W (43_reverse_shift.md R247). -/
def shiftLeftCarry {w : Nat} (a : BitVec w) (c : Nat) : BitVec w × BitVec w := (a <<< c, a >>> (w - c))

/-- SHRC of a W-bit pattern by c: the shifted value and the carry-out in the high c bits (43_reverse_shift.md R248). -/
def shiftRightCarry {w : Nat} (a : BitVec w) (c : Nat) : BitVec w × BitVec w := (a >>> c, a <<< (w - c))

/-- The two result slots of a carry-preserving shift: R0 the shifted value, R1 the carry-out. -/
def respondShift {w : Nat} (s : State) (r : BitVec w × BitVec w) : Outcome :=
  respond s (.pattern r.1) (.pattern r.2)

/-- REVBITS.32 (43_reverse_shift.md R240). -/
def execRevbits32 (s : State) : Outcome := respond s (.pattern (revW (opa32 s)))
/-- REVBITS.64 (43_reverse_shift.md R240). -/
def execRevbits64 (s : State) : Outcome := respond s (.pattern (revW (opa64 s)))
/-- REVBITS.A (43_reverse_shift.md R245): the reversed bytes, read as signed. -/
def execRevbitsA (s : State) : Outcome :=
  withDecomposed s fun d => respond s (.arb (sval (reversedBytes s.rom.val d.bs)))

/-- REVBYTES.32 (43_reverse_shift.md R246). -/
def execRevbytes32 (s : State) : Outcome := respond s (.pattern (revBytesW (opa32 s)))
/-- REVBYTES.64 (43_reverse_shift.md R246). -/
def execRevbytes64 (s : State) : Outcome := respond s (.pattern (revBytesW (opa64 s)))

/-- SHLC.32 (43_reverse_shift.md R247). -/
def execShlc32 (count : Int) (s : State) : Outcome :=
  inDomain s (countInRange 32 count) (respondShift s (shiftLeftCarry (opa32 s) count.toNat))
/-- SHLC.64 (43_reverse_shift.md R247). -/
def execShlc64 (count : Int) (s : State) : Outcome :=
  inDomain s (countInRange 64 count) (respondShift s (shiftLeftCarry (opa64 s) count.toNat))

/-- SHRC.32 (43_reverse_shift.md R248). -/
def execShrc32 (count : Int) (s : State) : Outcome :=
  inDomain s (countInRange 32 count) (respondShift s (shiftRightCarry (opa32 s) count.toNat))
/-- SHRC.64 (43_reverse_shift.md R248). -/
def execShrc64 (count : Int) (s : State) : Outcome :=
  inDomain s (countInRange 64 count) (respondShift s (shiftRightCarry (opa64 s) count.toNat))

end Sys2Proof.Machine
end

