-- ==== Sys2Proof/Machine/Dispatch.lean ====
section
/-! DEFINITION. The dispatch of a command to its meaning: one arm per constructor of `Instr`. -/

namespace Sys2Proof.Machine

def exec (i : Instr) (s : State) : Host.Outcome State Fault Refusal :=
  match i with
  | .popcnt32 => Sys2Proof.Machine.execPopcnt32 s
  | .popcnt64 => Sys2Proof.Machine.execPopcnt64 s
  | .popcntA => Sys2Proof.Machine.execPopcntA s
  | .bitlen32 => Sys2Proof.Machine.execBitlen32 s
  | .bitlen64 => Sys2Proof.Machine.execBitlen64 s
  | .bitlenA => Sys2Proof.Machine.execBitlenA s
  | .log232 => Sys2Proof.Machine.execLog232 s
  | .log264 => Sys2Proof.Machine.execLog264 s
  | .log2A => Sys2Proof.Machine.execLog2A s
  | .lzc32 => Sys2Proof.Machine.execLzc32 s
  | .lzc64 => Sys2Proof.Machine.execLzc64 s
  | .lzcA => Sys2Proof.Machine.execLzcA s
  | .tzc32 => Sys2Proof.Machine.execTzc32 s
  | .tzc64 => Sys2Proof.Machine.execTzc64 s
  | .tzcA => Sys2Proof.Machine.execTzcA s
  | .foldr32 => Sys2Proof.Machine.execFoldr32 s
  | .foldr64 => Sys2Proof.Machine.execFoldr64 s
  | .foldrA => Sys2Proof.Machine.execFoldrA s
  | .foldl32 => Sys2Proof.Machine.execFoldl32 s
  | .foldl64 => Sys2Proof.Machine.execFoldl64 s
  | .foldlA => Sys2Proof.Machine.execFoldlA s
  | .ispow232 => Sys2Proof.Machine.execIspow232 s
  | .ispow264 => Sys2Proof.Machine.execIspow264 s
  | .ispow2A => Sys2Proof.Machine.execIspow2A s
  | .roundup32 proper => Sys2Proof.Machine.execRoundup32 proper s
  | .roundup64 proper => Sys2Proof.Machine.execRoundup64 proper s
  | .roundupA proper => Sys2Proof.Machine.execRoundupA proper s
  | .rounddn32 proper => Sys2Proof.Machine.execRounddn32 proper s
  | .rounddn64 proper => Sys2Proof.Machine.execRounddn64 proper s
  | .rounddnA proper => Sys2Proof.Machine.execRounddnA proper s
  | .roundnr32 => Sys2Proof.Machine.execRoundnr32 s
  | .roundnr64 => Sys2Proof.Machine.execRoundnr64 s
  | .roundnrA => Sys2Proof.Machine.execRoundnrA s
  | .lsb132 => Sys2Proof.Machine.execLsb132 s
  | .lsb164 => Sys2Proof.Machine.execLsb164 s
  | .lsb1A => Sys2Proof.Machine.execLsb1A s
  | .msb132 => Sys2Proof.Machine.execMsb132 s
  | .msb164 => Sys2Proof.Machine.execMsb164 s
  | .msb1A => Sys2Proof.Machine.execMsb1A s
  | .bidxl32 => Sys2Proof.Machine.execBidxl32 s
  | .bidxl64 => Sys2Proof.Machine.execBidxl64 s
  | .bidxlA => Sys2Proof.Machine.execBidxlA s
  | .bidxm32 => Sys2Proof.Machine.execBidxm32 s
  | .bidxm64 => Sys2Proof.Machine.execBidxm64 s
  | .bidxmA => Sys2Proof.Machine.execBidxmA s
  | .revbits32 => Sys2Proof.Machine.execRevbits32 s
  | .revbits64 => Sys2Proof.Machine.execRevbits64 s
  | .revbitsA => Sys2Proof.Machine.execRevbitsA s
  | .revbytes32 => Sys2Proof.Machine.execRevbytes32 s
  | .revbytes64 => Sys2Proof.Machine.execRevbytes64 s
  | .shlc32 count => Sys2Proof.Machine.execShlc32 count s
  | .shlc64 count => Sys2Proof.Machine.execShlc64 count s
  | .shrc32 count => Sys2Proof.Machine.execShrc32 count s
  | .shrc64 count => Sys2Proof.Machine.execShrc64 count s
  | .adplenA => Sys2Proof.Machine.execAdplenA s
  | .adphnzA => Sys2Proof.Machine.execAdphnzA s
  | .adplnzA => Sys2Proof.Machine.execAdplnzA s

end Sys2Proof.Machine
end

