-- ==== Sys2Proof/Machine/Step.lean ====
section
/-! DEFINITION. One step: one command, one response (10_state.md R39, 60_exceptions.md R304). -/

namespace Sys2Proof.Machine

/-- The state with the next command on its input ports: the four ports are sampled together, once per command
(10_state.md R34). -/
def State.sampled (s : State) (c : Command) (rest : List Command) : State :=
  { s with ports := c, pending := rest }

/-- The step: sample the command the host presents, decode it, and run it. A word that is not legal completes with
ILLEGAL_COMMAND and reads no operand (60_exceptions.md R302). With no command presented there is no step
(10_state.md R39; log 2). -/
def step (s : State) : Host.Outcome State Fault Refusal :=
  match s.pending with
  | [] => .refused .noCommand
  | c :: rest =>
    match decode c.cmd with
    | .ok i => exec i (s.sampled c rest)
    | .error _ => raise (s.sampled c rest) .illegalCommand

/-- The state in which the host presents the command word `w` next, with the operands that stand on the ports. -/
def State.withFetchWord (s : State) (nbits w : Nat) : State :=
  { s with pending := { s.ports with cmd := BitVec.ofNat 32 (w % 2 ^ nbits) } :: s.pending }

end Sys2Proof.Machine
end

