-- ==== Sys2Proof/Machine/HostSide.lean ====
section
/-! DEFINITION. What the host does around the block, as far as the spec says it: the pseudo-instructions
(30_encoding.md R102) and the multi-word shift chains (43_reverse_shift.md R250). These are host-side sequences, not
command words; the block runs only the commands they are made of. -/

namespace Sys2Proof.Machine

/-- The pseudo-instructions (30_encoding.md R102). BSWAP exists at fixed widths only. -/
inductive Pseudo where
  | clz (w : Width)
  | ctz (w : Width)
  | bswap32
  | bswap64
  | lsbidx (w : Width)
  | msbidx (w : Width)
  | roundup (w : Width)
  deriving DecidableEq, Repr

/-- The commands a pseudo-instruction expands to (30_encoding.md R102). -/
def Pseudo.expand : Pseudo → List Instr
  | .clz .w32 => [.lzc32]
  | .clz .w64 => [.lzc64]
  | .clz .arb => [.lzcA]
  | .ctz .w32 => [.tzc32]
  | .ctz .w64 => [.tzc64]
  | .ctz .arb => [.tzcA]
  | .bswap32 => [.revbytes32]
  | .bswap64 => [.revbytes64]
  | .lsbidx .w32 => [.lsb132, .bidxl32]
  | .lsbidx .w64 => [.lsb164, .bidxl64]
  | .lsbidx .arb => [.lsb1A, .bidxlA]
  | .msbidx .w32 => [.msb132, .bidxm32]
  | .msbidx .w64 => [.msb164, .bidxm64]
  | .msbidx .arb => [.msb1A, .bidxmA]
  | .roundup .w32 => [.roundup32 false]
  | .roundup .w64 => [.roundup64 false]
  | .roundup .arb => [.roundupA false]

/-- "The host moves that slot to the operand port of the next command" (30_encoding.md R102): the pattern part to
`OPA`, the bytes to `AB`/`ALEN`. -/
def Command.withSlot (c : Command) (p : SlotPort) : Command :=
  { c with opa := p.rv, ab := p.rb, alen := p.rl }

/-- The state after the host has moved R0 of the response to the operand ports (30_encoding.md R102), whatever the STATUS
(log 19). With no response nothing is moved. -/
def State.r0Moved (s : State) : State :=
  match s.response with
  | some r => { s with ports := s.ports.withSlot r.r0 }
  | none => s

/-- Run commands in turn, each on the R0 of the one before (30_encoding.md R102). DESIGN CHOICE (log 19): the sequence goes
on whatever the STATUS of a response is. After an error the empty R0 is moved (`OPA` = 0, `ALEN` = 0) and the next command
runs on it. R102 does not say what the host does then, and a host that keeps 70_reset_and_hazards.md R345 checks STATUS
first. -/
def runMoved : List Instr → State → Outcome
  | [], s => .next s
  | [i], s => exec i s
  | i :: j :: rest, s =>
    match exec i s with
    | .next t => runMoved (j :: rest) t.r0Moved
    | .fault f => .fault f
    | .refused r => .refused r

/-- The slots R0 and R1, as numbers, of a command issued on the pattern `a` (43_reverse_shift.md R250). DESIGN CHOICE
(log 19): (0, 0) where the command answers an error, whose slots are empty, or no response; R250 has no chain there. -/
def shiftParts (i : Instr) (s : State) (a : Nat) : Nat × Nat :=
  match exec i { s with ports := { s.ports with opa := BitVec.ofNat 64 a } } with
  | .next t =>
    match t.response with
    | some r => (r.r0.rv.toNat, r.r1.rv.toNat)
    | none => (0, 0)
  | _ => (0, 0)

/-- `w'[j] = R0(w[j]) | R1(w[j-1])` with the carry into the lowest word, and the carry out of the highest
(43_reverse_shift.md R250, left). -/
def chainLeft (parts : Nat → Nat × Nat) (carry : Nat) : List Nat → List Nat × Nat
  | [] => ([], carry)
  | w :: ws =>
    let rest := chainLeft parts (parts w).2 ws
    (((parts w).1 ||| carry) :: rest.1, rest.2)

/-- `w'[j] = R0(w[j]) | R1(w[j+1])`, and the carry out of the lowest word (43_reverse_shift.md R250, right). -/
def chainRight (parts : Nat → Nat × Nat) : List Nat → List Nat × Nat
  | [] => ([], 0)
  | w :: ws =>
    let rest := chainRight parts ws
    (((parts w).1 ||| rest.2) :: rest.1, (parts w).2)

/-- A little-endian array of W-bit words read as one number (43_reverse_shift.md R250). -/
def arrayValue (w : Nat) : List Nat → Nat
  | [] => 0
  | x :: xs => x + 2 ^ w * arrayValue w xs

end Sys2Proof.Machine
end

