-- ==== Sys2Proof/Machine/Realise.lean ====
section
/-! DEFINITION. The realisations that the spec writes out and calls not architectural: the shift sequence of `fold_W`
(41_fold_pow2.md, preamble), the masked swaps of REVBITS (43_reverse_shift.md R242), and the adapter's combinations
(44_adapter.md R283). No meaning uses them (R45, R283; log 13); statements say that they give the architectural result. -/

namespace Sys2Proof.Machine

/-- One step of the fold: OR with the value shifted right (41_fold_pow2.md, preamble). -/
def smear {w : Nat} (x : BitVec w) (n : Nat) : BitVec w := x ||| (x >>> n)

/-- The shift sequence of `fold_32`, applied one after the other: 1, 2, 4, 8, 16 (41_fold_pow2.md, preamble). -/
def foldSteps32 (a : Word32) : Word32 := [1, 2, 4, 8, 16].foldl smear a

/-- The shift sequence of `fold_64`: 1, 2, 4, 8, 16, 32 (41_fold_pow2.md, preamble). -/
def foldSteps64 (a : Word64) : Word64 := [1, 2, 4, 8, 16, 32].foldl smear a

/-- One masked swap of groups of n bits (43_reverse_shift.md R242). -/
def swapGroups {w : Nat} (x mask : BitVec w) (n : Nat) : BitVec w := ((x >>> n) &&& mask) ||| ((x &&& mask) <<< n)

/-- The swaps of REVBITS at W = 32, with each mask cut to its low 32 bits (43_reverse_shift.md R242). -/
def reverseSteps32 (a : Word32) : Word32 :=
  swapGroups (swapGroups (swapGroups (swapGroups (swapGroups a
    0x55555555 1) 0x33333333 2) 0x0F0F0F0F 4) 0x00FF00FF 8) 0x0000FFFF 16

/-- The swaps of REVBITS at W = 64 (43_reverse_shift.md R242). -/
def reverseSteps64 (a : Word64) : Word64 :=
  let x := swapGroups (swapGroups (swapGroups (swapGroups (swapGroups a
    0x5555555555555555 1) 0x3333333333333333 2) 0x0F0F0F0F0F0F0F0F 4) 0x00FF00FF00FF00FF 8) 0x0000FFFF0000FFFF 16
  (x >>> (32 : Nat)) ||| (x <<< (32 : Nat))

/-- The sum of the popcounts of the 32-bit words of a sequence, the last word padded with zero bytes
(40_count.md R131). -/
def popcountWords : List Byte → Nat
  | [] => 0
  | [b0] => popcount (natOfBytes [b0])
  | [b0, b1] => popcount (natOfBytes [b0, b1])
  | [b0, b1, b2] => popcount (natOfBytes [b0, b1, b2])
  | b0 :: b1 :: b2 :: b3 :: bs => popcount (natOfBytes [b0, b1, b2, b3]) + popcountWords bs

/-- `LOG2_TABLE[bs[i]] + 8*i` with i the highest non-zero byte (40_count.md R135). -/
def log2Adapter (rom : Rom) (bs : List Byte) : Option Nat :=
  (hnzIndex bs).map fun i => accByte i (rom.log2 (bs.getD i 0)).toNat

/-- The BIDXL lookup on a 32-bit chunk: `DB_LSB_TABLE[h(x)]` (42_isolate_index.md R214). -/
def lookupLsb (rom : Rom) (x : Word32) : Nat := (rom.dbLsb (rom.hashLsb x)).toNat

/-- The BIDXM lookup on a 32-bit chunk, which is folded first: `DB_MSB_TABLE[g(fold_32(x))]`
(42_isolate_index.md R215). -/
def lookupMsb (rom : Rom) (x : Word32) : Nat := (rom.dbMsb (rom.hashMsb (foldW x))).toNat

/-- The split of a 64-bit pattern into halves: the high half adds 32 (42_isolate_index.md R214, R215). -/
def lookup64 (lookup : Word32 → Nat) (a : Word64) : Nat :=
  if a.extractLsb' 32 32 ≠ 0 then accWord 1 (lookup (a.extractLsb' 32 32)) else lookup (a.extractLsb' 0 32)

/-- The byte form at ARB: the lookup on the lowest non-zero byte, plus 8 times its index; 0 for the index when there is
none (42_isolate_index.md R214, R215; 92_eei_decisions.md D18). -/
def lookupArb (lookup : Word32 → Nat) (bs : List Byte) : Nat :=
  let i := (lnzIndex bs).getD 0
  accByte i (lookup ((bs.getD i 0).setWidth 32))

end Sys2Proof.Machine
end

