-- ==== Sys2Proof/Safety.lean ====
section
/-! DEFINITION. What counts as a safe run, and the terms the statements use: the invariant of the machine, what it is
for a command to complete or to fail with a status, and the notions of the spec in terms of bits and powers of two. -/

namespace Sys2Proof.Machine

/-- The ports can carry the command: `ALEN` is at most N_ARB_MAX (10_state.md R34). Other commands are no inputs of the
block (60_exceptions.md R305). -/
def Command.carried (c : Command) (nArbMax : Nat) : Prop := c.alen ≤ nArbMax

/-- A slot's ports are empty: `RVi` is 0, no valid byte (10_state.md R36). -/
def SlotPort.isEmpty (p : SlotPort) : Prop := p.rv = 0 ∧ p.rb = []

/-- A slot's ports carry something R36 allows: at most N_ARB_MAX+1 valid bytes, and either no bytes or a minimal
sequence beside `RVi` = 0 (10_state.md R36, 20_memory.md R64). -/
def SlotPort.fits (nArbMax : Nat) (p : SlotPort) : Prop :=
  p.rl ≤ nArbMax + 1 ∧ (p.rb = [] ∨ (p.rv = 0 ∧ p.rb = bytes (sval p.rb)))

/-- A response the block can give: its slots fit the ports, and an error has three empty slots (60_exceptions.md
R303). -/
def Response.wellFormed (nArbMax : Nat) (r : Response) : Prop :=
  r.r0.fits nArbMax ∧ r.r1.fits nArbMax ∧ r.r2.fits nArbMax ∧
    (r.status ≠ .ok → r.r0.isEmpty ∧ r.r1.isEmpty ∧ r.r2.isEmpty)

/-- The invariant: the parameter is positive (00_scope.md R6), and the response, if there is one, is well formed. -/
def State.Inv (s : State) : Prop :=
  0 < s.nArbMax ∧ ∀ r, s.response = some r → r.wellFormed s.nArbMax

/-- The command completes: the next state is the present one but for the response, which is OK with these slots. -/
def Completes (o : Outcome) (s : State) (s0 : Slot) (s1 : Slot := .empty) (s2 : Slot := .empty) : Prop :=
  o = .next (s.answered (Response.make .ok s0 s1 s2))

/-- The command fails with a status: the next state is the present one but for the response, whose slots are empty. -/
def FailsWith (o : Outcome) (s : State) (st : Status) : Prop :=
  o = .next (s.answered (Response.make st .empty .empty .empty))

/-- The response an outcome leaves on the ports. -/
def answerOf : Outcome → Option Response
  | .next t => t.response
  | _ => none

/-- The operand of an ARB command is the integer v: the port can carry its length, and the bytes are `bytes(v)`
(10_state.md R37, 20_memory.md R61). -/
def State.arbOperand (s : State) (v : Int) : Prop :=
  s.ports.alen ≤ s.nArbMax ∧ s.ports.operandBytes = bytes v

/-- m is the least number with n < 2^m: `bl(n)` (00_scope.md R13). -/
def IsBitLength (n m : Nat) : Prop := n < 2 ^ m ∧ ∀ j, n < 2 ^ j → m ≤ j

/-- k is the position of the lowest set bit of a pattern. -/
def IsLowestBit {w : Nat} (a : BitVec w) (k : Nat) : Prop := a.getLsbD k = true ∧ ∀ j, j < k → a.getLsbD j = false

/-- k is the position of the highest set bit of a pattern. -/
def IsHighestBit {w : Nat} (a : BitVec w) (k : Nat) : Prop := a.getLsbD k = true ∧ ∀ j, k < j → a.getLsbD j = false

/-- k is the largest with 2^k dividing v: `ctz(v)` for v ≠ 0 (00_scope.md R13). -/
def IsTrailing (v : Int) (k : Nat) : Prop := (2 : Int) ^ k ∣ v ∧ ¬ (2 : Int) ^ (k + 1) ∣ v

/-- The number of 1 digits among the lowest k binary digits of n. -/
def onesAmong (k n : Nat) : Nat := (List.range k).countP fun i => n.testBit i

/-- 2^k is the least power of two at or above x. -/
def IsLeastPowerAtOrAbove (x : Int) (k : Nat) : Prop := x ≤ (2 : Int) ^ k ∧ ∀ j : Nat, x ≤ (2 : Int) ^ j → k ≤ j

/-- 2^k is the least power of two above x. -/
def IsLeastPowerAbove (x : Int) (k : Nat) : Prop := x < (2 : Int) ^ k ∧ ∀ j : Nat, x < (2 : Int) ^ j → k ≤ j

/-- 2^k is the greatest power of two at or below x. -/
def IsGreatestPowerAtOrBelow (x : Int) (k : Nat) : Prop := (2 : Int) ^ k ≤ x ∧ ∀ j : Nat, (2 : Int) ^ j ≤ x → j ≤ k

/-- 2^k is the greatest power of two below x. -/
def IsGreatestPowerBelow (x : Int) (k : Nat) : Prop := (2 : Int) ^ k < x ∧ ∀ j : Nat, (2 : Int) ^ j < x → j ≤ k

/-- v fits n bytes of two's complement (20_memory.md R61). -/
def FitsBytes (v : Int) (n : Nat) : Prop := -(2 : Int) ^ (8 * n - 1) ≤ v ∧ v < (2 : Int) ^ (8 * n - 1)

/-- The illegal command words (30_encoding.md R97), in the fields' numbers. -/
def IllegalWord (w : Word32) : Prop :=
  0x16 ≤ w.toNat % 64 ∨
  w.toNat / 64 % 4 = 3 ∨
  (w.toNat % 64 ∈ [0x10, 0x11, 0x12] ∧ w.toNat / 64 % 4 = 2) ∨
  (w.toNat % 64 ∈ [0x13, 0x14, 0x15] ∧ w.toNat / 64 % 4 ∈ [0, 1]) ∨
  (w.toNat / 256 % 2 = 1 ∧ w.toNat % 64 ∉ [0x08, 0x09]) ∨
  (w.toNat / 65536 % 256 ≠ 0 ∧ w.toNat % 64 ∉ [0x11, 0x12]) ∨
  w.toNat / 512 % 128 ≠ 0 ∨ w.toNat / 16777216 ≠ 0

/-- The operand sequence has a redundant top byte: the condition of 20_memory.md R63. -/
def RedundantTop (bs : List Byte) : Prop :=
  2 ≤ bs.length ∧
    ((bs.getD (bs.length - 1) 0 = 0x00 ∧ (bs.getD (bs.length - 2) 0).toNat < 0x80) ∨
     (bs.getD (bs.length - 1) 0 = 0xFF ∧ 0x80 ≤ (bs.getD (bs.length - 2) 0).toNat))

/-- The domain an instruction's own check leaves out, with the operand of the state (60_exceptions.md R301, causes 2 to
8). -/
def OutsideDomain (i : Instr) (s : State) : Prop :=
  match i with
  | .popcntA | .lzcA | .foldrA | .foldlA | .msb1A | .log2A => sval s.ports.operandBytes < 0
  | .log232 => (opa32 s).toInt < 0
  | .log264 => (opa64 s).toInt < 0
  | .roundup32 _ | .rounddn32 _ | .roundnr32 => (opa32 s).toInt ≤ 0
  | .roundup64 _ | .rounddn64 _ | .roundnr64 => (opa64 s).toInt ≤ 0
  | .roundupA _ | .rounddnA _ | .roundnrA => sval s.ports.operandBytes ≤ 0
  | .shlc32 c | .shrc32 c => c < 0 ∨ 32 < c
  | .shlc64 c | .shrc64 c => c < 0 ∨ 64 < c
  | .popcnt32 | .popcnt64 | .bitlen32 | .bitlen64 | .bitlenA | .lzc32 | .lzc64 | .tzc32 | .tzc64 | .tzcA => False
  | .foldr32 | .foldr64 | .foldl32 | .foldl64 | .ispow232 | .ispow264 | .ispow2A => False
  | .lsb132 | .lsb164 | .lsb1A | .msb132 | .msb164 => False
  | .bidxl32 | .bidxl64 | .bidxlA | .bidxm32 | .bidxm64 | .bidxmA => False
  | .revbits32 | .revbits64 | .revbitsA | .revbytes32 | .revbytes64 => False
  | .adplenA | .adphnzA | .adplnzA => False

/-- The commands that can draw an UNSPECIFIED value (42_isolate_index.md R213). -/
def MayDraw (i : Instr) : Prop := i ∈ [Instr.bidxl32, .bidxl64, .bidxlA, .bidxm32, .bidxm64, .bidxmA]

end Sys2Proof.Machine
end

