-- ==== Sys2Proof/Certificates/Slice0/Obligations.lean ====
section
/-! DEFINITION. The statements about the machine, for the provers. Each docstring names the rule of spec/ it rests on.
The commands the host presents are the field `pending`, the model's form of an input (log 1).
`Completes o s a b c` says that the next state is `s` but for an OK response with slots `a`, `b`, `c`, and `FailsWith o s st`
that it is `s` but for a response with status `st` and empty slots: both are completion, result and frame in one. -/

open Sys2Proof Sys2Proof.Machine

/-- The command words of an instruction rule: these decode to their commands, and these are illegal (30_encoding.md R96,
R97). -/
def WordsOf (legal : List (Word32 × Instr)) (illegal : List Word32) : Prop :=
  (∀ p, p ∈ legal → decode p.1 = .ok p.2) ∧ ∀ w, w ∈ illegal → ∃ e, decode w = .error e

/-- The command words of a shift: the base word with any count of -128 .. 127 in CNT (30_encoding.md R94, R96). -/
def ShiftWordsOf (base : Nat) (i : Int → Instr) : Prop :=
  ∀ c : Int, -128 ≤ c → c ≤ 127 → decode (BitVec.ofNat 32 (base + 65536 * (c % 256).toNat)) = .ok (i c)

/-! ### ROMs and reset -/

/-- 10_state.md R41: `LOG2_TABLE` has 256 entries, entry b is the position of the highest set bit of b, and entry 0 is
0. -/
def Obligations.Log2TableHoldsHighestBit : Prop :=
  ∀ s : State, s.rom.val.log2Table.length = 256 ∧ s.rom.val.log2 0 = 0 ∧
    ∀ b : Byte, b ≠ 0 → IsBitLength b.toNat ((s.rom.val.log2 b).toNat + 1)

/-- 10_state.md R42: `REV8_TABLE` has 256 entries, and entry b is b with bit i moved to bit 7-i. -/
def Obligations.Rev8TableReversesBytes : Prop :=
  ∀ s : State, s.rom.val.rev8Table.length = 256 ∧
    ∀ (b : Byte) (i : Nat), i < 8 → (s.rom.val.rev8 b).getLsbD i = b.getLsbD (7 - i)

/-- 10_state.md R43: the LSB De Bruijn constant, its table, and the defining property on isolated bits. -/
def Obligations.LsbTableGivesIndexOfIsolatedBit : Prop :=
  ∀ s : State, s.rom.val.dbLsbConst = 0x077CB531 ∧
    s.rom.val.dbLsbTable = [0, 1, 28, 2, 29, 14, 24, 3, 30, 22, 20, 15, 25, 17, 4, 8] ++
      [31, 27, 13, 23, 21, 19, 16, 7, 26, 12, 18, 6, 11, 5, 10, 9] ∧
    (∀ x : Word32, (s.rom.val.hashLsb x).toNat = x.toNat * 0x077CB531 % 2 ^ 32 / 2 ^ 27) ∧
    ∀ k : Nat, k < 32 → (s.rom.val.dbLsb (s.rom.val.hashLsb (BitVec.ofNat 32 (2 ^ k)))).toNat = k

/-- 10_state.md R44: the MSB De Bruijn constant, its table, the defining property on fold results, and that an isolated
bit itself is indexed wrongly (k = 2 gives 10). -/
def Obligations.MsbTableGivesIndexOfFoldResult : Prop :=
  ∀ s : State, s.rom.val.dbMsbConst = 0x07C4ACDD ∧
    s.rom.val.dbMsbTable = [0, 9, 1, 10, 13, 21, 2, 29, 11, 14, 16, 18, 22, 25, 3, 30] ++
      [8, 12, 20, 28, 15, 17, 24, 7, 19, 27, 23, 6, 26, 5, 4, 31] ∧
    (∀ x : Word32, (s.rom.val.hashMsb x).toNat = x.toNat * 0x07C4ACDD % 2 ^ 32 / 2 ^ 27) ∧
    (∀ k : Nat, k < 32 → (s.rom.val.dbMsb (s.rom.val.hashMsb (BitVec.ofNat 32 (2 ^ (k + 1) - 1)))).toNat = k) ∧
    (s.rom.val.dbMsb (s.rom.val.hashMsb (BitVec.ofNat 32 (2 ^ 2)))).toNat = 10

/-- 10_state.md R47, 70_reset_and_hazards.md R340, R343: after reset the ROMs hold their contents and no response exists;
the first command the host presents then, legal and carried by the ports, is run as any other. That no step is taken
before the host presents a command is the model's (log 2). -/
def Obligations.ResetHasRomsAndNoResponse : Prop :=
  State.reset.rom.val = Rom.contents ∧ State.reset.response = none ∧ step State.reset = .refused .noCommand ∧
    ∀ (c : Command) (i : Instr), decode c.cmd = .ok i → c.alen ≤ State.reset.nArbMax →
      ∃ t, step { State.reset with pending := [c] } = .next t ∧ t.response.isSome = true

/-! ### Decoding -/

/-- 30_encoding.md R96: words of the table, written out from OP, WM, P and CNT, decode to their commands. -/
def Obligations.WordsOfTableDecode : Prop :=
  decode 0x00000000 = .ok .popcnt32 ∧ decode 0x00000081 = .ok .bitlenA ∧ decode 0x00000045 = .ok .foldr64 ∧
    decode 0x00000108 = .ok (.roundup32 true) ∧ decode 0x0000008E = .ok .bidxmA ∧
    decode 0x00080051 = .ok (.shlc64 8) ∧ decode 0x00FF0012 = .ok (.shrc32 (-1)) ∧ decode 0x00000095 = .ok .adplnzA

/-- 30_encoding.md R96, R100: decoding the encoded word of any well-formed command gives the command back. -/
def Obligations.DecodeOfEncode : Prop := ∀ i : Instr, i.wf = true → decode (encode i) = .ok i

/-- 30_encoding.md R96, R97: a word that decodes is the encoded word of a well-formed command, so every word has one
meaning and no bit of it is dropped. -/
def Obligations.EncodeOfDecode : Prop :=
  ∀ (w : Word32) (i : Instr), decode w = .ok i → i.wf = true ∧ encode i = w

/-- 30_encoding.md R97: a word is illegal exactly under one of the six conditions; a step on an illegal word completes with
ILLEGAL_COMMAND and empty slots, reads no operand and has no other effect; on any other word it runs a command. -/
def Obligations.IllegalWordsComplete : Prop :=
  ∀ (s : State) (c : Command) (rest : List Command), s.pending = c :: rest →
    (IllegalWord c.cmd → FailsWith (step s) (s.sampled c rest) .illegalCommand) ∧
    (¬ IllegalWord c.cmd → ∃ i : Instr, i.wf = true ∧ encode i = c.cmd ∧ step s = exec i (s.sampled c rest))

/-! ### The step -/

/-- 10_state.md R39, 60_exceptions.md R304: when the command the host presents next decodes to i, the step is i run with
that command on the input ports and taken off the list of commands to come. -/
def Obligations.StepRunsDecoded : Prop :=
  ∀ (s : State) (c : Command) (rest : List Command) (i : Instr), s.pending = c :: rest → decode c.cmd = .ok i →
    step s = exec i (s.sampled c rest)

/-- 60_exceptions.md R309: every command the ports carry completes, and the same command always gets the same status,
whatever else the two states hold. -/
def Obligations.EveryCommandCompletes : Prop :=
  (∀ (s : State) (c : Command) (rest : List Command), s.pending = c :: rest → c.carried s.nArbMax →
    ∃ t r, step s = .next t ∧ t.response = some r) ∧
  (∀ (s s' t t' : State) (r r' : Response) (c : Command) (rest rest' : List Command),
    s.pending = c :: rest → s'.pending = c :: rest' → s.nArbMax = s'.nArbMax →
    step s = .next t → step s' = .next t' → t.response = some r → t'.response = some r' → r.status = r'.status)

/-- 00_scope.md R6, 10_state.md R36, 20_memory.md R64, 60_exceptions.md R303: the invariant holds after reset. That the
reset state has a positive N_ARB_MAX is the model's choice of that value (log 4). -/
def Obligations.ResetMeetsInvariant : Prop := State.reset.Inv

/-- 10_state.md R36, 20_memory.md R64, 60_exceptions.md R303: every step keeps the invariant. In particular every
arbitrary-precision result fits the N_ARB_MAX+1 bytes of its port and is the minimal sequence of its value. -/
def Obligations.StepKeepsInvariant : Prop := ∀ s t : State, s.Inv → step s = .next t → t.Inv

/-- 10_state.md R30, R46, 20_memory.md R68: a command changes nothing but the response, and only BIDXL and BIDXM can advance
the count of draws (the model's own field, log 6). A step also samples the ports. -/
def Obligations.CommandFrame : Prop :=
  (∀ (i : Instr) (s t : State), exec i s = .next t →
    t.rom = s.rom ∧ t.nArbMax = s.nArbMax ∧ t.ports = s.ports ∧ t.pending = s.pending ∧
      (MayDraw i → t.draws = s.draws ∨ t.draws = s.draws + 1) ∧ (¬ MayDraw i → t.draws = s.draws)) ∧
  (∀ s t : State, step s = .next t →
    t.rom = s.rom ∧ t.nArbMax = s.nArbMax ∧ s.pending = t.ports :: t.pending)

/-- 10_state.md R30, R39, 20_memory.md R70: the outcome of a step depends on the command alone: two states that agree on the
parameter, the command presented and the count of draws (the model's own field, log 6) give the same response. -/
def Obligations.ResponseDependsOnCommandAlone : Prop :=
  ∀ (s s' t : State) (c : Command) (rest rest' : List Command),
    s.pending = c :: rest → s'.pending = c :: rest' → s.nArbMax = s'.nArbMax → s.draws = s'.draws →
    step s = .next t → ∃ t', step s' = .next t' ∧ t'.response = t.response ∧ t'.draws = t.draws

/-- 20_memory.md R70: in any run of commands, each gets the response it would get if it were the only command ever issued,
up to the number of the draw, which stands for the freedom of an UNSPECIFIED value (log 6). -/
def Obligations.RunAnswersEachCommandAlone : Prop :=
  ∀ (s t : State) (before : List Command) (c : Command) (after : List Command),
    s.pending = before ++ c :: after → Sys2Proof.core.run (before.length + 1) s = .next t →
    ∃ (d : Nat) (u : State),
      step { State.reset with nArbMax := s.nArbMax, draws := d, pending := [c] } = .next u ∧ t.response = u.response

/-- 60_exceptions.md R309, 10_state.md R39: a run over any commands the ports carry takes every one of them, one step
each, and ends with the response to the last. -/
def Obligations.RunTakesEveryCommand : Prop :=
  ∀ (s : State) (l : List Command) (c : Command), s.pending = l ++ [c] → (∀ x, x ∈ l ++ [c] → x.carried s.nArbMax) →
    ∃ t r, Sys2Proof.core.run (l.length + 1) s = .next t ∧ t.pending = [] ∧ t.ports = c ∧ t.response = some r ∧
      t.rom = s.rom ∧ t.nArbMax = s.nArbMax

/-! ### Status -/

/-- 60_exceptions.md R301, R304: the status of a step is given by the first check that fails, in the order decode, no
operand bytes, sequence not minimal, the instruction's own domain. -/
def Obligations.StatusFollowsPriority : Prop :=
  ∀ (s t : State) (r : Response) (c : Command) (rest : List Command),
    s.pending = c :: rest → step s = .next t → t.response = some r →
    (IllegalWord c.cmd → r.status = .illegalCommand) ∧
    ∀ i : Instr, decode c.cmd = .ok i →
      (i.width = .arb → c.alen = 0 → r.status = .missingInput) ∧
      (i.width = .arb → c.alen ≠ 0 → RedundantTop c.operandBytes → r.status = .invalidArgument) ∧
      ((i.width = .arb → c.alen ≠ 0 ∧ ¬ RedundantTop c.operandBytes) →
        (OutsideDomain i (s.sampled c rest) → r.status = .invalidArgument) ∧
        (¬ OutsideDomain i (s.sampled c rest) → r.status = .ok))

/-- 60_exceptions.md R303: when the status is not OK every slot's ports are empty. -/
def Obligations.ErrorSlotsAreEmpty : Prop :=
  ∀ (s t : State) (r : Response), step s = .next t → t.response = some r → r.status ≠ .ok →
    ∀ p, p ∈ [r.r0, r.r1, r.r2] → p.rv = 0 ∧ p.rl = 0 ∧ ∀ k, p.lane k = 0

/-- 60_exceptions.md R305: an ARB command with no operand bytes gives MISSING_INPUT; a fixed-width command never does; a
longer operand than the port carries is refused as an input. -/
def Obligations.MissingInputAndOverlongOperand : Prop :=
  ∀ (i : Instr) (s : State),
    (i.width = .arb → s.ports.alen = 0 → FailsWith (exec i s) s .missingInput) ∧
    (i.width ≠ .arb → ∃ t r, exec i s = .next t ∧ t.response = some r ∧ r.status ≠ .missingInput) ∧
    (i.width = .arb → s.nArbMax < s.ports.alen → exec i s = .refused .operandTooLong)

/-- 10_state.md R37: which ports a command reads. A W32 command reads `OPA[31:0]` only, a W64 command `OPA` only, and an ARB
command the lanes `AB[0..ALEN-1]` and `ALEN` only. For BIDXL and BIDXM off their precondition the equal responses are the
model's choice: both executions draw the UNSPECIFIED index at the same count of draws (the model's own field, log 6), where
20_memory.md R68 lets two draws differ. -/
def Obligations.CommandReadsItsOperandOnly : Prop :=
  ∀ (i : Instr) (s : State) (p : Command),
    (i.width = .w32 → (∀ k, k < 32 → p.opa.getLsbD k = s.ports.opa.getLsbD k) →
      answerOf (exec i { s with ports := p }) = answerOf (exec i s)) ∧
    (i.width = .w64 → p.opa = s.ports.opa → answerOf (exec i { s with ports := p }) = answerOf (exec i s)) ∧
    (i.width = .arb → p.alen = s.ports.alen → (∀ k, k < p.alen → p.ab.getD k 0 = s.ports.ab.getD k 0) →
      p.alen ≤ s.nArbMax →
      (answerOf (exec i s)).isSome = true ∧ answerOf (exec i { s with ports := p }) = answerOf (exec i s))

/-! ### Arbitrary-precision sequences -/

/-- 20_memory.md R61: `bytes(v)` has the least length n ≥ 1 that holds v, and byte i is `(v mod 2^(8n)) >> 8i mod 256`. -/
def Obligations.BytesAreTheMinimalSequence : Prop :=
  ∀ v : Int, 1 ≤ (bytes v).length ∧ FitsBytes v (bytes v).length ∧
    (∀ n, 1 ≤ n → FitsBytes v n → (bytes v).length ≤ n) ∧
    ∀ i, i < (bytes v).length →
      (((bytes v).getD i 0).toNat : Int) = v % (2 : Int) ^ (8 * (bytes v).length) / (2 : Int) ^ (8 * i) % 256

/-- 20_memory.md R62: the signed reading of a sequence, and, which the spec marks as derived, that it reads `bytes(v)` as v. -/
def Obligations.SignedReadingOfBytes : Prop :=
  (∀ bs : List Byte, bs ≠ [] →
    sval bs = ((List.range bs.length).map fun i => ((bs.getD i 0).toNat : Int) * (2 : Int) ^ (8 * i)).sum -
      (if 0x80 ≤ (bs.getD (bs.length - 1) 0).toNat then (2 : Int) ^ (8 * bs.length) else 0)) ∧
  ∀ v : Int, sval (bytes v) = v

/-- 20_memory.md R63: the operand checks of ARB mode, in their order; what passes them is `bytes(v)` for v = sval. -/
def Obligations.ArbOperandValidity : Prop :=
  ∀ (i : Instr) (s : State), i.width = .arb → s.ports.alen ≤ s.nArbMax →
    (s.ports.alen = 0 → FailsWith (exec i s) s .missingInput) ∧
    (RedundantTop s.ports.operandBytes → FailsWith (exec i s) s .invalidArgument) ∧
    (s.ports.alen ≠ 0 → ¬ RedundantTop s.ports.operandBytes → s.arbOperand (sval s.ports.operandBytes))

/-! ### The counting family -/

/-- 40_count.md R130: POPCNT. -/
def Obligations.PopcntCountsSetBits : Prop :=
  WordsOf [(0x00000000, .popcnt32), (0x00000040, .popcnt64), (0x00000080, .popcntA)] [] ∧
  (∀ s : State, Completes (exec .popcnt32 s) s (.cnt (onesAmong 32 s.ports.opa.toNat))) ∧
  (∀ s : State, Completes (exec .popcnt64 s) s (.cnt (onesAmong 64 s.ports.opa.toNat))) ∧
  ∀ (s : State) (v : Int), s.arbOperand v →
    (v < 0 → FailsWith (exec .popcntA s) s .invalidArgument) ∧
    (0 ≤ v → Completes (exec .popcntA s) s (.cnt (onesAmong (8 * s.ports.alen) v.toNat)))

/-- BITLEN at a fixed width, for one command and its operand (40_count.md R132). -/
def BitlenFixed {w : Nat} (i : Instr) (s : State) (a : BitVec w) : Prop :=
  (a.toInt = 0 → Completes (exec i s) s (.cnt 0)) ∧
  (∀ m : Nat, 0 < a.toInt → IsBitLength a.toInt.toNat m → Completes (exec i s) s (.cnt m)) ∧
  (a.toInt < 0 → Completes (exec i s) s (.cnt w))

/-- 40_count.md R132: BITLEN. -/
def Obligations.BitlenGivesBitLength : Prop :=
  WordsOf [(0x00000001, .bitlen32), (0x00000041, .bitlen64), (0x00000081, .bitlenA)] [] ∧
  (∀ s : State, BitlenFixed .bitlen32 s (opa32 s)) ∧ (∀ s : State, BitlenFixed .bitlen64 s (opa64 s)) ∧
  ∀ (s : State) (v : Int), s.arbOperand v →
    (v = 0 → Completes (exec .bitlenA s) s (.cnt 0)) ∧
    (∀ m : Nat, 0 < v → IsBitLength v.toNat m → Completes (exec .bitlenA s) s (.cnt m)) ∧
    (v < 0 → Completes (exec .bitlenA s) s (.cnt (-1)))

/-- LOG2 of an exact operand, for one command (40_count.md R134). -/
def Log2Of (i : Instr) (s : State) (x : Int) : Prop :=
  (x < 0 → FailsWith (exec i s) s .invalidArgument) ∧
  (x = 0 → Completes (exec i s) s (.cnt 0)) ∧
  ∀ k : Nat, (2 : Int) ^ k ≤ x → x < (2 : Int) ^ (k + 1) → Completes (exec i s) s (.cnt k)

/-- 40_count.md R134: LOG2. -/
def Obligations.Log2GivesHighestBit : Prop :=
  WordsOf [(0x00000002, .log232), (0x00000042, .log264), (0x00000082, .log2A)] [] ∧
  (∀ s : State, Log2Of .log232 s (opa32 s).toInt) ∧ (∀ s : State, Log2Of .log264 s (opa64 s).toInt) ∧
  ∀ (s : State) (v : Int), s.arbOperand v → Log2Of .log2A s v

/-- 40_count.md R136: LZC. At ARB the result is the distance from the bit length to the next power-of-two bit length. -/
def Obligations.LzcCountsLeadingZeros : Prop :=
  WordsOf [(0x00000003, .lzc32), (0x00000043, .lzc64), (0x00000083, .lzcA)] [] ∧
  (∀ (s : State) (m : Nat), IsBitLength (opa32 s).toNat m → Completes (exec .lzc32 s) s (.cnt (32 - m))) ∧
  (∀ (s : State) (m : Nat), IsBitLength (opa64 s).toNat m → Completes (exec .lzc64 s) s (.cnt (64 - m))) ∧
  ∀ (s : State) (v : Int), s.arbOperand v →
    (v < 0 → FailsWith (exec .lzcA s) s .invalidArgument) ∧
    ∀ b m : Nat, 0 ≤ v → IsBitLength v.toNat b → IsBitLength b m →
      Completes (exec .lzcA s) s (.cnt ((2 : Int) ^ m - b))

/-- 40_count.md R138: TZC. -/
def Obligations.TzcCountsTrailingZeros : Prop :=
  WordsOf [(0x00000004, .tzc32), (0x00000044, .tzc64), (0x00000084, .tzcA)] [] ∧
  (∀ s : State, (opa32 s = 0 → Completes (exec .tzc32 s) s (.cnt 32)) ∧
    ∀ k : Nat, IsLowestBit (opa32 s) k → Completes (exec .tzc32 s) s (.cnt k)) ∧
  (∀ s : State, (opa64 s = 0 → Completes (exec .tzc64 s) s (.cnt 64)) ∧
    ∀ k : Nat, IsLowestBit (opa64 s) k → Completes (exec .tzc64 s) s (.cnt k)) ∧
  ∀ (s : State) (v : Int), s.arbOperand v →
    (v = 0 → Completes (exec .tzcA s) s (.cnt (-1))) ∧
    ∀ k : Nat, IsTrailing v k → Completes (exec .tzcA s) s (.cnt k)

/-! ### The fold and power-of-two family -/

/-- 41_fold_pow2.md R170: FOLDR sets every bit at or below the highest set bit. -/
def Obligations.FoldrSmearsHighestBitDown : Prop :=
  WordsOf [(0x00000005, .foldr32), (0x00000045, .foldr64), (0x00000085, .foldrA)] [] ∧
  (∀ (s : State) (f : Word32),
    (∀ i, i < 32 → (f.getLsbD i = true ↔ ∃ j, i ≤ j ∧ (opa32 s).getLsbD j = true)) →
      Completes (exec .foldr32 s) s (.pattern f)) ∧
  (∀ (s : State) (f : Word64),
    (∀ i, i < 64 → (f.getLsbD i = true ↔ ∃ j, i ≤ j ∧ (opa64 s).getLsbD j = true)) →
      Completes (exec .foldr64 s) s (.pattern f)) ∧
  ∀ (s : State) (v : Int), s.arbOperand v →
    (v < 0 → FailsWith (exec .foldrA s) s .invalidArgument) ∧
    ∀ m : Nat, 0 ≤ v → IsBitLength v.toNat m → Completes (exec .foldrA s) s (.arb ((2 : Int) ^ m - 1))

/-- 41_fold_pow2.md R172: FOLDL sets every bit from the lowest set bit up to the highest, inclusive. -/
def Obligations.FoldlFillsBetweenSetBits : Prop :=
  WordsOf [(0x00000006, .foldl32), (0x00000046, .foldl64), (0x00000086, .foldlA)] [] ∧
  (∀ (s : State) (f : Word32),
    (∀ i, i < 32 → (f.getLsbD i = true ↔
      (∃ j, i ≤ j ∧ (opa32 s).getLsbD j = true) ∧ ∃ j, j ≤ i ∧ (opa32 s).getLsbD j = true)) →
        Completes (exec .foldl32 s) s (.pattern f)) ∧
  (∀ (s : State) (f : Word64),
    (∀ i, i < 64 → (f.getLsbD i = true ↔
      (∃ j, i ≤ j ∧ (opa64 s).getLsbD j = true) ∧ ∃ j, j ≤ i ∧ (opa64 s).getLsbD j = true)) →
        Completes (exec .foldl64 s) s (.pattern f)) ∧
  ∀ (s : State) (v : Int), s.arbOperand v →
    (v < 0 → FailsWith (exec .foldlA s) s .invalidArgument) ∧
    (v = 0 → Completes (exec .foldlA s) s (.arb 0)) ∧
    ∀ m k : Nat, 0 < v → IsBitLength v.toNat m → IsTrailing v k →
      Completes (exec .foldlA s) s (.arb ((2 : Int) ^ m - (2 : Int) ^ k))

/-- ISPOW2 of an exact operand, for one command (41_fold_pow2.md R174). -/
def IsPow2Of (i : Instr) (s : State) (x : Int) : Prop :=
  ((∃ k : Nat, x = (2 : Int) ^ k) → Completes (exec i s) s (.cnt 1)) ∧
  ((¬ ∃ k : Nat, x = (2 : Int) ^ k) → Completes (exec i s) s (.cnt 0))

/-- 41_fold_pow2.md R174: ISPOW2 tests for a positive power of two, on the signed reading at fixed width. -/
def Obligations.Ispow2TestsPowerOfTwo : Prop :=
  WordsOf [(0x00000007, .ispow232), (0x00000047, .ispow264), (0x00000087, .ispow2A)] [] ∧
  (∀ s : State, IsPow2Of .ispow232 s (opa32 s).toInt) ∧ (∀ s : State, IsPow2Of .ispow264 s (opa64 s).toInt) ∧
  ∀ (s : State) (v : Int), s.arbOperand v → IsPow2Of .ispow2A s v

/-- ROUNDUP of an exact operand, for one command; `slot` puts the result on its slot (41_fold_pow2.md R176). -/
def RoundUpOf (i : Bool → Instr) (s : State) (x : Int) (slot : Int → Slot) : Prop :=
  (∀ p, x ≤ 0 → FailsWith (exec (i p) s) s .invalidArgument) ∧
  (∀ k : Nat, 0 < x → IsLeastPowerAtOrAbove x k → Completes (exec (i false) s) s (slot ((2 : Int) ^ k))) ∧
  ∀ k : Nat, 0 < x → IsLeastPowerAbove x k → Completes (exec (i true) s) s (slot ((2 : Int) ^ k))

/-- The slot of an exact result at a fixed width: its W-bit pattern (41_fold_pow2.md R173). -/
def patternOf (w : Nat) (r : Int) : Slot := .pattern (BitVec.ofInt w r)

/-- 41_fold_pow2.md R173, R176: ROUNDUP gives the least power of two at or above the operand, or above it when strict. -/
def Obligations.RoundupGivesPowerAbove : Prop :=
  WordsOf [(0x00000008, .roundup32 false), (0x00000048, .roundup64 false), (0x00000088, .roundupA false),
    (0x00000108, .roundup32 true), (0x00000148, .roundup64 true), (0x00000188, .roundupA true)] [] ∧
  (∀ s : State, RoundUpOf .roundup32 s (opa32 s).toInt (patternOf 32)) ∧
  (∀ s : State, RoundUpOf .roundup64 s (opa64 s).toInt (patternOf 64)) ∧
  ∀ (s : State) (v : Int), s.arbOperand v → RoundUpOf .roundupA s v .arb

/-- ROUNDDN of an exact operand, for one command (41_fold_pow2.md R178). -/
def RoundDownOf (i : Bool → Instr) (s : State) (x : Int) (slot : Int → Slot) : Prop :=
  (∀ p, x ≤ 0 → FailsWith (exec (i p) s) s .invalidArgument) ∧
  (∀ k : Nat, IsGreatestPowerAtOrBelow x k → Completes (exec (i false) s) s (slot ((2 : Int) ^ k))) ∧
  (∀ k : Nat, IsGreatestPowerBelow x k → Completes (exec (i true) s) s (slot ((2 : Int) ^ k))) ∧
  (x = 1 → Completes (exec (i true) s) s (slot 0))

/-- 41_fold_pow2.md R173, R178: ROUNDDN gives the greatest power of two at or below the operand, or below it when strict,
and 0 for the strict power below 1. -/
def Obligations.RounddnGivesPowerBelow : Prop :=
  WordsOf [(0x00000009, .rounddn32 false), (0x00000049, .rounddn64 false), (0x00000089, .rounddnA false),
    (0x00000109, .rounddn32 true), (0x00000149, .rounddn64 true), (0x00000189, .rounddnA true)] [] ∧
  (∀ s : State, RoundDownOf .rounddn32 s (opa32 s).toInt (patternOf 32)) ∧
  (∀ s : State, RoundDownOf .rounddn64 s (opa64 s).toInt (patternOf 64)) ∧
  ∀ (s : State) (v : Int), s.arbOperand v → RoundDownOf .rounddnA s v .arb

/-- ROUNDNR of an exact operand, for one command: with g = 2^k the least power at or above x and l = g / 2, the result is l
when g - x > x - l and g otherwise (41_fold_pow2.md R180). -/
def RoundNearestOf (i : Instr) (s : State) (x : Int) (slot : Int → Slot) : Prop :=
  (x ≤ 0 → FailsWith (exec i s) s .invalidArgument) ∧
  ∀ k : Nat, 0 < x → IsLeastPowerAtOrAbove x k →
    ((2 : Int) ^ k - x > x - (2 : Int) ^ k / 2 →
      Completes (exec i s) s (slot ((2 : Int) ^ k / 2)) (slot ((2 : Int) ^ k)) (slot ((2 : Int) ^ k / 2))) ∧
    ((2 : Int) ^ k - x ≤ x - (2 : Int) ^ k / 2 →
      Completes (exec i s) s (slot ((2 : Int) ^ k)) (slot ((2 : Int) ^ k)) (slot ((2 : Int) ^ k / 2)))

/-- 41_fold_pow2.md R173, R180: ROUNDNR gives nearest, greaterThan and lessThan; ties go to greaterThan. -/
def Obligations.RoundnrTiesGoUp : Prop :=
  WordsOf [(0x0000000A, .roundnr32), (0x0000004A, .roundnr64), (0x0000008A, .roundnrA)] [0x0000010A, 0x0000014A, 0x0000018A] ∧
  (∀ s : State, RoundNearestOf .roundnr32 s (opa32 s).toInt (patternOf 32)) ∧
  (∀ s : State, RoundNearestOf .roundnr64 s (opa64 s).toInt (patternOf 64)) ∧
  ∀ (s : State) (v : Int), s.arbOperand v → RoundNearestOf .roundnrA s v .arb

/-! ### The isolation and index family -/

/-- 42_isolate_index.md R210: LSB1 keeps only the lowest set bit. -/
def Obligations.Lsb1KeepsLowestBit : Prop :=
  WordsOf [(0x0000000B, .lsb132), (0x0000004B, .lsb164), (0x0000008B, .lsb1A)] [] ∧
  (∀ s : State, (opa32 s = 0 → Completes (exec .lsb132 s) s (.pattern (0 : Word32))) ∧
    ∀ k : Nat, IsLowestBit (opa32 s) k → Completes (exec .lsb132 s) s (.pattern (BitVec.ofNat 32 (2 ^ k)))) ∧
  (∀ s : State, (opa64 s = 0 → Completes (exec .lsb164 s) s (.pattern (0 : Word64))) ∧
    ∀ k : Nat, IsLowestBit (opa64 s) k → Completes (exec .lsb164 s) s (.pattern (BitVec.ofNat 64 (2 ^ k)))) ∧
  ∀ (s : State) (v : Int), s.arbOperand v →
    (v = 0 → Completes (exec .lsb1A s) s (.arb 0)) ∧
    ∀ k : Nat, IsTrailing v k → Completes (exec .lsb1A s) s (.arb ((2 : Int) ^ k))

/-- 42_isolate_index.md R212: MSB1 keeps only the highest set bit. -/
def Obligations.Msb1KeepsHighestBit : Prop :=
  WordsOf [(0x0000000C, .msb132), (0x0000004C, .msb164), (0x0000008C, .msb1A)] [] ∧
  (∀ s : State, (opa32 s = 0 → Completes (exec .msb132 s) s (.pattern (0 : Word32))) ∧
    ∀ k : Nat, IsHighestBit (opa32 s) k → Completes (exec .msb132 s) s (.pattern (BitVec.ofNat 32 (2 ^ k)))) ∧
  (∀ s : State, (opa64 s = 0 → Completes (exec .msb164 s) s (.pattern (0 : Word64))) ∧
    ∀ k : Nat, IsHighestBit (opa64 s) k → Completes (exec .msb164 s) s (.pattern (BitVec.ofNat 64 (2 ^ k)))) ∧
  ∀ (s : State) (v : Int), s.arbOperand v →
    (v < 0 → FailsWith (exec .msb1A s) s .invalidArgument) ∧
    (v = 0 → Completes (exec .msb1A s) s (.arb 0)) ∧
    ∀ k : Nat, (2 : Int) ^ k ≤ v → v < (2 : Int) ^ (k + 1) → Completes (exec .msb1A s) s (.arb ((2 : Int) ^ k))

/-- BIDXL or BIDXM at a fixed width: the index of an isolated bit; otherwise OK with some index in 0 .. W-1, for every value
of the free value (42_isolate_index.md R213 to R215). The count of draws `d`, a field of the model's own, is left open
(log 6). -/
def IndexFixed {w : Nat} (i : Instr) (s : State) (a : BitVec w) : Prop :=
  (∀ k : Nat, k < w → a = BitVec.ofNat w (2 ^ k) → Completes (exec i s) s (.cnt k)) ∧
  ((∀ k : Nat, k < w → a ≠ BitVec.ofNat w (2 ^ k)) →
    ∃ k d : Nat, k ≤ w - 1 ∧ exec i s = .next ({ s with draws := d }.answered
      (Response.make .ok (.cnt k) .empty .empty)))

/-- BIDXL or BIDXM at ARB: the index of an isolated bit; otherwise OK with some index in 0 .. 8*N_ARB_MAX + 23
(42_isolate_index.md R213 to R215). -/
def IndexArb (i : Instr) (s : State) (v : Int) : Prop :=
  (∀ k : Nat, v = (2 : Int) ^ k → Completes (exec i s) s (.cnt k)) ∧
  ((∀ k : Nat, v ≠ (2 : Int) ^ k) →
    ∃ k d : Nat, k ≤ 8 * s.nArbMax + 23 ∧ exec i s = .next ({ s with draws := d }.answered
      (Response.make .ok (.cnt k) .empty .empty)))

/-- 42_isolate_index.md R214, with the precondition of R213: BIDXL. -/
def Obligations.BidxlGivesIndexOfIsolatedBit : Prop :=
  WordsOf [(0x0000000D, .bidxl32), (0x0000004D, .bidxl64), (0x0000008D, .bidxlA)] [] ∧
  (∀ s : State, IndexFixed .bidxl32 s (opa32 s)) ∧ (∀ s : State, IndexFixed .bidxl64 s (opa64 s)) ∧
  ∀ (s : State) (v : Int), s.arbOperand v → IndexArb .bidxlA s v

/-- 42_isolate_index.md R215, with the precondition of R213: BIDXM. -/
def Obligations.BidxmGivesIndexOfIsolatedBit : Prop :=
  WordsOf [(0x0000000E, .bidxm32), (0x0000004E, .bidxm64), (0x0000008E, .bidxmA)] [] ∧
  (∀ s : State, IndexFixed .bidxm32 s (opa32 s)) ∧ (∀ s : State, IndexFixed .bidxm64 s (opa64 s)) ∧
  ∀ (s : State) (v : Int), s.arbOperand v → IndexArb .bidxmA s v

/-! ### The reversal and shift family -/

/-- 43_reverse_shift.md R240: bit i of the result is bit W-1-i of the operand. -/
def Obligations.RevbitsReversesBits : Prop :=
  WordsOf [(0x0000000F, .revbits32), (0x0000004F, .revbits64)] [] ∧
  (∀ (s : State) (f : Word32), (∀ i, i < 32 → f.getLsbD i = (opa32 s).getLsbD (31 - i)) →
    Completes (exec .revbits32 s) s (.pattern f)) ∧
  (∀ (s : State) (f : Word64), (∀ i, i < 64 → f.getLsbD i = (opa64 s).getLsbD (63 - i)) →
    Completes (exec .revbits64 s) s (.pattern f))

/-- 43_reverse_shift.md R245: with bs the minimal sequence of v and n its length, byte j of rb is `REV8_TABLE[bs[n-1-j]]`,
and the result is the signed reading of rb. -/
def Obligations.RevbitsArbReversesMinimalSequence : Prop :=
  WordsOf [(0x0000008F, .revbitsA)] [] ∧
  ∀ (s : State) (v : Int), s.arbOperand v → ∀ rb : List Byte, rb.length = (bytes v).length →
    (∀ j, j < (bytes v).length → rb.getD j 0 = s.rom.val.rev8 ((bytes v).getD ((bytes v).length - 1 - j) 0)) →
      Completes (exec .revbitsA s) s (.arb (sval rb))

/-- 43_reverse_shift.md R246: byte k of the result is byte W/8-1-k of the operand. -/
def Obligations.RevbytesReversesBytes : Prop :=
  WordsOf [(0x00000010, .revbytes32), (0x00000050, .revbytes64)] [0x00000090] ∧
  (∀ (s : State) (f : Word32),
    (∀ k, k < 4 → f.extractLsb' (8 * k) 8 = (opa32 s).extractLsb' (8 * (3 - k)) 8) →
      Completes (exec .revbytes32 s) s (.pattern f)) ∧
  (∀ (s : State) (f : Word64),
    (∀ k, k < 8 → f.extractLsb' (8 * k) 8 = (opa64 s).extractLsb' (8 * (7 - k)) 8) →
      Completes (exec .revbytes64 s) s (.pattern f))

/-- SHLC for one command and its operand: the exact product and quotient, or INVALID_ARGUMENT (43_reverse_shift.md
R247). -/
def ShiftLeftOf (w : Nat) (i : Int → Instr) (s : State) (a : BitVec w) : Prop :=
  (∀ c : Nat, c ≤ w → Completes (exec (i c) s) s (.pattern (BitVec.ofNat w (a.toNat * 2 ^ c)))
    (.pattern (BitVec.ofNat w (a.toNat / 2 ^ (w - c))))) ∧
  ∀ c : Int, c < 0 ∨ (w : Int) < c → FailsWith (exec (i c) s) s .invalidArgument

/-- 43_reverse_shift.md R247: SHLC. -/
def Obligations.ShlcShiftsWithCarryLow : Prop :=
  ShiftWordsOf 0x11 .shlc32 ∧ ShiftWordsOf 0x51 .shlc64 ∧ WordsOf [] [0x00000091] ∧
  (∀ s : State, ShiftLeftOf 32 .shlc32 s (opa32 s)) ∧ (∀ s : State, ShiftLeftOf 64 .shlc64 s (opa64 s))

/-- SHRC for one command and its operand: the exact quotient, and the carry in the high c bits (43_reverse_shift.md
R248). -/
def ShiftRightOf (w : Nat) (i : Int → Instr) (s : State) (a : BitVec w) : Prop :=
  (∀ c : Nat, c ≤ w → Completes (exec (i c) s) s (.pattern (BitVec.ofNat w (a.toNat / 2 ^ c)))
    (.pattern (BitVec.ofNat w (a.toNat * 2 ^ (w - c))))) ∧
  ∀ c : Int, c < 0 ∨ (w : Int) < c → FailsWith (exec (i c) s) s .invalidArgument

/-- 43_reverse_shift.md R248: SHRC. -/
def Obligations.ShrcShiftsWithCarryHigh : Prop :=
  ShiftWordsOf 0x12 .shrc32 ∧ ShiftWordsOf 0x52 .shrc64 ∧ WordsOf [] [0x00000092] ∧
  (∀ s : State, ShiftRightOf 32 .shrc32 s (opa32 s)) ∧ (∀ s : State, ShiftRightOf 64 .shrc64 s (opa64 s))

/-! ### The adapter family -/

/-- 44_adapter.md R284: ADPLEN gives the least number of bytes that hold the operand. -/
def Obligations.AdplenGivesMinimalLength : Prop :=
  WordsOf [(0x00000093, .adplenA)] [0x00000013, 0x00000053] ∧
  ∀ (s : State) (v : Int), s.arbOperand v → ∀ n : Nat, 1 ≤ n → FitsBytes v n →
    (∀ m, 1 ≤ m → FitsBytes v m → n ≤ m) → Completes (exec .adplenA s) s (.cnt n)

/-- 44_adapter.md R285: ADPHNZ gives the index and value of the highest non-zero byte, and (-1, 0) for 0. -/
def Obligations.AdphnzFindsHighestByte : Prop :=
  WordsOf [(0x00000094, .adphnzA)] [0x00000014, 0x00000054] ∧
  ∀ (s : State) (v : Int), s.arbOperand v →
    (v = 0 → Completes (exec .adphnzA s) s (.cnt (-1)) (.cnt 0)) ∧
    ∀ i : Nat, (bytes v).getD i 0 ≠ 0 → (∀ j, i < j → (bytes v).getD j 0 = 0) →
      Completes (exec .adphnzA s) s (.cnt i) (.cnt ((bytes v).getD i 0).toNat)

/-- 44_adapter.md R286: ADPLNZ gives the index and value of the lowest non-zero byte, and (-1, 0) for 0. -/
def Obligations.AdplnzFindsLowestByte : Prop :=
  WordsOf [(0x00000095, .adplnzA)] [0x00000015, 0x00000055] ∧
  ∀ (s : State) (v : Int), s.arbOperand v →
    (v = 0 → Completes (exec .adplnzA s) s (.cnt (-1)) (.cnt 0)) ∧
    ∀ i : Nat, (bytes v).getD i 0 ≠ 0 → (∀ j, j < i → (bytes v).getD j 0 = 0) →
      Completes (exec .adplnzA s) s (.cnt i) (.cnt ((bytes v).getD i 0).toNat)

/-- 44_adapter.md R281, facts the spec marks as derived: what minimality makes of the non-zero-byte locators. -/
def Obligations.LocatorFactsOfMinimalSequences : Prop :=
  ∀ v : Int,
    ((hnzIndex (bytes v) = none ↔ v = 0) ∧ (lnzIndex (bytes v) = none ↔ v = 0)) ∧
    (0 < v → ∃ i, hnzIndex (bytes v) = some i ∧
      8 * i + bitLength ((bytes v).getD i 0).toNat = bitLength v.toNat) ∧
    (v < 0 → hnzIndex (bytes v) = some ((bytes v).length - 1)) ∧
    (v ≠ 0 → ∃ i, lnzIndex (bytes v) = some i ∧ ctz v = 8 * i + ctzW ((bytes v).getD i 0))

/-! ### Realisations and laws -/

/-- 41_fold_pow2.md, preamble, which the spec marks as derived: the shift sequence gives `fold_W`. That each step works on the
result of the one before is the model's reading (log 13). -/
def Obligations.FoldShiftSequenceIsFold : Prop :=
  (∀ a : Word32, foldSteps32 a = foldW a) ∧ (∀ a : Word64, foldSteps64 a = foldW a)

/-- 43_reverse_shift.md R242, which the spec marks as derived: after the masked swaps bit i has moved to W-1-i. -/
def Obligations.MaskedSwapsReverseBits : Prop :=
  (∀ a : Word32, reverseSteps32 a = revW a) ∧ (∀ a : Word64, reverseSteps64 a = revW a)

/-- 40_count.md R131, which the spec marks as derived: the sum of the word popcounts of the padded sequence is the population count of v ≥ 0. -/
def Obligations.WordSumIsPopulationCount : Prop :=
  ∀ (s : State) (v : Int), s.arbOperand v → 0 ≤ v →
    Completes (exec .popcntA s) s (.cnt (popcountWords s.ports.operandBytes))

/-- 40_count.md R135, 44_adapter.md R283, which the spec marks as derived: LOG2 of v > 0 is the table's entry for the highest
non-zero byte plus 8 times its index, and BITLEN is one more. -/
def Obligations.AdapterGivesLog2AndBitlen : Prop :=
  ∀ (s : State) (v : Int), s.arbOperand v → 0 < v →
    ∃ k : Nat, log2Adapter s.rom.val s.ports.operandBytes = some k ∧
      Completes (exec .log2A s) s (.cnt k) ∧ Completes (exec .bitlenA s) s (.cnt (k + 1 : Nat))

/-- 42_isolate_index.md R214, R215, realisations the spec calls not architectural: on isolated bits they give the architectural
index at every width. -/
def Obligations.DeBruijnRealisationsAgreeOnIsolatedBits : Prop :=
  (∀ (s : State) (k : Nat), k < 32 → opa32 s = BitVec.ofNat 32 (2 ^ k) →
    Completes (exec .bidxl32 s) s (.cnt (lookupLsb s.rom.val (opa32 s))) ∧
    Completes (exec .bidxm32 s) s (.cnt (lookupMsb s.rom.val (opa32 s)))) ∧
  (∀ (s : State) (k : Nat), k < 64 → opa64 s = BitVec.ofNat 64 (2 ^ k) →
    Completes (exec .bidxl64 s) s (.cnt (lookup64 (lookupLsb s.rom.val) (opa64 s))) ∧
    Completes (exec .bidxm64 s) s (.cnt (lookup64 (lookupMsb s.rom.val) (opa64 s)))) ∧
  ∀ (s : State) (k : Nat), s.arbOperand ((2 : Int) ^ k) →
    Completes (exec .bidxlA s) s (.cnt (lookupArb (lookupLsb s.rom.val) s.ports.operandBytes)) ∧
    Completes (exec .bidxmA s) s (.cnt (lookupArb (lookupMsb s.rom.val) s.ports.operandBytes))

/-- 42_isolate_index.md R216, which the spec marks as derived, and 30_encoding.md R102: isolating first, LSBIDX gives TZC and
MSBIDX gives the highest set bit, at every width; at ARB the isolated bit must be one the operand port carries. -/
def Obligations.IndexThroughIsolation : Prop :=
  (∀ (s : State) (k : Nat), IsLowestBit (opa32 s) k →
    ∃ t r, runMoved (Pseudo.lsbidx .w32).expand s = .next t ∧ t.response = some r ∧
      r = Response.make .ok (.cnt k) .empty .empty) ∧
  (∀ (s : State) (k : Nat), IsLowestBit (opa64 s) k →
    ∃ t r, runMoved (Pseudo.lsbidx .w64).expand s = .next t ∧ t.response = some r ∧
      r = Response.make .ok (.cnt k) .empty .empty) ∧
  (∀ (s : State) (v : Int) (k : Nat), s.arbOperand v → IsTrailing v k → byteLen ((2 : Int) ^ k) ≤ s.nArbMax →
    ∃ t r, runMoved (Pseudo.lsbidx .arb).expand s = .next t ∧ t.response = some r ∧
      r = Response.make .ok (.cnt k) .empty .empty) ∧
  (∀ (s : State) (k : Nat), IsHighestBit (opa32 s) k →
    ∃ t r, runMoved (Pseudo.msbidx .w32).expand s = .next t ∧ t.response = some r ∧
      r = Response.make .ok (.cnt k) .empty .empty) ∧
  (∀ (s : State) (k : Nat), IsHighestBit (opa64 s) k →
    ∃ t r, runMoved (Pseudo.msbidx .w64).expand s = .next t ∧ t.response = some r ∧
      r = Response.make .ok (.cnt k) .empty .empty) ∧
  (∀ (s : State) (v : Int) (k : Nat), s.arbOperand v → (2 : Int) ^ k ≤ v → v < (2 : Int) ^ (k + 1) →
    ∃ t r, runMoved (Pseudo.msbidx .arb).expand s = .next t ∧ t.response = some r ∧
      r = Response.make .ok (.cnt k) .empty .empty)

/-- 43_reverse_shift.md R241, R246, which the spec marks as derived: at fixed width, reversing twice gives the operand back, for bits and for bytes. -/
def Obligations.ReversalsAreInvolutions : Prop :=
  ∀ s : State,
    (∃ t, runMoved [.revbits32, .revbits32] s = .next t ∧
      t.response = some (Response.make .ok (.pattern (opa32 s)) .empty .empty)) ∧
    (∃ t, runMoved [.revbits64, .revbits64] s = .next t ∧
      t.response = some (Response.make .ok (.pattern (opa64 s)) .empty .empty)) ∧
    (∃ t, runMoved [.revbytes32, .revbytes32] s = .next t ∧
      t.response = some (Response.make .ok (.pattern (opa32 s)) .empty .empty)) ∧
    (∃ t, runMoved [.revbytes64, .revbytes64] s = .next t ∧
      t.response = some (Response.make .ok (.pattern (opa64 s)) .empty .empty))

/-- 43_reverse_shift.md R245 and R249, inferences the spec marks as derived: at ARB the result is the signed reading of the
reversed 8n-bit pattern of v; reversing twice gives 2 from 512, and gives the operand back when the first result keeps the
operand's length. -/
def Obligations.RevbitsArbInvolutiveWhenLengthKept : Prop :=
  (∀ (s : State) (v : Int), s.arbOperand v → ∀ f : BitVec (8 * s.ports.alen),
    (∀ i, i < 8 * s.ports.alen →
      f.getLsbD i = (BitVec.ofInt (8 * s.ports.alen) v).getLsbD (8 * s.ports.alen - 1 - i)) →
    Completes (exec .revbitsA s) s (.arb f.toInt)) ∧
  (∀ s : State, s.arbOperand 512 → ∃ t, runMoved [.revbitsA, .revbitsA] s = .next t ∧
    t.response = some (Response.make .ok (.arb 2) .empty .empty)) ∧
  ∀ (s t : State) (r : Response) (v : Int), s.arbOperand v → exec .revbitsA s = .next t → t.response = some r →
    r.r0.rl = s.ports.alen →
    ∃ u, runMoved [.revbitsA, .revbitsA] s = .next u ∧
      u.response = some (Response.make .ok (.arb v) .empty .empty)

/-- 43_reverse_shift.md R250, left, which the spec marks as derived: the chain of SHLC over a little-endian array of words is the whole array times 2^c, and
the carry out of the highest word is what left the array. -/
def Obligations.ShlcChainShiftsArray : Prop :=
  ∀ (s : State) (c : Nat) (ws : List Nat),
    (c ≤ 32 → (∀ x, x ∈ ws → x < 2 ^ 32) →
      arrayValue 32 (chainLeft (shiftParts (.shlc32 c) s) 0 ws).1 +
          2 ^ (32 * ws.length) * (chainLeft (shiftParts (.shlc32 c) s) 0 ws).2 = arrayValue 32 ws * 2 ^ c) ∧
    (c ≤ 64 → (∀ x, x ∈ ws → x < 2 ^ 64) →
      arrayValue 64 (chainLeft (shiftParts (.shlc64 c) s) 0 ws).1 +
          2 ^ (64 * ws.length) * (chainLeft (shiftParts (.shlc64 c) s) 0 ws).2 = arrayValue 64 ws * 2 ^ c)

/-- 43_reverse_shift.md R250, right, which the spec marks as derived: the chain of SHRC is the whole array divided by 2^c, and the carry out of the lowest
word holds the remainder in its high c bits. -/
def Obligations.ShrcChainShiftsArray : Prop :=
  ∀ (s : State) (c : Nat) (ws : List Nat),
    (c ≤ 32 → (∀ x, x ∈ ws → x < 2 ^ 32) →
      arrayValue 32 (chainRight (shiftParts (.shrc32 c) s) ws).1 = arrayValue 32 ws / 2 ^ c ∧
      (chainRight (shiftParts (.shrc32 c) s) ws).2 = arrayValue 32 ws % 2 ^ c * 2 ^ (32 - c)) ∧
    (c ≤ 64 → (∀ x, x ∈ ws → x < 2 ^ 64) →
      arrayValue 64 (chainRight (shiftParts (.shrc64 c) s) ws).1 = arrayValue 64 ws / 2 ^ c ∧
      (chainRight (shiftParts (.shrc64 c) s) ws).2 = arrayValue 64 ws % 2 ^ c * 2 ^ (64 - c))

/-- 40_count.md R140, 41_fold_pow2.md R175, which the spec marks as derived: for a positive operand, ISPOW2 answers 1 exactly when POPCNT answers 1, and at
ARB, when the operand v > 0 is no power of two, FOLDR answers f with f + 1 a power of two above v. -/
def Obligations.Ispow2AgreesWithPopcnt : Prop :=
  (∀ s : State, 0 < (opa32 s).toInt → ∃ n b : Nat, n ≤ 32 ∧ b ≤ 1 ∧
    Completes (exec .popcnt32 s) s (.cnt n) ∧ Completes (exec .ispow232 s) s (.cnt b) ∧ (b = 1 ↔ n = 1)) ∧
  (∀ s : State, 0 < (opa64 s).toInt → ∃ n b : Nat, n ≤ 64 ∧ b ≤ 1 ∧
    Completes (exec .popcnt64 s) s (.cnt n) ∧ Completes (exec .ispow264 s) s (.cnt b) ∧ (b = 1 ↔ n = 1)) ∧
  ∀ (s : State) (v : Int), s.arbOperand v → 0 < v → ∃ n b : Nat, n ≤ 8 * s.ports.alen ∧ b ≤ 1 ∧
    Completes (exec .popcntA s) s (.cnt n) ∧ Completes (exec .ispow2A s) s (.cnt b) ∧ (b = 1 ↔ n = 1) ∧
    (b = 0 → ∃ k : Nat, v < (2 : Int) ^ k ∧ Completes (exec .foldrA s) s (.arb ((2 : Int) ^ k - 1)))

/-- 42_isolate_index.md R211, which the spec marks as derived: for a nonzero operand, the isolated bit is a bit of the operand and the only one. -/
def Obligations.Lsb1IsOneBitOfOperand : Prop :=
  (∀ s : State, opa32 s ≠ 0 → ∃ b : Word32, Completes (exec .lsb132 s) s (.pattern b) ∧ b &&& opa32 s = b ∧
    ∃ t, runMoved [.lsb132, .popcnt32] s = .next t ∧ t.response = some (Response.make .ok (.cnt 1) .empty .empty)) ∧
  (∀ s : State, opa64 s ≠ 0 → ∃ b : Word64, Completes (exec .lsb164 s) s (.pattern b) ∧ b &&& opa64 s = b ∧
    ∃ t, runMoved [.lsb164, .popcnt64] s = .next t ∧ t.response = some (Response.make .ok (.cnt 1) .empty .empty)) ∧
  ∀ (s : State) (v : Int), s.arbOperand v → v ≠ 0 →
    ∃ b : Int, Completes (exec .lsb1A s) s (.arb b) ∧ intAnd b v = b ∧
      (byteLen b ≤ s.nArbMax → ∃ t, runMoved [.lsb1A, .popcntA] s = .next t ∧
        t.response = some (Response.make .ok (.cnt 1) .empty .empty))
end

