-- ==== Sys2Proof/Laws/Bits.lean ====
section
/-! SUPPORT. What the helper functions of Machine/Bits.lean compute, one lemma a fact: the bit length, the population
count, the zero counts, the integer AND and NOT, the fold, the power-of-two test and the reversal. -/

namespace Sys2Proof.Machine

/-! ### Bit length -/

@[simp] theorem bitLength_zero : bitLength 0 = 0 := rfl

theorem lt_two_pow_bitLength (n : Nat) : n < 2 ^ bitLength n := by
  unfold bitLength
  split
  · simp_all
  · exact Nat.lt_log2_self

theorem bitLength_le_iff {n m : Nat} : bitLength n ≤ m ↔ n < 2 ^ m := by
  constructor
  · intro h
    exact lt_of_lt_of_le (lt_two_pow_bitLength n) (Nat.pow_le_pow_right (by decide) h)
  · intro h
    unfold bitLength
    split
    · omega
    · rename_i hn
      exact Nat.succ_le_of_lt ((Nat.log2_lt hn).2 h)

theorem two_pow_le_of_lt_bitLength {n m : Nat} (h : m < bitLength n) : 2 ^ m ≤ n := by
  by_contra hc
  exact absurd (bitLength_le_iff.2 (Nat.lt_of_not_le hc)) (by omega)

theorem bitLength_pos {n : Nat} (h : n ≠ 0) : 0 < bitLength n := by
  unfold bitLength
  simp [h]

theorem bitLength_eq_of_bounds {n k : Nat} (lo : 2 ^ k ≤ n) (hi : n < 2 ^ (k + 1)) : bitLength n = k + 1 := by
  apply le_antisymm (bitLength_le_iff.2 hi)
  by_contra hc
  exact absurd (bitLength_le_iff.1 (show bitLength n ≤ k by omega)) (by omega)

theorem bitLength_two_pow (k : Nat) : bitLength (2 ^ k) = k + 1 :=
  bitLength_eq_of_bounds le_rfl (Nat.pow_lt_pow_right (by decide) (by omega))

theorem bitLength_two_pow_sub_one (k : Nat) : bitLength (2 ^ k - 1) = k := by
  apply le_antisymm
  · exact bitLength_le_iff.2 (Nat.sub_lt (Nat.two_pow_pos k) (by decide))
  · by_contra hc
    have h := bitLength_le_iff.1 (show bitLength (2 ^ k - 1) ≤ k - 1 by omega)
    obtain ⟨j, rfl⟩ : ∃ j, k = j + 1 := ⟨k - 1, by omega⟩
    have hj := Nat.two_pow_pos j
    simp [Nat.pow_succ] at h
    omega

/-- `bl` is the only least exponent (00_scope.md R13). -/
theorem bitLength_unique {n m : Nat} (h : n < 2 ^ m) (least : ∀ j, n < 2 ^ j → m ≤ j) : bitLength n = m :=
  le_antisymm (bitLength_le_iff.2 h) (least _ (lt_two_pow_bitLength n))

theorem bitLength_half {n : Nat} (h : n ≠ 0) : bitLength n = bitLength (n / 2) + 1 := by
  by_cases h1 : n = 1
  · subst h1; decide
  · have h2 : n / 2 ≠ 0 := by omega
    have lo := two_pow_le_of_lt_bitLength (n := n / 2) (m := bitLength (n / 2) - 1)
      (by have := bitLength_pos h2; omega)
    have hi := lt_two_pow_bitLength (n / 2)
    obtain ⟨j, hj⟩ : ∃ j, bitLength (n / 2) = j + 1 := ⟨bitLength (n / 2) - 1, by have := bitLength_pos h2; omega⟩
    rw [hj] at lo hi ⊢
    simp at lo
    apply bitLength_eq_of_bounds <;> rw [Nat.pow_succ] <;> omega

/-- The bit at `bl(n) - 1` is set and no bit above it is. -/
theorem testBit_bitLength_sub_one {n : Nat} (h : n ≠ 0) : n.testBit (bitLength n - 1) = true := by
  have hp := bitLength_pos h
  have lo := two_pow_le_of_lt_bitLength (n := n) (m := bitLength n - 1) (by omega)
  have hi := lt_two_pow_bitLength n
  have : n / 2 ^ (bitLength n - 1) = 1 := by
    apply Nat.div_eq_of_lt_le
    · omega
    · have : 2 ^ bitLength n = 2 ^ (bitLength n - 1) * 2 := by
        rw [← Nat.pow_succ]; congr 1; omega
      omega
  rw [Nat.testBit_eq_decide_div_mod_eq, this]
  decide

theorem testBit_of_bitLength_le {n i : Nat} (h : bitLength n ≤ i) : n.testBit i = false :=
  Nat.testBit_lt_two_pow (bitLength_le_iff.1 h)

theorem lt_bitLength_of_testBit {n i : Nat} (h : n.testBit i = true) : i < bitLength n := by
  by_contra hc
  simp [testBit_of_bitLength_le (Nat.le_of_not_lt hc)] at h

/-! ### Population count -/

/-- `onesBelow` counts the set bits among the lowest k. -/
theorem onesBelow_eq_countP (k n : Nat) : onesBelow k n = (List.range k).countP fun i => n.testBit i := by
  induction k generalizing n with
  | zero => rfl
  | succ k ih =>
    rw [onesBelow, ih, List.range_succ_eq_map, List.countP_cons, List.countP_map]
    have : (fun i => n.testBit i) ∘ Nat.succ = fun i => (n / 2).testBit i := by
      funext i; simp [Nat.testBit_succ]
    rw [this]
    rcases Nat.mod_two_eq_zero_or_one n with h | h <;> simp [h, Nat.add_comm]

theorem onesBelow_eq_popcount {k n : Nat} (h : n < 2 ^ k) : onesBelow k n = popcount n := by
  induction k generalizing n with
  | zero =>
    have : n = 0 := by simpa using h
    subst this; rfl
  | succ k ih =>
    by_cases hn : n = 0
    · subst hn
      have := ih (n := 0) (Nat.two_pow_pos k)
      simp [onesBelow, this]
    · have hh : n / 2 < 2 ^ k := by rw [Nat.pow_succ] at h; omega
      rw [onesBelow, ih hh, popcount, popcount, bitLength_half hn, onesBelow]

/-- `popcount(n)` is the number of set bits among any k that hold n (00_scope.md R13). -/
theorem popcount_eq_countP {k n : Nat} (h : n < 2 ^ k) :
    popcount n = (List.range k).countP fun i => n.testBit i := by
  rw [← onesBelow_eq_popcount h, onesBelow_eq_countP]

@[simp] theorem popcount_zero : popcount 0 = 0 := rfl

theorem popcount_step (n : Nat) : popcount n = n % 2 + popcount (n / 2) := by
  have h : n < 2 ^ (bitLength n + 1) :=
    bitLength_le_iff.1 (by omega)
  have hh : n / 2 < 2 ^ bitLength n := by rw [Nat.pow_succ] at h; omega
  rw [← onesBelow_eq_popcount h, onesBelow, onesBelow_eq_popcount hh]

theorem popcount_two_pow_sub_one (k : Nat) : popcount (2 ^ k - 1) = k := by
  induction k with
  | zero => rfl
  | succ k ih =>
    have hp := Nat.two_pow_pos k
    rw [popcount_step]
    have h1 : (2 ^ (k + 1) - 1) % 2 = 1 := by rw [Nat.pow_succ]; omega
    have h2 : (2 ^ (k + 1) - 1) / 2 = 2 ^ k - 1 := by rw [Nat.pow_succ]; omega
    rw [h1, h2, ih]; omega

theorem popcount_eq_zero_iff {n : Nat} : popcount n = 0 ↔ n = 0 := by
  induction n using Nat.strongRecOn with
  | _ n ih =>
    rw [popcount_step]
    by_cases h : n = 0
    · subst h; simp
    · have := ih (n / 2) (by omega)
      omega

/-- Exactly one set bit means a power of two (42_isolate_index.md R213). -/
theorem popcount_eq_one_iff {n : Nat} : popcount n = 1 ↔ ∃ k, n = 2 ^ k := by
  induction n using Nat.strongRecOn with
  | _ n ih =>
    by_cases h : n = 0
    · subst h
      constructor
      · intro hc; simp at hc
      · rintro ⟨k, hk⟩; have := Nat.two_pow_pos k; omega
    · rw [popcount_step]
      rcases Nat.mod_two_eq_zero_or_one n with hm | hm
      · rw [hm, Nat.zero_add, ih (n / 2) (by omega)]
        constructor
        · rintro ⟨k, hk⟩; exact ⟨k + 1, by rw [Nat.pow_succ]; omega⟩
        · rintro ⟨k, hk⟩
          cases k with
          | zero => simp at hk; omega
          | succ k => exact ⟨k, by rw [Nat.pow_succ] at hk; omega⟩
      · rw [hm]
        constructor
        · intro hc
          have : n / 2 = 0 := popcount_eq_zero_iff.1 (by omega)
          exact ⟨0, by simp; omega⟩
        · rintro ⟨k, hk⟩
          cases k with
          | zero => simp at hk; subst hk; decide
          | succ k => rw [Nat.pow_succ] at hk; omega

/-! ### Trailing zeros -/

/-- `zerosBelow` finds the lowest set bit among the lowest k. -/
theorem zerosBelow_eq_of_lowest {k n i : Nat} (hi : i < k) (h : n.testBit i = true)
    (low : ∀ j, j < i → n.testBit j = false) : zerosBelow k n = i := by
  induction k generalizing n i with
  | zero => omega
  | succ k ih =>
    rw [zerosBelow]
    cases i with
    | zero =>
      have : n % 2 = 1 := by simpa [Nat.testBit_zero] using h
      simp [this]
    | succ i =>
      have h0 : n % 2 ≠ 1 := by simpa [Nat.testBit_zero] using low 0 (by omega)
      rw [if_neg h0, ih (n := n / 2) (i := i) (by omega) (by simpa [Nat.testBit_succ] using h)]
      intro j hj
      have := low (j + 1) (by omega)
      simpa [Nat.testBit_succ] using this

theorem zerosBelow_zero (k : Nat) : zerosBelow k 0 = k := by
  induction k with
  | zero => rfl
  | succ k ih => simp [zerosBelow, ih]

/-- A nonzero number that k bits hold has a lowest set bit, and `zerosBelow` is its position. -/
theorem zerosBelow_spec {k n : Nat} (hn : n ≠ 0) (hk : n < 2 ^ k) :
    zerosBelow k n < k ∧ n.testBit (zerosBelow k n) = true ∧ ∀ j, j < zerosBelow k n → n.testBit j = false := by
  induction k generalizing n with
  | zero => simp at hk; omega
  | succ k ih =>
    rw [zerosBelow]
    split
    · rename_i h
      exact ⟨by omega, by simpa [Nat.testBit_zero] using h, fun j hj => by omega⟩
    · rename_i h
      have ⟨h1, h2, h3⟩ := ih (n := n / 2) (by omega) (by rw [Nat.pow_succ] at hk; omega)
      refine ⟨by omega, by simpa [Nat.testBit_succ] using h2, ?_⟩
      intro j hj
      cases j with
      | zero => simpa [Nat.testBit_zero] using h
      | succ j => simpa [Nat.testBit_succ] using h3 j (by omega)

/-- The position of the lowest set bit and divisibility by powers of two. -/
theorem lowest_iff_dvd {n k : Nat} :
    (n.testBit k = true ∧ ∀ j, j < k → n.testBit j = false) ↔ (2 ^ k ∣ n ∧ ¬ 2 ^ (k + 1) ∣ n) := by
  induction k generalizing n with
  | zero => simp [Nat.testBit_zero]
  | succ k ih =>
    constructor
    · rintro ⟨h1, h2⟩
      have h0 : n % 2 = 0 := by
        have := h2 0 (by omega)
        simp [Nat.testBit_zero] at this; omega
      have := (ih (n := n / 2)).1 ⟨by simpa [Nat.testBit_succ] using h1, fun j hj => by
        have := h2 (j + 1) (by omega); simpa [Nat.testBit_succ] using this⟩
      obtain ⟨m, rfl⟩ : ∃ m, n = 2 * m := ⟨n / 2, by omega⟩
      simp at this
      rw [Nat.pow_succ', Nat.pow_succ' (n := k + 1)]
      exact ⟨Nat.mul_dvd_mul_left 2 this.1, fun hc => this.2 (Nat.dvd_of_mul_dvd_mul_left (by decide) hc)⟩
    · rintro ⟨h1, h2⟩
      obtain ⟨m, rfl⟩ : ∃ m, n = 2 * m := by
        obtain ⟨c, rfl⟩ := h1
        exact ⟨2 ^ k * c, by rw [Nat.pow_succ']; ring⟩
      rw [Nat.pow_succ'] at h1
      rw [Nat.pow_succ' (n := k + 1)] at h2
      have h1' := Nat.dvd_of_mul_dvd_mul_left (by decide) h1
      have h2' : ¬ 2 ^ (k + 1) ∣ m := fun hc => h2 (Nat.mul_dvd_mul_left 2 hc)
      have := (ih (n := m)).2 ⟨h1', h2'⟩
      refine ⟨by simpa [Nat.testBit_succ] using this.1, ?_⟩
      intro j hj
      cases j with
      | zero => simp [Nat.testBit_zero]
      | succ j => simpa [Nat.testBit_succ] using this.2 j (by omega)

/-- `ctz(v)` is the largest k with 2^k dividing v (00_scope.md R13). -/
theorem ctz_dvd {v : Int} (hv : v ≠ 0) : (2 : Int) ^ ctz v ∣ v ∧ ¬ (2 : Int) ^ (ctz v + 1) ∣ v := by
  have hn : v.natAbs ≠ 0 := by simpa using hv
  have ⟨_, h2, h3⟩ := zerosBelow_spec hn (lt_two_pow_bitLength v.natAbs)
  have := lowest_iff_dvd.1 ⟨h2, h3⟩
  have key : ∀ k : Nat, (2 : Int) ^ k ∣ v ↔ 2 ^ k ∣ v.natAbs := by
    intro k
    rw [← Int.natAbs_dvd_natAbs]
    simp [Int.natAbs_pow]
  exact ⟨(key _).2 this.1, fun hc => this.2 ((key _).1 hc)⟩

theorem ctz_unique {v : Int} {k : Nat} (h1 : (2 : Int) ^ k ∣ v) (h2 : ¬ (2 : Int) ^ (k + 1) ∣ v) : ctz v = k := by
  have hv : v ≠ 0 := by rintro rfl; simp at h2
  have ⟨h3, h4⟩ := ctz_dvd hv
  apply le_antisymm
  · by_contra hc
    exact h2 (dvd_trans (pow_dvd_pow _ (by omega)) h3)
  · by_contra hc
    exact h4 (dvd_trans (pow_dvd_pow _ (by omega)) h1)

@[simp] theorem ctzW_zero {w : Nat} : ctzW (0 : BitVec w) = w := by simp [ctzW, zerosBelow_zero]

/-- `ctz_W(a)` of a nonzero pattern is the position of its lowest set bit (00_scope.md R13). -/
theorem ctzW_spec {w : Nat} {a : BitVec w} (h : a ≠ 0) :
    ctzW a < w ∧ a.getLsbD (ctzW a) = true ∧ ∀ j, j < ctzW a → a.getLsbD j = false := by
  have hn : a.toNat ≠ 0 := fun hc => h (BitVec.eq_of_toNat_eq (by simpa using hc))
  exact zerosBelow_spec hn a.isLt

theorem ctzW_eq_of_lowest {w k : Nat} {a : BitVec w} (h : a.getLsbD k = true)
    (low : ∀ j, j < k → a.getLsbD j = false) : ctzW a = k :=
  zerosBelow_eq_of_lowest (BitVec.lt_of_getLsbD h) h low

/-! ### Integers as infinite two's-complement strings -/

/-- Bit i of an integer (00_scope.md R11). -/
theorem intNot_testBit (v : Int) (i : Nat) : (intNot v).testBit i = !v.testBit i := by
  have : intNot v = Int.lnot v := by cases v <;> simp only [intNot, Int.lnot, Int.ofNat_eq_natCast] <;> omega
  rw [this, Int.testBit_lnot]

/-- Numbers with no set bit in common add without a carry. -/
theorem add_eq_or_of_and_eq_zero {a b : Nat} (h : a &&& b = 0) : a + b = a ||| b := by
  induction a using Nat.strongRecOn generalizing b with
  | _ a ih =>
    by_cases ha : a = 0
    · subst ha; simp
    · have hd : a / 2 &&& b / 2 = 0 := by rw [← Nat.and_div_two, h]
      have hi := ih (a / 2) (by omega) hd
      have h2 : (a ||| b) / 2 = a / 2 ||| b / 2 := Nat.or_div_two
      have h3 : (a ||| b) % 2 = 1 ↔ a % 2 = 1 ∨ b % 2 = 1 := Nat.or_mod_two_eq_one
      have h4 : (a &&& b) % 2 = 1 ↔ a % 2 = 1 ∧ b % 2 = 1 := Nat.and_mod_two_eq_one
      rw [h] at h4
      omega

theorem sub_and_eq_ldiff (a b : Nat) : a - (a &&& b) = Nat.ldiff a b := by
  have h : (a &&& b) + Nat.ldiff a b = a := by
    have hd : (a &&& b) &&& Nat.ldiff a b = 0 := by
      apply Nat.eq_of_testBit_eq
      intro i
      simp [Nat.testBit_ldiff]
      cases a.testBit i <;> cases b.testBit i <;> simp
    rw [add_eq_or_of_and_eq_zero hd]
    apply Nat.eq_of_testBit_eq
    intro i
    simp [Nat.testBit_ldiff]
    cases a.testBit i <;> cases b.testBit i <;> simp
  omega

/-- The AND of two integers is Mathlib's (00_scope.md R11, 93_implementation_defined.md G4). -/
theorem intAnd_eq_land (x y : Int) : intAnd x y = Int.land x y := by
  cases x <;> cases y
  · rfl
  · simp only [intAnd, Int.land, sub_and_eq_ldiff]
    rfl
  · simp only [intAnd, Int.land]
    rw [Nat.and_comm, sub_and_eq_ldiff]
    rfl
  · rfl

/-- AND acts bit by bit on infinite two's-complement strings (00_scope.md R11). -/
theorem intAnd_testBit (x y : Int) (i : Nat) : (intAnd x y).testBit i = (x.testBit i && y.testBit i) := by
  rw [intAnd_eq_land, Int.testBit_land]

/-! ### Fold -/

theorem fold_testBit (x i : Nat) : (fold x).testBit i = decide (i < bitLength x) := by
  simp [fold, Nat.testBit_two_pow_sub_one]

theorem fold_succ (x : Nat) : fold x + 1 = 2 ^ bitLength x := by
  have := Nat.two_pow_pos (bitLength x)
  unfold fold
  omega

/-- FOLDR is idempotent where it is defined (41_fold_pow2.md R171). -/
theorem fold_fold (x : Nat) : fold (fold x) = fold x := by
  rw [fold, fold, bitLength_two_pow_sub_one]

theorem fold_lt_two_pow {w : Nat} (a : BitVec w) : fold a.toNat < 2 ^ w := by
  have h : bitLength a.toNat ≤ w := bitLength_le_iff.2 a.isLt
  have := Nat.pow_le_pow_right (show 2 > 0 by decide) h
  have hp := Nat.two_pow_pos (bitLength a.toNat)
  unfold fold
  omega

theorem foldW_toNat {w : Nat} (a : BitVec w) : (foldW a).toNat = fold a.toNat := by
  simp [foldW, Nat.mod_eq_of_lt (fold_lt_two_pow a)]

theorem foldW_getLsbD {w : Nat} (a : BitVec w) (i : Nat) :
    (foldW a).getLsbD i = decide (i < bitLength a.toNat) := by
  rw [BitVec.getLsbD, foldW_toNat, fold_testBit]

/-! ### Powers of two -/

/-- For n > 0, n & (n - 1) = 0 exactly on the powers of two (41_fold_pow2.md R174). -/
theorem and_pred_eq_zero_iff {n : Nat} (hn : 0 < n) : n &&& (n - 1) = 0 ↔ ∃ k, n = 2 ^ k := by
  constructor
  · intro h
    refine ⟨bitLength n - 1, ?_⟩
    have hp := bitLength_pos (show n ≠ 0 by omega)
    have lo := two_pow_le_of_lt_bitLength (n := n) (m := bitLength n - 1) (by omega)
    by_contra hne
    have hlt : 2 ^ (bitLength n - 1) ≤ n - 1 := by omega
    have hhi := lt_two_pow_bitLength n
    have hb1 := testBit_bitLength_sub_one (show n ≠ 0 by omega)
    have hbl : bitLength (n - 1) = bitLength n := by
      have := bitLength_eq_of_bounds (n := n - 1) (k := bitLength n - 1) hlt
        (by rw [show bitLength n - 1 + 1 = bitLength n by omega]; omega)
      omega
    have hp1 : 0 < 2 ^ (bitLength n - 1) := Nat.two_pow_pos _
    have hb2 := testBit_bitLength_sub_one (show n - 1 ≠ 0 by omega)
    rw [hbl] at hb2
    have := Nat.testBit_and n (n - 1) (bitLength n - 1)
    simp [h, hb1, hb2] at this
  · rintro ⟨k, rfl⟩
    apply Nat.eq_of_testBit_eq
    intro i
    simp only [Nat.testBit_and, Nat.testBit_two_pow_sub_one, Nat.zero_testBit, Nat.testBit_two_pow]
    by_cases h : k = i <;> simp [h]

theorem isPow2_iff {x : Int} : isPow2 x = true ↔ ∃ k : Nat, x = (2 : Int) ^ k := by
  constructor
  · intro h
    simp only [isPow2, Bool.and_eq_true, decide_eq_true_eq, beq_iff_eq] at h
    obtain ⟨hx, ha⟩ := h
    obtain ⟨n, rfl⟩ := Int.eq_ofNat_of_zero_le (le_of_lt hx)
    have hn : 0 < n := by exact_mod_cast hx
    have e : ((n : Int) - 1) = ((n - 1 : Nat) : Int) := by omega
    rw [e] at ha
    have ha' : n &&& (n - 1) = 0 := by
      have : intAnd (n : Int) ((n - 1 : Nat) : Int) = ((n &&& (n - 1) : Nat) : Int) := rfl
      rw [this] at ha
      exact_mod_cast ha
    obtain ⟨k, hk⟩ := (and_pred_eq_zero_iff hn).1 ha'
    exact ⟨k, by rw [hk]; simp⟩
  · rintro ⟨k, rfl⟩
    have hp := Nat.two_pow_pos k
    have e1 : (2 : Int) ^ k = ((2 ^ k : Nat) : Int) := by simp
    have e2 : ((2 ^ k : Nat) : Int) - 1 = ((2 ^ k - 1 : Nat) : Int) := by omega
    have : intAnd ((2 ^ k : Nat) : Int) ((2 ^ k - 1 : Nat) : Int) = ((2 ^ k &&& (2 ^ k - 1) : Nat) : Int) := rfl
    simp only [isPow2, e1, e2, this, (and_pred_eq_zero_iff hp).2 ⟨k, rfl⟩, Bool.and_eq_true, decide_eq_true_eq, beq_iff_eq]
    exact ⟨by exact_mod_cast hp, rfl⟩

theorem isolatedW_iff {w : Nat} {a : BitVec w} : isolatedW a = true ↔ ∃ k, k < w ∧ a.toNat = 2 ^ k := by
  simp only [isolatedW, beq_iff_eq, popcount_eq_one_iff]
  constructor
  · rintro ⟨k, hk⟩
    refine ⟨k, ?_, hk⟩
    have := a.isLt
    rw [hk] at this
    exact (Nat.pow_lt_pow_iff_right (by decide)).1 this
  · rintro ⟨k, _, hk⟩; exact ⟨k, hk⟩

theorem isolatedInt_iff {v : Int} : isolatedInt v = true ↔ ∃ k : Nat, v = (2 : Int) ^ k := by
  simp only [isolatedInt, Bool.and_eq_true, decide_eq_true_eq, beq_iff_eq, popcount_eq_one_iff]
  constructor
  · rintro ⟨h, k, hk⟩
    exact ⟨k, by have := Int.toNat_of_nonneg (le_of_lt h); rw [hk] at this; simpa using this.symm⟩
  · rintro ⟨k, rfl⟩
    refine ⟨by positivity, k, ?_⟩
    have : (2 : Int) ^ k = ((2 ^ k : Nat) : Int) := by simp
    rw [this, Int.toNat_natCast]

/-! ### Reversal -/

theorem revW_getLsbD {w i : Nat} (a : BitVec w) (h : i < w) : (revW a).getLsbD i = a.getLsbD (w - 1 - i) := by
  rw [revW, BitVec.getLsbD_reverse, BitVec.getMsbD]
  simp [h]

theorem revW_revW {w : Nat} (a : BitVec w) : revW (revW a) = a := by
  apply BitVec.eq_of_getLsbD_eq
  intro i hi
  rw [revW_getLsbD _ hi, revW_getLsbD _ (by omega)]
  congr 1
  omega

end Sys2Proof.Machine
end

