-- ==== Sys2Proof/Laws/Bytes.lean ====
section
/-! SUPPORT. What the byte sequences of Machine/Bytes.lean are: a sequence and the number it holds, the minimal sequence
of an integer, the minimality check, the non-zero-byte locators, byte reversal. -/

namespace Sys2Proof.Machine

/-! ### A sequence and the number it holds -/

@[simp] theorem bytesLE_length (n x : Nat) : (bytesLE n x).length = n := by simp [bytesLE]

theorem two_pow_eight_mul_succ (n : Nat) : 2 ^ (8 * (n + 1)) = 256 * 2 ^ (8 * n) := by
  rw [show 8 * (n + 1) = 8 * n + 8 by ring, Nat.pow_add]
  ring

theorem natOfBytes_lt (bs : List Byte) : natOfBytes bs < 2 ^ (8 * bs.length) := by
  induction bs with
  | nil => simp [natOfBytes]
  | cons b bs ih =>
    have hb := b.isLt
    rw [natOfBytes, List.length_cons, two_pow_eight_mul_succ]
    omega

theorem bytesLE_succ (n x : Nat) : bytesLE (n + 1) x = BitVec.ofNat 8 x :: bytesLE n (x / 256) := by
  simp only [bytesLE, List.range_succ_eq_map, List.map_cons, List.map_map, Nat.mul_zero, Nat.shiftRight_zero]
  congr 1
  apply List.map_congr_left
  intro i _
  simp only [Function.comp, Nat.shiftRight_eq_div_pow, Nat.succ_eq_add_one, two_pow_eight_mul_succ, Nat.div_div_eq_div_mul]

/-- Reading back the lowest n bytes of x gives x mod 2^(8n). -/
theorem natOfBytes_bytesLE (n x : Nat) : natOfBytes (bytesLE n x) = x % 2 ^ (8 * n) := by
  induction n generalizing x with
  | zero => simp [bytesLE, natOfBytes, Nat.mod_one]
  | succ n ih =>
    rw [bytesLE_succ, natOfBytes, ih, two_pow_eight_mul_succ, Nat.mod_mul]
    simp

/-- The bytes of the number a sequence holds are the sequence. -/
theorem bytesLE_natOfBytes (bs : List Byte) : bytesLE bs.length (natOfBytes bs) = bs := by
  induction bs with
  | nil => rfl
  | cons b bs ih =>
    rw [List.length_cons, bytesLE_succ, natOfBytes]
    have hb := b.isLt
    have h1 : BitVec.ofNat 8 (b.toNat + 256 * natOfBytes bs) = b := by
      apply BitVec.eq_of_toNat_eq
      simp
      exact hb
    have h2 : (b.toNat + 256 * natOfBytes bs) / 256 = natOfBytes bs := by omega
    rw [h1, h2, ih]

/-- Byte i of a sequence, as a digit of the number it holds (20_memory.md R60). -/
theorem getD_toNat (bs : List Byte) (i : Nat) : (bs.getD i 0).toNat = natOfBytes bs / 2 ^ (8 * i) % 256 := by
  induction bs generalizing i with
  | nil => simp [natOfBytes]
  | cons b bs ih =>
    have hb := b.isLt
    cases i with
    | zero => simp [natOfBytes]; omega
    | succ i =>
      rw [List.getD_cons_succ, ih, natOfBytes, two_pow_eight_mul_succ, ← Nat.div_div_eq_div_mul]
      congr 2
      omega

/-- Bit i of the number a sequence holds is bit i mod 8 of byte i / 8. -/
theorem natOfBytes_testBit (bs : List Byte) (i : Nat) :
    (natOfBytes bs).testBit i = (bs.getD (i / 8) 0).getLsbD (i % 8) := by
  have h := getD_toNat bs (i / 8)
  rw [BitVec.getLsbD, h, show (256 : Nat) = 2 ^ 8 by rfl, Nat.testBit_mod_two_pow, Nat.testBit_div_two_pow]
  have : i % 8 < 8 := Nat.mod_lt _ (by decide)
  simp only [this, decide_true, Bool.true_and]
  congr 1
  omega

/-! ### The minimal sequence of an integer -/

theorem magnitude_lt_iff (v : Int) (k : Nat) : magnitude v < 2 ^ k ↔ -(2 : Int) ^ k ≤ v ∧ v < (2 : Int) ^ k := by
  have e : (2 : Int) ^ k = ((2 ^ k : Nat) : Int) := by simp
  have hp := Nat.two_pow_pos k
  rw [e]
  cases v <;> simp only [magnitude, Int.ofNat_eq_natCast] <;> omega

/-- The least number of bytes that hold v (20_memory.md R61). -/
theorem byteLen_le_iff {v : Int} {n : Nat} (hn : 1 ≤ n) :
    byteLen v ≤ n ↔ -(2 : Int) ^ (8 * n - 1) ≤ v ∧ v < (2 : Int) ^ (8 * n - 1) := by
  rw [← magnitude_lt_iff, ← bitLength_le_iff, byteLen]
  omega

theorem one_le_byteLen (v : Int) : 1 ≤ byteLen v := by simp [byteLen]

theorem byteLen_fits (v : Int) :
    -(2 : Int) ^ (8 * byteLen v - 1) ≤ v ∧ v < (2 : Int) ^ (8 * byteLen v - 1) :=
  (byteLen_le_iff (one_le_byteLen v)).1 le_rfl

@[simp] theorem bytes_length (v : Int) : (bytes v).length = byteLen v := by simp [bytes]

theorem bytes_ne_nil (v : Int) : bytes v ≠ [] := by
  intro h
  have := congrArg List.length h
  have h1 := one_le_byteLen v
  simp at this
  omega

theorem two_pow_split {n : Nat} (hn : 1 ≤ n) : (2 : Nat) ^ (8 * n) = 2 * 2 ^ (8 * n - 1) := by
  rw [← Nat.pow_succ']
  congr 1
  omega

theorem natOfBytes_bytes (v : Int) : (natOfBytes (bytes v) : Int) = v % (2 : Int) ^ (8 * byteLen v) := by
  have hpos : (0 : Int) < (2 : Int) ^ (8 * byteLen v) := by positivity
  have h0 := Int.emod_nonneg v (ne_of_gt hpos)
  have h1 := Int.emod_lt_of_pos v hpos
  rw [bytes, natOfBytes_bytesLE, Nat.mod_eq_of_lt, Int.toNat_of_nonneg h0]
  zify
  rw [Int.toNat_of_nonneg h0]
  exact h1

/-- The sign bit of a sequence is the top bit of the number it holds (44_adapter.md R280). -/
theorem topNegative_iff {bs : List Byte} (h : bs ≠ []) :
    topNegative bs = true ↔ 2 ^ (8 * bs.length - 1) ≤ natOfBytes bs := by
  have hl : 1 ≤ bs.length := List.length_pos_iff.2 h
  obtain ⟨m, hm⟩ : ∃ m, bs.length = m + 1 := ⟨bs.length - 1, by omega⟩
  have hlt := natOfBytes_lt bs
  rw [topNegative, decide_eq_true_eq, getD_toNat, hm]
  rw [hm, two_pow_eight_mul_succ] at hlt
  have e : 8 * (m + 1) - 1 = 8 * m + 7 := by omega
  rw [e, Nat.pow_add, Nat.add_sub_cancel]
  have hp := Nat.two_pow_pos (8 * m)
  have hq : natOfBytes bs / 2 ^ (8 * m) < 256 := by
    rw [Nat.div_lt_iff_lt_mul hp]; exact hlt
  rw [Nat.mod_eq_of_lt hq, show (0x80 : Nat) = 2 ^ 7 by rfl, Nat.le_div_iff_mul_le hp, Nat.mul_comm]

/-- The signed reading lies in the range of its bytes (20_memory.md R61, R62). -/
theorem sval_fits {bs : List Byte} (h : bs ≠ []) :
    -(2 : Int) ^ (8 * bs.length - 1) ≤ sval bs ∧ sval bs < (2 : Int) ^ (8 * bs.length - 1) := by
  have hl : 1 ≤ bs.length := List.length_pos_iff.2 h
  have hlt := natOfBytes_lt bs
  have hs := two_pow_split hl
  have ht := topNegative_iff h
  have e1 : (2 : Int) ^ (8 * bs.length) = ((2 ^ (8 * bs.length) : Nat) : Int) := by simp
  have e2 : (2 : Int) ^ (8 * bs.length - 1) = ((2 ^ (8 * bs.length - 1) : Nat) : Int) := by simp
  rw [sval, e1, e2]
  split
  · rename_i hc; have := ht.1 hc; omega
  · rename_i hc
    have : ¬ 2 ^ (8 * bs.length - 1) ≤ natOfBytes bs := fun hx => hc (ht.2 hx)
    omega

theorem sval_emod {bs : List Byte} : sval bs % (2 : Int) ^ (8 * bs.length) = natOfBytes bs := by
  have hlt := natOfBytes_lt bs
  have e1 : (2 : Int) ^ (8 * bs.length) = ((2 ^ (8 * bs.length) : Nat) : Int) := by simp
  have base : ((natOfBytes bs : Int)) % ((2 ^ (8 * bs.length) : Nat) : Int) = natOfBytes bs :=
    Int.emod_eq_of_lt (by omega) (by exact_mod_cast hlt)
  rw [sval, e1]
  split
  · rw [Int.sub_emod, Int.emod_self, Int.sub_zero, Int.emod_emod, base]
  · rw [Int.sub_zero, base]

/-- Two integers in the range of n bytes with the same n bytes are equal. -/
theorem eq_of_emod_eq {v w : Int} {n : Nat} (hn : 1 ≤ n)
    (hv : -(2 : Int) ^ (8 * n - 1) ≤ v ∧ v < (2 : Int) ^ (8 * n - 1))
    (hw : -(2 : Int) ^ (8 * n - 1) ≤ w ∧ w < (2 : Int) ^ (8 * n - 1))
    (h : v % (2 : Int) ^ (8 * n) = w % (2 : Int) ^ (8 * n)) : v = w := by
  have e1 : (2 : Int) ^ (8 * n) = 2 * (2 : Int) ^ (8 * n - 1) := by
    rw [← pow_succ']; congr 1; omega
  rw [e1] at h
  generalize (2 : Int) ^ (8 * n - 1) = p at *
  obtain ⟨c, hc⟩ : 2 * p ∣ v - w := Int.dvd_of_emod_eq_zero (Int.emod_eq_emod_iff_emod_sub_eq_zero.1 h)
  have hp : 0 < p := by omega
  have : c = 0 := by
    have h1 : -(2 * p) < 2 * p * c := by omega
    have h2 : 2 * p * c < 2 * p := by omega
    have h3 : -1 < c := by nlinarith
    have h4 : c < 1 := by nlinarith
    omega
  subst this
  omega

/-- `sval(bytes(v)) = v` (20_memory.md R62). -/
theorem sval_bytes (v : Int) : sval (bytes v) = v := by
  apply eq_of_emod_eq (one_le_byteLen v) _ (byteLen_fits v)
  · have := sval_emod (bs := bytes v)
    rw [bytes_length] at this
    rw [this, natOfBytes_bytes]
  · have := sval_fits (bytes_ne_nil v)
    rwa [bytes_length] at this

theorem byteLen_sval_le {bs : List Byte} (h : bs ≠ []) : byteLen (sval bs) ≤ bs.length :=
  (byteLen_le_iff (List.length_pos_iff.2 h)).2 (sval_fits h)

/-- A sequence whose length is the least for its value is the value's minimal sequence. -/
theorem eq_bytes_of_length {bs : List Byte} (h : bs.length = byteLen (sval bs)) : bs = bytes (sval bs) := by
  have e : sval bs % (2 : Int) ^ (8 * byteLen (sval bs)) = natOfBytes bs := by rw [← h]; exact sval_emod
  rw [bytes, e, Int.toNat_natCast, ← h, bytesLE_natOfBytes]

/-- With two bytes or more, the top byte is redundant exactly when one byte fewer holds the value (20_memory.md R61,
R63). -/
theorem minimal_eq_false_iff {bs : List Byte} (h : 2 ≤ bs.length) :
    minimal bs = false ↔ byteLen (sval bs) ≤ bs.length - 1 := by
  obtain ⟨m, hm⟩ : ∃ m, bs.length = m + 2 := ⟨bs.length - 2, by omega⟩
  have hne : bs ≠ [] := by intro hc; simp [hc] at h
  have hlt := natOfBytes_lt bs
  have ht := topNegative_iff hne
  have gt1 := getD_toNat bs (m + 1)
  have gt0 := getD_toNat bs m
  rw [byteLen_le_iff (by omega), minimal]
  simp only [hm, show m + 2 - 1 = m + 1 by omega, show m + 2 - 2 = m by omega, gt1, gt0, sval]
  rw [hm] at hlt ht
  have e1 : 2 ^ (8 * (m + 2)) = 65536 * 2 ^ (8 * m) := by
    rw [two_pow_eight_mul_succ, two_pow_eight_mul_succ]; ring
  have e2 : 2 ^ (8 * (m + 2) - 1) = 32768 * 2 ^ (8 * m) := by
    rw [show 8 * (m + 2) - 1 = 15 + 8 * m by omega, Nat.pow_add]
  have e3 : (2 : Int) ^ (8 * (m + 1) - 1) = ((128 * 2 ^ (8 * m) : Nat) : Int) := by
    rw [show 8 * (m + 1) - 1 = 7 + 8 * m by omega, pow_add]; push_cast; ring
  have e4 : (2 : Int) ^ (8 * (m + 2)) = ((65536 * 2 ^ (8 * m) : Nat) : Int) := by rw [← e1]; simp
  rw [e1] at hlt
  rw [e2] at ht
  rw [e3, e4, two_pow_eight_mul_succ, Nat.mul_comm 256, ← Nat.div_div_eq_div_mul]
  have hp := Nat.two_pow_pos (8 * m)
  generalize 2 ^ (8 * m) = p at *
  have hd := Nat.div_add_mod (natOfBytes bs) p
  have hmod := Nat.mod_lt (natOfBytes bs) hp
  have hq : natOfBytes bs / p < 65536 := by rw [Nat.div_lt_iff_lt_mul hp]; exact hlt
  have c1 : natOfBytes bs / p < 128 ↔ natOfBytes bs < 128 * p := Nat.div_lt_iff_lt_mul hp
  have c2 : 32768 ≤ natOfBytes bs / p ↔ 32768 * p ≤ natOfBytes bs := Nat.le_div_iff_mul_le hp
  have c3 : 65408 ≤ natOfBytes bs / p ↔ 65408 * p ≤ natOfBytes bs := Nat.le_div_iff_mul_le hp
  have key : ((decide (2 ≤ m + 2) && ((decide (natOfBytes bs / p / 256 % 256 = 0) && decide (natOfBytes bs / p % 256 < 128)) ||
      (decide (natOfBytes bs / p / 256 % 256 = 255) && decide (128 ≤ natOfBytes bs / p % 256)))) = true) ↔
      (natOfBytes bs / p < 128 ∨ 65408 ≤ natOfBytes bs / p) := by
    simp only [Bool.and_eq_true, Bool.or_eq_true, decide_eq_true_eq]
    generalize natOfBytes bs / p = q at hq
    omega
  rw [Bool.not_eq_false', key, c1, c3]
  cases htn : topNegative bs
  · have : ¬ 32768 * p ≤ natOfBytes bs := fun hx => by simp [ht.2 hx] at htn
    simp only [Bool.false_eq_true, if_false]
    push_cast
    omega
  · have := ht.1 htn
    simp only [if_true]
    push_cast
    omega

/-- The check of 20_memory.md R63 accepts exactly the minimal sequences (R61). -/
theorem minimal_iff {bs : List Byte} (h : bs ≠ []) : minimal bs = true ↔ bs = bytes (sval bs) := by
  have hl : 1 ≤ bs.length := List.length_pos_iff.2 h
  have hle := byteLen_sval_le h
  have h1 := one_le_byteLen (sval bs)
  have back : bs = bytes (sval bs) → bs.length = byteLen (sval bs) := fun hb => by
    conv_lhs => rw [hb]
    simp
  by_cases h2 : 2 ≤ bs.length
  · constructor
    · intro hm
      apply eq_bytes_of_length
      by_contra hc
      have := (minimal_eq_false_iff h2).2 (by omega)
      simp [this] at hm
    · intro hb
      by_contra hc
      have := (minimal_eq_false_iff h2).1 (by simpa using hc)
      have := back hb
      omega
  · constructor
    · intro _
      apply eq_bytes_of_length
      omega
    · intro _
      simp [minimal, h2]

theorem minimal_bytes (v : Int) : minimal (bytes v) = true :=
  (minimal_iff (bytes_ne_nil v)).2 (by rw [sval_bytes])

theorem bytes_injective {v w : Int} (h : bytes v = bytes w) : v = w := by
  rw [← sval_bytes v, h, sval_bytes]

/-! ### The locators (44_adapter.md R281) -/

theorem lnzIndex_eq_some {bs : List Byte} {i : Nat} (h : lnzIndex bs = some i) :
    i < bs.length ∧ bs.getD i 0 ≠ 0 ∧ ∀ j, j < i → bs.getD j 0 = 0 := by
  induction bs generalizing i with
  | nil => simp [lnzIndex] at h
  | cons b bs ih =>
    rw [lnzIndex] at h
    split at h
    · rename_i hb
      obtain ⟨k, hk, rfl⟩ := Option.map_eq_some_iff.1 h
      obtain ⟨h1, h2, h3⟩ := ih hk
      refine ⟨by simpa using h1, by simpa using h2, fun j hj => ?_⟩
      cases j with
      | zero => simpa using hb
      | succ j => simpa using h3 j (by omega)
    · rename_i hb
      obtain rfl : 0 = i := by simpa using h
      exact ⟨by simp, by simpa using hb, fun j hj => by omega⟩

theorem lnzIndex_eq_none {bs : List Byte} : lnzIndex bs = none ↔ natOfBytes bs = 0 := by
  induction bs with
  | nil => simp [lnzIndex, natOfBytes]
  | cons b bs ih =>
    rw [lnzIndex, natOfBytes]
    by_cases hb : b = 0
    · subst hb; simp [ih]
    · have : b.toNat ≠ 0 := fun hc => hb (BitVec.eq_of_toNat_eq (by simpa using hc))
      rw [if_neg hb]
      simp [this]

theorem hnzIndex_eq_none {bs : List Byte} : hnzIndex bs = none ↔ natOfBytes bs = 0 := by
  induction bs with
  | nil => simp [hnzIndex, natOfBytes]
  | cons b bs ih =>
    rw [hnzIndex, natOfBytes]
    by_cases hb : b = 0
    · subst hb; cases hh : hnzIndex bs <;> simp_all
    · have : b.toNat ≠ 0 := fun hc => hb (BitVec.eq_of_toNat_eq (by simpa using hc))
      cases hh : hnzIndex bs <;> simp_all

theorem hnzIndex_eq_some {bs : List Byte} {i : Nat} (h : hnzIndex bs = some i) :
    i < bs.length ∧ bs.getD i 0 ≠ 0 ∧ ∀ j, i < j → bs.getD j 0 = 0 := by
  induction bs generalizing i with
  | nil => simp [hnzIndex] at h
  | cons b bs ih =>
    rw [hnzIndex] at h
    cases hh : hnzIndex bs with
    | some k =>
      simp only [hh, Option.some.injEq] at h
      subst h
      obtain ⟨h1, h2, h3⟩ := ih hh
      refine ⟨by simpa using h1, by simpa using h2, fun j hj => ?_⟩
      cases j with
      | zero => omega
      | succ j => simpa using h3 j (by omega)
    | none =>
      rw [hh] at h
      by_cases hb : b = 0
      · simp [hb] at h
      · obtain rfl : 0 = i := (by simpa using h : ¬b = 0 ∧ 0 = i).2
        refine ⟨by simp, by simpa using hb, fun j hj => ?_⟩
        have hz := hnzIndex_eq_none.1 hh
        cases j with
        | zero => omega
        | succ j =>
          apply BitVec.eq_of_toNat_eq
          rw [List.getD_cons_succ, getD_toNat, hz]
          simp

/-! ### Byte reversal -/

theorem bytesLE_getD {n i : Nat} (x : Nat) (h : i < n) : (bytesLE n x).getD i 0 = BitVec.ofNat 8 (x >>> (8 * i)) := by
  simp [bytesLE, List.getD_eq_getElem?_getD, h]

theorem reverse_getD {bs : List Byte} {i : Nat} (h : i < bs.length) :
    bs.reverse.getD i 0 = bs.getD (bs.length - 1 - i) 0 := by
  simp [List.getD_eq_getElem?_getD, List.getElem?_reverse h]

/-- REVBYTES moves bit r of byte k to bit r of byte n-1-k (43_reverse_shift.md R246). -/
theorem revBytesW_getLsbD {n i : Nat} (a : BitVec (8 * n)) (h : i < 8 * n) :
    (revBytesW a).getLsbD i = a.getLsbD (8 * (n - 1 - i / 8) + i % 8) := by
  have hk : i / 8 < n := by omega
  have hr : i % 8 < 8 := Nat.mod_lt _ (by decide)
  rw [revBytesW, BitVec.getLsbD_ofNat, natOfBytes_testBit, Nat.mul_div_cancel_left n (by decide)]
  simp only [h, decide_true, Bool.true_and]
  rw [reverse_getD (by simpa using hk), bytesLE_length, bytesLE_getD _ (by omega), BitVec.getLsbD_ofNat]
  simp only [hr, decide_true, Bool.true_and, Nat.testBit_shiftRight]
  rfl

end Sys2Proof.Machine
end

