-- ==== Sys2Proof/Laws/Decode.lean ====
section
/-! SUPPORT. The fields of an encoded word, and that the decoder's checks leave only pairs of the table. -/

namespace Sys2Proof

theorem decide_eq_not_decide {p q : Prop} [Decidable p] [Decidable q] (h : p ↔ ¬ q) : decide p = !decide q := by
  by_cases hq : q <;> simp [hq, h]

theorem commandWord_getLsbD {op wm : Nat} {p : Bool} {c : Int} {i : Nat} (hi : i < 32) :
    (commandWord op wm p c).getLsbD i =
      (op.testBit i || (decide (6 ≤ i) && wm.testBit (i - 6)) || (decide (i = 8) && p) ||
        (decide (16 ≤ i) && (BitVec.ofInt 8 c).getLsbD (i - 16))) := by
  simp only [commandWord, BitVec.getLsbD_or, BitVec.getLsbD_shiftLeft, BitVec.getLsbD_setWidth, BitVec.getLsbD_ofNat,
    hi, decide_true, Bool.true_and]
  have h1 : (if p then 1#32 else 0#32).getLsbD (i - 8) = (decide (i - 8 = 0) && p) := by
    cases p
    · simp
    · have : ∀ j, (1#32).getLsbD j = decide (j = 0) := by
        intro j
        simp [BitVec.getLsbD_one]
      simp [this]
  have hlt : i - 6 < 32 := by omega
  have hlt2 : i - 16 < 32 := by omega
  rw [h1]
  simp only [hlt, hlt2, decide_true, Bool.true_and]
  have e1 : decide (6 ≤ i) = !decide (i < 6) := decide_eq_not_decide (by omega)
  have e2 : decide (16 ≤ i) = !decide (i < 16) := decide_eq_not_decide (by omega)
  have e3 : decide (i = 8) = (!decide (i < 8) && decide (i - 8 = 0)) := by
    by_cases h : i = 8
    · subst h; decide
    · simp [h]; omega
  rw [e1, e2, e3]
  cases decide (i < 6) <;> cases decide (i < 16) <;> cases decide (i < 8) <;> cases p <;> simp

theorem testBit_small {n k i : Nat} (h : n < 2 ^ k) (hi : k ≤ i) : n.testBit i = false :=
  Nat.testBit_lt_two_pow (lt_of_lt_of_le h (Nat.pow_le_pow_right (by decide) hi))

theorem fieldOp_commandWord {op wm : Nat} {p : Bool} {c : Int} (h : op < 64) :
    (fieldOp (commandWord op wm p c)).toNat = op := by
  have : fieldOp (commandWord op wm p c) = BitVec.ofNat 6 op := by
    apply BitVec.eq_of_getLsbD_eq
    intro i hi
    have h6 : ¬ 6 ≤ i := by omega
    have h8 : ¬ i = 8 := by omega
    have h16 : ¬ 16 ≤ i := by omega
    simp [fieldOp, hi, commandWord_getLsbD (show i < 32 by omega), h6, h8, h16, -BitVec.getLsbD_eq_getElem, BitVec.getLsbD_ofNat]
  rw [this, BitVec.toNat_ofNat, Nat.mod_eq_of_lt h]

theorem fieldWm_commandWord {op wm : Nat} {p : Bool} {c : Int} (h : op < 64) (hw : wm < 4) :
    (fieldWm (commandWord op wm p c)).toNat = wm := by
  have : fieldWm (commandWord op wm p c) = BitVec.ofNat 2 wm := by
    apply BitVec.eq_of_getLsbD_eq
    intro i hi
    have h8 : ¬ 6 + i = 8 := by omega
    have h16 : ¬ 16 ≤ 6 + i := by omega
    simp [fieldWm, hi, commandWord_getLsbD (show 6 + i < 32 by omega), h8, h16,
      testBit_small (k := 6) h (show 6 ≤ 6 + i by omega), -BitVec.getLsbD_eq_getElem, BitVec.getLsbD_ofNat]
  rw [this, BitVec.toNat_ofNat, Nat.mod_eq_of_lt hw]

theorem fieldP_commandWord {op wm : Nat} {p : Bool} {c : Int} (h : op < 64) (hw : wm < 4) :
    fieldP (commandWord op wm p c) = if p then 1 else 0 := by
  apply BitVec.eq_of_getLsbD_eq
  intro i hi
  obtain rfl : i = 0 := by omega
  have hb := commandWord_getLsbD (op := op) (wm := wm) (p := p) (c := c) (show 8 < 32 by omega)
  rw [testBit_small (k := 6) h (by omega), testBit_small (k := 2) hw (show 2 ≤ 8 - 6 by omega)] at hb
  rw [fieldP, BitVec.getLsbD_extractLsb', Nat.add_zero, hb]
  cases p <;> simp

theorem fieldRsv0_commandWord {op wm : Nat} {p : Bool} {c : Int} (h : op < 64) (hw : wm < 4) :
    fieldRsv0 (commandWord op wm p c) = 0 := by
  apply BitVec.eq_of_getLsbD_eq
  intro i hi
  have h8 : ¬ 9 + i = 8 := by omega
  have h16 : ¬ 16 ≤ 9 + i := by omega
  simp [fieldRsv0, hi, commandWord_getLsbD (show 9 + i < 32 by omega), h8, h16,
    testBit_small (k := 6) h (show 6 ≤ 9 + i by omega), testBit_small (k := 2) hw (show 2 ≤ 9 + i - 6 by omega)]

theorem fieldCnt_commandWord {op wm : Nat} {p : Bool} {c : Int} (h : op < 64) (hw : wm < 4) :
    fieldCnt (commandWord op wm p c) = BitVec.ofInt 8 c := by
  apply BitVec.eq_of_getLsbD_eq
  intro i hi
  have h8 : ¬ 16 + i = 8 := by omega
  simp [fieldCnt, hi, commandWord_getLsbD (show 16 + i < 32 by omega), h8,
    testBit_small (k := 6) h (show 6 ≤ 16 + i by omega), testBit_small (k := 2) hw (show 2 ≤ 16 + i - 6 by omega)]

theorem fieldRsv1_commandWord {op wm : Nat} {p : Bool} {c : Int} (h : op < 64) (hw : wm < 4) :
    fieldRsv1 (commandWord op wm p c) = 0 := by
  apply BitVec.eq_of_getLsbD_eq
  intro i hi
  have h8 : ¬ 24 + i = 8 := by omega
  have h8' : (BitVec.ofInt 8 c).getLsbD (24 + i - 16) = false := BitVec.getLsbD_of_ge _ _ (by omega)
  simp [fieldRsv1, hi, commandWord_getLsbD (show 24 + i < 32 by omega), h8, h8',
    testBit_small (k := 6) h (show 6 ≤ 24 + i by omega), testBit_small (k := 2) hw (show 2 ≤ 24 + i - 6 by omega)]

theorem fieldOp_commandWord_eq {op wm : Nat} {p : Bool} {c : Int} (h : op < 64) :
    fieldOp (commandWord op wm p c) = BitVec.ofNat 6 op := by
  apply BitVec.eq_of_toNat_eq
  rw [fieldOp_commandWord h, BitVec.toNat_ofNat, Nat.mod_eq_of_lt h]

theorem fieldWm_commandWord_eq {op wm : Nat} {p : Bool} {c : Int} (h : op < 64) (hw : wm < 4) :
    fieldWm (commandWord op wm p c) = BitVec.ofNat 2 wm := by
  apply BitVec.eq_of_toNat_eq
  rw [fieldWm_commandWord h hw, BitVec.toNat_ofNat, Nat.mod_eq_of_lt hw]

/-- The decoder on a word made of fields: where its checks pass, it answers the table's command (30_encoding.md R100). -/
theorem decode_commandWord {op wm : Nat} {p : Bool} {c : Int} (h : op < 0x16) (hw : wm < 3)
    (hf : ¬ (opFixedOnly (BitVec.ofNat 6 op) = true ∧ BitVec.ofNat 2 wm = 2))
    (ha : ¬ (opArbOnly (BitVec.ofNat 6 op) = true ∧ BitVec.ofNat 2 wm ≠ 2))
    (hp : p = true → opHasP (BitVec.ofNat 6 op) = true)
    (hc : BitVec.ofInt 8 c ≠ 0 → opHasCnt (BitVec.ofNat 6 op) = true) :
    decode (commandWord op wm p c) =
      match instrAt op wm p (BitVec.ofInt 8 c).toInt with
      | some i => .ok i
      | none => .error .reservedOpcode := by
  have h64 : op < 64 := by omega
  have h4 : wm < 4 := by omega
  have hwm : ¬ BitVec.ofNat 2 wm = 3 := by
    intro e
    have := congrArg BitVec.toNat e
    simp at this
    omega
  have hP : ¬ (fieldP (commandWord op wm p c) = 1 ∧ ¬ opHasP (BitVec.ofNat 6 op) = true) := by
    rintro ⟨h1, h2⟩
    rw [fieldP_commandWord h64 h4] at h1
    cases p
    · exact absurd h1 (by decide)
    · exact h2 (hp rfl)
  have hC : ¬ (BitVec.ofInt 8 c ≠ 0 ∧ ¬ opHasCnt (BitVec.ofNat 6 op) = true) := fun hx => hx.2 (hc hx.1)
  have hb : (fieldP (commandWord op wm p c) == 1) = p := by
    rw [fieldP_commandWord h64 h4]
    cases p <;> rfl
  unfold decode
  rw [hb, fieldRsv0_commandWord h64 h4, fieldRsv1_commandWord h64 h4, fieldOp_commandWord h64, fieldOp_commandWord_eq h64,
    fieldWm_commandWord h64 h4, fieldWm_commandWord_eq h64 h4, fieldCnt_commandWord h64 h4, if_neg (by simp),
    if_neg (by omega), if_neg hwm, if_neg hf, if_neg ha, if_neg hP, if_neg hC] <;> rfl

/-- The signed reading of CNT gives the count back (30_encoding.md R94). -/
theorem count_roundtrip {c : Int} (h : countEncodable c = true) : (BitVec.ofInt 8 c).toInt = c := by
  simp only [countEncodable, Bool.and_eq_true, decide_eq_true_eq] at h
  rw [BitVec.toInt_ofInt]
  simp only [Int.bmod]
  omega

/-- After the decoder's checks on OP and WM the pair is in the table (30_encoding.md R95, R100). -/
theorem instrAt_isSome_of_checks : ∀ op : BitVec 6, ∀ wm : BitVec 2, op.toNat < 0x16 → wm ≠ 3 →
    ¬ (opFixedOnly op = true ∧ wm = 2) → ¬ (opArbOnly op = true ∧ wm ≠ 2) →
      ∀ p c, (instrAt op.toNat wm.toNat p c).isSome = true := by
  have key : ∀ op : BitVec 6, ∀ wm : BitVec 2, op.toNat < 0x16 → wm ≠ 3 →
      ¬ (opFixedOnly op = true ∧ wm = 2) → ¬ (opArbOnly op = true ∧ wm ≠ 2) →
        (instrAt op.toNat wm.toNat false 0).isSome = true := by decide
  intro op wm h1 h2 h3 h4 p c
  have hk := key op wm h1 h2 h3 h4
  revert hk
  unfold instrAt
  split <;> simp

end Sys2Proof
end

