-- ==== Sys2Proof/Laws/State.lean ====
section
/-! SUPPORT. One lemma per field per update of the state, so that no proof unfolds a record update. -/

namespace Sys2Proof.Machine

@[simp] theorem answered_response (s : State) (r : Response) : (s.answered r).response = some r := rfl
@[simp] theorem answered_rom (s : State) (r : Response) : (s.answered r).rom = s.rom := rfl
@[simp] theorem answered_nArbMax (s : State) (r : Response) : (s.answered r).nArbMax = s.nArbMax := rfl
@[simp] theorem answered_ports (s : State) (r : Response) : (s.answered r).ports = s.ports := rfl
@[simp] theorem answered_pending (s : State) (r : Response) : (s.answered r).pending = s.pending := rfl
@[simp] theorem answered_draws (s : State) (r : Response) : (s.answered r).draws = s.draws := rfl
@[simp] theorem answered_answered (s : State) (r r' : Response) : (s.answered r).answered r' = s.answered r' := rfl

@[simp] theorem sampled_response (s : State) (c : Command) (l : List Command) :
    (s.sampled c l).response = s.response := rfl
@[simp] theorem sampled_rom (s : State) (c : Command) (l : List Command) : (s.sampled c l).rom = s.rom := rfl
@[simp] theorem sampled_nArbMax (s : State) (c : Command) (l : List Command) :
    (s.sampled c l).nArbMax = s.nArbMax := rfl
@[simp] theorem sampled_ports (s : State) (c : Command) (l : List Command) : (s.sampled c l).ports = c := rfl
@[simp] theorem sampled_pending (s : State) (c : Command) (l : List Command) : (s.sampled c l).pending = l := rfl
@[simp] theorem sampled_draws (s : State) (c : Command) (l : List Command) : (s.sampled c l).draws = s.draws := rfl

@[simp] theorem drawIndex_response (s : State) (c : Config.IndexCommand) (x : Int) (top : Nat) :
    (drawIndex s c x top).2.response = s.response := rfl
@[simp] theorem drawIndex_rom (s : State) (c : Config.IndexCommand) (x : Int) (top : Nat) :
    (drawIndex s c x top).2.rom = s.rom := rfl
@[simp] theorem drawIndex_nArbMax (s : State) (c : Config.IndexCommand) (x : Int) (top : Nat) :
    (drawIndex s c x top).2.nArbMax = s.nArbMax := rfl
@[simp] theorem drawIndex_ports (s : State) (c : Config.IndexCommand) (x : Int) (top : Nat) :
    (drawIndex s c x top).2.ports = s.ports := rfl
@[simp] theorem drawIndex_pending (s : State) (c : Config.IndexCommand) (x : Int) (top : Nat) :
    (drawIndex s c x top).2.pending = s.pending := rfl
@[simp] theorem drawIndex_draws (s : State) (c : Config.IndexCommand) (x : Int) (top : Nat) :
    (drawIndex s c x top).2.draws = s.draws + 1 := rfl

@[simp] theorem withFetchWord_response (s : State) (nbits w : Nat) :
    (s.withFetchWord nbits w).response = s.response := rfl
@[simp] theorem withFetchWord_rom (s : State) (nbits w : Nat) : (s.withFetchWord nbits w).rom = s.rom := rfl
@[simp] theorem withFetchWord_nArbMax (s : State) (nbits w : Nat) :
    (s.withFetchWord nbits w).nArbMax = s.nArbMax := rfl
@[simp] theorem withFetchWord_ports (s : State) (nbits w : Nat) : (s.withFetchWord nbits w).ports = s.ports := rfl
@[simp] theorem withFetchWord_pending (s : State) (nbits w : Nat) :
    (s.withFetchWord nbits w).pending = { s.ports with cmd := BitVec.ofNat 32 (w % 2 ^ nbits) } :: s.pending := rfl
@[simp] theorem withFetchWord_draws (s : State) (nbits w : Nat) : (s.withFetchWord nbits w).draws = s.draws := rfl

@[simp] theorem make_status (st : Status) (a b c : Slot) : (Response.make st a b c).status = st := rfl
@[simp] theorem make_r0 (st : Status) (a b c : Slot) : (Response.make st a b c).r0 = a.ports := rfl
@[simp] theorem make_r1 (st : Status) (a b c : Slot) : (Response.make st a b c).r1 = b.ports := rfl
@[simp] theorem make_r2 (st : Status) (a b c : Slot) : (Response.make st a b c).r2 = c.ports := rfl

@[simp] theorem ports_empty : Slot.ports .empty = { rv := 0, rb := [] } := rfl
@[simp] theorem ports_cnt (n : Int) : Slot.ports (.cnt n) = { rv := BitVec.ofInt 64 n, rb := [] } := rfl
@[simp] theorem ports_fix (a : Word64) : Slot.ports (.fix a) = { rv := a, rb := [] } := rfl
@[simp] theorem ports_arb (v : Int) : Slot.ports (.arb v) = { rv := 0, rb := bytes v } := rfl

/-- The ROMs of every state are the built ones (10_state.md R46). -/
@[simp] theorem rom_val (s : State) : s.rom.val = Rom.contents := s.rom.property

end Sys2Proof.Machine
end

