-- ==== Sys2Proof/Laws/Ops.lean ====
section
/-! SUPPORT. What the shared operations can do, said once: the operand of an ARB command, the domain check, the draw;
and, from them, everything one command can do to the state (`exec_effect`). -/

namespace Sys2Proof.Machine

/-! ### The operand and domain checks -/

@[simp] theorem operandBytes_length (c : Command) : c.operandBytes.length = c.alen := by simp [Command.operandBytes]

theorem operandBytes_getD (c : Command) {k : Nat} (h : k < c.alen) : c.operandBytes.getD k 0 = c.ab.getD k 0 := by
  simp [Command.operandBytes, List.getD_eq_getElem?_getD, h]

theorem arbOperand_alen {s : State} {v : Int} (h : s.arbOperand v) : s.ports.alen = byteLen v := by
  have := congrArg List.length h.2
  simpa using this

/-- With an operand the port carries, an ARB command goes on with what the decomposer gives (44_adapter.md R280). -/
theorem withDecomposed_of_arbOperand {s : State} {v : Int} (h : s.arbOperand v) (k : Decomposed → Outcome) :
    withDecomposed s k = k { bs := bytes v, n := byteLen v, neg := topNegative (bytes v) } := by
  have hl := arbOperand_alen h
  have h1 := one_le_byteLen v
  rw [withDecomposed, if_neg (by have := h.1; omega), if_neg (by omega), h.2, minimal_bytes, if_pos rfl, decompose, h.2, hl]

theorem withArb_of_arbOperand {s : State} {v : Int} (h : s.arbOperand v) (k : Int → Outcome) : withArb s k = k v := by
  rw [withArb, withDecomposed_of_arbOperand h]
  simp only [sval_bytes]

theorem withDecomposed_too_long {s : State} (h : s.nArbMax < s.ports.alen) (k : Decomposed → Outcome) :
    withDecomposed s k = .refused .operandTooLong := by rw [withDecomposed, if_pos h]

theorem withDecomposed_missing {s : State} (h : s.ports.alen = 0) (k : Decomposed → Outcome) :
    withDecomposed s k = raise s .missingInput := by
  rw [withDecomposed, if_neg (by omega), if_pos h]

/-- The operand checks end in one of four ways, in the order of 60_exceptions.md R304. -/
theorem withDecomposed_cases (s : State) (k : Decomposed → Outcome) :
    (s.nArbMax < s.ports.alen ∧ withDecomposed s k = .refused .operandTooLong) ∨
    (s.ports.alen = 0 ∧ withDecomposed s k = raise s .missingInput) ∨
    (s.ports.alen ≤ s.nArbMax ∧ s.ports.alen ≠ 0 ∧ s.ports.operandBytes ≠ bytes (sval s.ports.operandBytes) ∧
      withDecomposed s k = raise s .invalidArgument) ∨
    (s.arbOperand (sval s.ports.operandBytes) ∧ s.ports.alen ≠ 0 ∧ withDecomposed s k = k (decompose s.ports)) := by
  by_cases h1 : s.nArbMax < s.ports.alen
  · exact .inl ⟨h1, withDecomposed_too_long h1 k⟩
  · by_cases h2 : s.ports.alen = 0
    · exact .inr (.inl ⟨h2, withDecomposed_missing h2 k⟩)
    · have hne : s.ports.operandBytes ≠ [] := by
        intro hc
        have := congrArg List.length hc
        simp at this
        exact h2 this
      have hle : s.ports.alen ≤ s.nArbMax := Nat.le_of_not_lt h1
      by_cases h3 : minimal s.ports.operandBytes = true
      · exact .inr (.inr (.inr ⟨⟨hle, (minimal_iff hne).1 h3⟩, h2, by
          rw [withDecomposed, if_neg h1, if_neg h2, if_pos h3]⟩))
      · exact .inr (.inr (.inl ⟨hle, h2, fun hc => h3 ((minimal_iff hne).2 hc), by
          rw [withDecomposed, if_neg h1, if_neg h2, if_neg h3]⟩))

theorem inDomain_true {s : State} {k : Outcome} {good : Bool} (h : good = true) : inDomain s good k = k := by
  rw [inDomain, if_pos h]

theorem inDomain_false {s : State} {k : Outcome} {good : Bool} (h : good = false) :
    inDomain s good k = raise s .invalidArgument := by rw [inDomain, h]; rfl

@[simp] theorem notNegative_iff (x : Int) : notNegative x = true ↔ 0 ≤ x := by simp [notNegative]
@[simp] theorem positive_iff (x : Int) : positive x = true ↔ 0 < x := by simp [positive]
@[simp] theorem countInRange_iff (w : Nat) (c : Int) : countInRange w c = true ↔ 0 ≤ c ∧ c ≤ w := by
  simp [countInRange]

/-- An UNSPECIFIED index lies in its range (00_scope.md R14). -/
theorem drawIndex_le (s : State) (c : Config.IndexCommand) (x : Int) (top : Nat) : (drawIndex s c x top).1 ≤ top :=
  Nat.le_of_lt_succ (Nat.mod_lt _ (Nat.succ_pos top))

/-! ### Everything one command can do -/

/-- What one command can do: an over-long ARB operand is refused, and otherwise the next state is the present one but
for the response, and for the count of draws where an UNSPECIFIED value was drawn. An error has empty slots. -/
def Effect (s : State) (o : Outcome) : Prop :=
  (s.nArbMax < s.ports.alen ∧ o = .refused .operandTooLong) ∨
  ∃ (d : Nat) (st : Status) (s0 s1 s2 : Slot),
    (d = s.draws ∨ d = s.draws + 1) ∧ (st ≠ .ok → s0 = .empty ∧ s1 = .empty ∧ s2 = .empty) ∧
      o = .next ({ s with draws := d }.answered (Response.make st s0 s1 s2))

theorem effect_respond (s : State) (a b c : Slot) : Effect s (respond s a b c) :=
  .inr ⟨s.draws, .ok, a, b, c, .inl rfl, fun h => absurd rfl h, rfl⟩

theorem effect_raise (s : State) (st : Status) : Effect s (raise s st) :=
  .inr ⟨s.draws, st, .empty, .empty, .empty, .inl rfl, fun _ => ⟨rfl, rfl, rfl⟩, rfl⟩

theorem effect_inDomain {s : State} {good : Bool} {k : Outcome} (h : Effect s k) : Effect s (inDomain s good k) := by
  cases good
  · exact effect_raise s _
  · exact h

theorem effect_withDecomposed {s : State} {k : Decomposed → Outcome} (h : ∀ d, Effect s (k d)) :
    Effect s (withDecomposed s k) := by
  obtain ⟨h1, h2⟩ | ⟨_, h2⟩ | ⟨_, _, _, h2⟩ | ⟨_, _, h2⟩ := withDecomposed_cases s k <;> rw [h2]
  · exact .inl ⟨h1, rfl⟩
  · exact effect_raise s _
  · exact effect_raise s _
  · exact h _

theorem effect_withArb {s : State} {k : Int → Outcome} (h : ∀ v, Effect s (k v)) : Effect s (withArb s k) :=
  effect_withDecomposed fun _ => h _

theorem effect_respondIndex (s : State) (g : Bool) (k : Nat) (c : Config.IndexCommand) (x : Int) (top : Nat) :
    Effect s (respondIndex s g k c x top) := by
  cases g
  · exact .inr ⟨s.draws + 1, .ok, _, .empty, .empty, .inr rfl, fun h => absurd rfl h, rfl⟩
  · exact effect_respond s _ _ _

theorem effect_respondByteAt (s : State) (bs : List Byte) (i : Option Nat) : Effect s (respondByteAt s bs i) := by
  cases i <;> exact effect_respond s _ _ _

/-- Everything one command can do to the state. -/
theorem exec_effect (i : Instr) (s : State) : Effect s (exec i s) := by
  cases i <;> simp only [exec]
  case popcnt32 | popcnt64 | bitlen32 | bitlen64 | lzc32 | lzc64 | tzc32 | tzc64 | foldr32 | foldr64 | foldl32 |
    foldl64 | ispow232 | ispow264 | lsb132 | lsb164 | msb132 | msb164 | revbits32 | revbits64 | revbytes32 |
    revbytes64 => exact effect_respond s _ _ _
  case bitlenA | tzcA | ispow2A | lsb1A => exact effect_withArb fun _ => effect_respond s _ _ _
  case popcntA | log2A | lzcA | foldrA | foldlA | roundupA | rounddnA | roundnrA | msb1A =>
    exact effect_withArb fun _ => effect_inDomain (effect_respond s _ _ _)
  case log232 | log264 | roundup32 | roundup64 | rounddn32 | rounddn64 | roundnr32 | roundnr64 | shlc32 | shlc64 |
    shrc32 | shrc64 => exact effect_inDomain (effect_respond s _ _ _)
  case bidxl32 | bidxl64 | bidxm32 | bidxm64 => exact effect_respondIndex s _ _ _ _ _
  case bidxlA | bidxmA => exact effect_withArb fun _ => effect_respondIndex s _ _ _ _ _
  case revbitsA | adplenA => exact effect_withDecomposed fun _ => effect_respond s _ _ _
  case adphnzA | adplnzA => exact effect_withDecomposed fun _ => effect_respondByteAt s _ _

/-- A command that answers a next state changes only the response and the count of draws (10_state.md R30, R46). -/
theorem exec_next {i : Instr} {s t : State} (h : exec i s = .next t) :
    ∃ (d : Nat) (st : Status) (s0 s1 s2 : Slot),
      (d = s.draws ∨ d = s.draws + 1) ∧ (st ≠ .ok → s0 = .empty ∧ s1 = .empty ∧ s2 = .empty) ∧
        t = { s with draws := d }.answered (Response.make st s0 s1 s2) := by
  obtain ⟨_, h2⟩ | ⟨d, st, s0, s1, s2, h3, h4, h2⟩ := exec_effect i s
  · rw [h] at h2; cases h2
  · rw [h] at h2
    exact ⟨d, st, s0, s1, s2, h3, h4, by injection h2⟩

end Sys2Proof.Machine
end

