-- ==== Sys2Proof/Laws/Notions.lean ====
section
/-! SUPPORT. The notions of the statements (bit length, lowest and highest set bit, powers of two) in terms of the
functions of Machine/Bits.lean, and the isolated bits of LSB1 and MSB1. -/

namespace Sys2Proof.Machine

theorem isBitLength_bitLength (n : Nat) : IsBitLength n (bitLength n) :=
  ⟨lt_two_pow_bitLength n, fun _ h => bitLength_le_iff.2 h⟩

theorem bitLength_of_isBitLength {n m : Nat} (h : IsBitLength n m) : bitLength n = m := bitLength_unique h.1 h.2

theorem bitLength_toNat_of_bounds {x : Int} {k : Nat} (h1 : (2 : Int) ^ k ≤ x) (h2 : x < (2 : Int) ^ (k + 1)) :
    bitLength x.toNat = k + 1 := by
  have hx : 0 ≤ x := le_trans (by positivity) h1
  apply bitLength_eq_of_bounds <;> zify <;> rw [Int.toNat_of_nonneg hx] <;> assumption

theorem isLowestBit_ctzW {w : Nat} {a : BitVec w} (h : a ≠ 0) : IsLowestBit a (ctzW a) := (ctzW_spec h).2

theorem ctzW_of_isLowestBit {w k : Nat} {a : BitVec w} (h : IsLowestBit a k) : ctzW a = k :=
  ctzW_eq_of_lowest h.1 h.2

theorem bitLength_of_isHighestBit {w k : Nat} {a : BitVec w} (h : IsHighestBit a k) : bitLength a.toNat = k + 1 := by
  have hlt := lt_bitLength_of_testBit h.1
  have hne : a.toNat ≠ 0 := by
    intro hc
    have := h.1
    simp [BitVec.getLsbD, hc] at this
  have ht := testBit_bitLength_sub_one hne
  by_contra hc
  have := h.2 (bitLength a.toNat - 1) (by omega)
  rw [BitVec.getLsbD, ht] at this
  exact absurd this (by decide)

theorem isHighestBit_bitLength {w : Nat} {a : BitVec w} (h : a ≠ 0) : IsHighestBit a (bitLength a.toNat - 1) := by
  have hne : a.toNat ≠ 0 := fun hc => h (BitVec.eq_of_toNat_eq (by simpa using hc))
  have hp := bitLength_pos hne
  exact ⟨testBit_bitLength_sub_one hne, fun j hj => testBit_of_bitLength_le (by omega)⟩

theorem isTrailing_ctz {v : Int} (h : v ≠ 0) : IsTrailing v (ctz v) := ctz_dvd h

theorem ctz_of_isTrailing {v : Int} {k : Nat} (h : IsTrailing v k) : v ≠ 0 ∧ ctz v = k :=
  ⟨by rintro rfl; exact h.2 (dvd_zero _), ctz_unique h.1 h.2⟩

theorem arbOperand_toNat_lt {s : State} {v : Int} (h : s.arbOperand v) (hv : 0 ≤ v) :
    v.toNat < 2 ^ (8 * s.ports.alen - 1) := by
  have h2 := (byteLen_fits v).2
  rw [arbOperand_alen h]
  zify
  rw [Int.toNat_of_nonneg hv]
  exact h2

/-- Clearing the lowest 1 digit of n > 0 takes `2^k` off it, k its place. -/
theorem sub_and_pred {n : Nat} (hn : n ≠ 0) : n - (n &&& (n - 1)) = 2 ^ zerosBelow (bitLength n) n := by
  induction n using Nat.strongRecOn with
  | _ n ih =>
    have hb := bitLength_half hn
    rw [hb, zerosBelow]
    by_cases ho : n % 2 = 1
    · have e : n &&& (n - 1) = n - 1 := by
        apply Nat.eq_of_testBit_eq
        intro i
        cases i with
        | zero => simp [Nat.testBit_zero]; omega
        | succ i =>
          rw [Nat.testBit_and, Nat.testBit_succ, Nat.testBit_succ, show (n - 1) / 2 = n / 2 by omega, Bool.and_self]
      rw [if_pos ho, e]
      simp
      omega
    · have hm : n / 2 ≠ 0 := by omega
      have e : n &&& (n - 1) = 2 * (n / 2 &&& (n / 2 - 1)) := by
        apply Nat.eq_of_testBit_eq
        intro i
        cases i with
        | zero => simp [Nat.testBit_zero]; omega
        | succ i =>
          rw [Nat.testBit_and, Nat.testBit_succ, Nat.testBit_succ, Nat.testBit_succ, Nat.mul_div_cancel_left _ (by decide),
            Nat.testBit_and, show (n - 1) / 2 = n / 2 - 1 by omega]
      have := ih (n / 2) (by omega) hm
      rw [if_neg ho, e, Nat.pow_succ, ← this]
      omega

/-- `v & -v` is the lowest 1 of v (42_isolate_index.md R210). -/
theorem intAnd_neg_self {v : Int} (hv : v ≠ 0) : intAnd v (-v) = (2 : Int) ^ ctz v := by
  have key : ∀ n : Nat, n ≠ 0 → ((n - (n &&& (n - 1)) : Nat) : Int) = (2 : Int) ^ zerosBelow (bitLength n) n :=
    fun n hn => by rw [sub_and_pred hn]; simp
  cases v with
  | ofNat n =>
    obtain ⟨m, rfl⟩ : ∃ m, n = m + 1 := ⟨n - 1, by simp at hv; omega⟩
    exact key (m + 1) (by omega)
  | negSucc m =>
    have := key (m + 1) (by omega)
    rw [Nat.and_comm] at this
    exact this

/-- `a & -a` is the lowest 1 of a pattern (42_isolate_index.md R210). -/
theorem and_neg_eq_of_lowest {w k : Nat} {a : BitVec w} (h : IsLowestBit a k) : a &&& -a = BitVec.ofNat w (2 ^ k) := by
  have hk : k < w := BitVec.lt_of_getLsbD h.1
  apply BitVec.eq_of_getLsbD_eq
  intro i hi
  rw [BitVec.getLsbD_and, BitVec.getLsbD_neg, BitVec.getLsbD_ofNat, Nat.testBit_two_pow]
  by_cases h1 : i = k
  · subst h1
    have : ¬ ∃ j, j < i ∧ a.getLsbD j = true := fun ⟨j, hj, ht⟩ => by simp [h.2 j hj] at ht
    simp [hi, h.1, this]
  · have hne : k ≠ i := fun hc => h1 hc.symm
    by_cases h2 : i < k
    · simp [h.2 i h2, hne]
    · have : ∃ j, j < i ∧ a.getLsbD j = true := ⟨k, by omega, h.1⟩
      simp only [this, hi, decide_true, Bool.true_and, hne, decide_false, Bool.and_false]
      cases a.getLsbD i <;> rfl

theorem msb1W_eq_of_highest {w k : Nat} {a : BitVec w} (h : IsHighestBit a k) : msb1W a = BitVec.ofNat w (2 ^ k) := by
  have hk : k < w := BitVec.lt_of_getLsbD h.1
  have hb := bitLength_of_isHighestBit h
  apply BitVec.eq_of_getLsbD_eq
  intro i hi
  rw [msb1W, BitVec.getLsbD_and, BitVec.getLsbD_not, BitVec.getLsbD_ushiftRight, foldW_getLsbD, foldW_getLsbD, hb,
    BitVec.getLsbD_ofNat, Nat.testBit_two_pow]
  by_cases h1 : i = k
  · subst h1; simp [hi]
  · have : k ≠ i := fun hc => h1 hc.symm
    by_cases h2 : i < k <;> simp [hi, this] <;> omega

theorem powerAbove_eq {x : Int} {k : Nat} (hx : 0 < x) (h : IsLeastPowerAtOrAbove x k) : powerAbove x = (2 : Int) ^ k := by
  have hb : bitLength (x - 1).toNat = k := by
    apply bitLength_unique
    · zify; rw [Int.toNat_of_nonneg (by omega)]; have := h.1; omega
    · intro j hj
      apply h.2
      zify at hj; rw [Int.toNat_of_nonneg (by omega)] at hj; omega
  rw [powerAbove, show ((fold (x - 1).toNat : Int) + 1) = ((fold (x - 1).toNat + 1 : Nat) : Int) by push_cast; rfl, fold_succ, hb]
  simp

end Sys2Proof.Machine
end

