-- ==== Sys2Proof/Laws/PerInstr.lean ====
section
/-! SUPPORT. The per-instruction family `FieldsOfTable`: the fields of an encoded command are those of its row of the
opcode table (30_encoding.md R90, R95), whatever its arguments. -/

namespace Sys2Proof.Laws.FieldsOfTable

/-- The OP and WM of a row: the place of its base word (30_encoding.md R95, R96). -/
def place : Instr → Nat × Nat
  | .popcnt32 => (0x00, 0)
  | .popcnt64 => (0x00, 1)
  | .popcntA => (0x00, 2)
  | .bitlen32 => (0x01, 0)
  | .bitlen64 => (0x01, 1)
  | .bitlenA => (0x01, 2)
  | .log232 => (0x02, 0)
  | .log264 => (0x02, 1)
  | .log2A => (0x02, 2)
  | .lzc32 => (0x03, 0)
  | .lzc64 => (0x03, 1)
  | .lzcA => (0x03, 2)
  | .tzc32 => (0x04, 0)
  | .tzc64 => (0x04, 1)
  | .tzcA => (0x04, 2)
  | .foldr32 => (0x05, 0)
  | .foldr64 => (0x05, 1)
  | .foldrA => (0x05, 2)
  | .foldl32 => (0x06, 0)
  | .foldl64 => (0x06, 1)
  | .foldlA => (0x06, 2)
  | .ispow232 => (0x07, 0)
  | .ispow264 => (0x07, 1)
  | .ispow2A => (0x07, 2)
  | .roundup32 _ => (0x08, 0)
  | .roundup64 _ => (0x08, 1)
  | .roundupA _ => (0x08, 2)
  | .rounddn32 _ => (0x09, 0)
  | .rounddn64 _ => (0x09, 1)
  | .rounddnA _ => (0x09, 2)
  | .roundnr32 => (0x0A, 0)
  | .roundnr64 => (0x0A, 1)
  | .roundnrA => (0x0A, 2)
  | .lsb132 => (0x0B, 0)
  | .lsb164 => (0x0B, 1)
  | .lsb1A => (0x0B, 2)
  | .msb132 => (0x0C, 0)
  | .msb164 => (0x0C, 1)
  | .msb1A => (0x0C, 2)
  | .bidxl32 => (0x0D, 0)
  | .bidxl64 => (0x0D, 1)
  | .bidxlA => (0x0D, 2)
  | .bidxm32 => (0x0E, 0)
  | .bidxm64 => (0x0E, 1)
  | .bidxmA => (0x0E, 2)
  | .revbits32 => (0x0F, 0)
  | .revbits64 => (0x0F, 1)
  | .revbitsA => (0x0F, 2)
  | .revbytes32 => (0x10, 0)
  | .revbytes64 => (0x10, 1)
  | .shlc32 _ => (0x11, 0)
  | .shlc64 _ => (0x11, 1)
  | .shrc32 _ => (0x12, 0)
  | .shrc64 _ => (0x12, 1)
  | .adplenA => (0x13, 2)
  | .adphnzA => (0x14, 2)
  | .adplnzA => (0x15, 2)

/-- The reserved fields of the encoded word are 0 and its OP and WM are the row's (30_encoding.md R90, R96). -/
def Statement (i : Instr) : Prop :=
  fieldRsv0 (encode i) = 0 ∧ fieldRsv1 (encode i) = 0 ∧
    (fieldOp (encode i)).toNat = (place i).1 ∧ (fieldWm (encode i)).toNat = (place i).2

theorem of_commandWord {op wm : Nat} {p : Bool} {c : Int} (h : op < 64) (hw : wm < 4) :
    fieldRsv0 (commandWord op wm p c) = 0 ∧ fieldRsv1 (commandWord op wm p c) = 0 ∧
      (fieldOp (commandWord op wm p c)).toNat = op ∧ (fieldWm (commandWord op wm p c)).toNat = wm :=
  ⟨fieldRsv0_commandWord h hw, fieldRsv1_commandWord h hw, fieldOp_commandWord h, fieldWm_commandWord h hw⟩

theorem popcnt32 : Statement .popcnt32 := of_commandWord (by decide) (by decide)
theorem popcnt64 : Statement .popcnt64 := of_commandWord (by decide) (by decide)
theorem popcntA : Statement .popcntA := of_commandWord (by decide) (by decide)
theorem bitlen32 : Statement .bitlen32 := of_commandWord (by decide) (by decide)
theorem bitlen64 : Statement .bitlen64 := of_commandWord (by decide) (by decide)
theorem bitlenA : Statement .bitlenA := of_commandWord (by decide) (by decide)
theorem log232 : Statement .log232 := of_commandWord (by decide) (by decide)
theorem log264 : Statement .log264 := of_commandWord (by decide) (by decide)
theorem log2A : Statement .log2A := of_commandWord (by decide) (by decide)
theorem lzc32 : Statement .lzc32 := of_commandWord (by decide) (by decide)
theorem lzc64 : Statement .lzc64 := of_commandWord (by decide) (by decide)
theorem lzcA : Statement .lzcA := of_commandWord (by decide) (by decide)
theorem tzc32 : Statement .tzc32 := of_commandWord (by decide) (by decide)
theorem tzc64 : Statement .tzc64 := of_commandWord (by decide) (by decide)
theorem tzcA : Statement .tzcA := of_commandWord (by decide) (by decide)
theorem foldr32 : Statement .foldr32 := of_commandWord (by decide) (by decide)
theorem foldr64 : Statement .foldr64 := of_commandWord (by decide) (by decide)
theorem foldrA : Statement .foldrA := of_commandWord (by decide) (by decide)
theorem foldl32 : Statement .foldl32 := of_commandWord (by decide) (by decide)
theorem foldl64 : Statement .foldl64 := of_commandWord (by decide) (by decide)
theorem foldlA : Statement .foldlA := of_commandWord (by decide) (by decide)
theorem ispow232 : Statement .ispow232 := of_commandWord (by decide) (by decide)
theorem ispow264 : Statement .ispow264 := of_commandWord (by decide) (by decide)
theorem ispow2A : Statement .ispow2A := of_commandWord (by decide) (by decide)
theorem roundup32 (proper : Bool) : Statement (.roundup32 proper) := of_commandWord (by decide) (by decide)
theorem roundup64 (proper : Bool) : Statement (.roundup64 proper) := of_commandWord (by decide) (by decide)
theorem roundupA (proper : Bool) : Statement (.roundupA proper) := of_commandWord (by decide) (by decide)
theorem rounddn32 (proper : Bool) : Statement (.rounddn32 proper) := of_commandWord (by decide) (by decide)
theorem rounddn64 (proper : Bool) : Statement (.rounddn64 proper) := of_commandWord (by decide) (by decide)
theorem rounddnA (proper : Bool) : Statement (.rounddnA proper) := of_commandWord (by decide) (by decide)
theorem roundnr32 : Statement .roundnr32 := of_commandWord (by decide) (by decide)
theorem roundnr64 : Statement .roundnr64 := of_commandWord (by decide) (by decide)
theorem roundnrA : Statement .roundnrA := of_commandWord (by decide) (by decide)
theorem lsb132 : Statement .lsb132 := of_commandWord (by decide) (by decide)
theorem lsb164 : Statement .lsb164 := of_commandWord (by decide) (by decide)
theorem lsb1A : Statement .lsb1A := of_commandWord (by decide) (by decide)
theorem msb132 : Statement .msb132 := of_commandWord (by decide) (by decide)
theorem msb164 : Statement .msb164 := of_commandWord (by decide) (by decide)
theorem msb1A : Statement .msb1A := of_commandWord (by decide) (by decide)
theorem bidxl32 : Statement .bidxl32 := of_commandWord (by decide) (by decide)
theorem bidxl64 : Statement .bidxl64 := of_commandWord (by decide) (by decide)
theorem bidxlA : Statement .bidxlA := of_commandWord (by decide) (by decide)
theorem bidxm32 : Statement .bidxm32 := of_commandWord (by decide) (by decide)
theorem bidxm64 : Statement .bidxm64 := of_commandWord (by decide) (by decide)
theorem bidxmA : Statement .bidxmA := of_commandWord (by decide) (by decide)
theorem revbits32 : Statement .revbits32 := of_commandWord (by decide) (by decide)
theorem revbits64 : Statement .revbits64 := of_commandWord (by decide) (by decide)
theorem revbitsA : Statement .revbitsA := of_commandWord (by decide) (by decide)
theorem revbytes32 : Statement .revbytes32 := of_commandWord (by decide) (by decide)
theorem revbytes64 : Statement .revbytes64 := of_commandWord (by decide) (by decide)
theorem shlc32 (count : Int) : Statement (.shlc32 count) := of_commandWord (by decide) (by decide)
theorem shlc64 (count : Int) : Statement (.shlc64 count) := of_commandWord (by decide) (by decide)
theorem shrc32 (count : Int) : Statement (.shrc32 count) := of_commandWord (by decide) (by decide)
theorem shrc64 (count : Int) : Statement (.shrc64 count) := of_commandWord (by decide) (by decide)
theorem adplenA : Statement .adplenA := of_commandWord (by decide) (by decide)
theorem adphnzA : Statement .adphnzA := of_commandWord (by decide) (by decide)
theorem adplnzA : Statement .adplnzA := of_commandWord (by decide) (by decide)

end Sys2Proof.Laws.FieldsOfTable
end

