-- ==== Sys2Proof/Tests/Slice0.lean ====
section
/-! SUPPORT. The model's own tests: ill-formed terms refused, words of the encoding table decoded, one step on the vectors of
95_test_vectors.md, and a witness for the hypotheses of every statement. Expected results come from the spec. -/

namespace Sys2Proof.Machine.Tests

/-! ### Well-formed terms -/

/-- R94: CNT holds -128 .. 127, so 128 is no count of SHLC.32. -/
theorem test_wf_refuses_shlc32_128 : (Instr.shlc32 128).wf = false := by decide
/-- R94: -129 is no count of SHLC.64. -/
theorem test_wf_refuses_shlc64_neg129 : (Instr.shlc64 (-129)).wf = false := by decide
/-- R94: -129 is no count of SHRC.32. -/
theorem test_wf_refuses_shrc32_neg129 : (Instr.shrc32 (-129)).wf = false := by decide
/-- R94: 128 is no count of SHRC.64. -/
theorem test_wf_refuses_shrc64_128 : (Instr.shrc64 128).wf = false := by decide
/-- R94: the ends of the range are counts. -/
theorem test_wf_accepts_range : (Instr.shlc32 (-128)).wf = true ∧ (Instr.shrc64 127).wf = true := by decide

/-! ### Decoding -/

/-- POPCNT: the words of 30_encoding.md R96. -/
theorem test_decode_popcnt :
    decode 0x00000000 = .ok .popcnt32 ∧ decode 0x00000040 = .ok .popcnt64 ∧ decode 0x00000080 = .ok .popcntA := by decide

/-- BITLEN: the words of 30_encoding.md R96. -/
theorem test_decode_bitlen :
    decode 0x00000001 = .ok .bitlen32 ∧ decode 0x00000041 = .ok .bitlen64 ∧ decode 0x00000081 = .ok .bitlenA := by decide

/-- LOG2: the words of 30_encoding.md R96. -/
theorem test_decode_log2 :
    decode 0x00000002 = .ok .log232 ∧ decode 0x00000042 = .ok .log264 ∧ decode 0x00000082 = .ok .log2A := by decide

/-- LZC: the words of 30_encoding.md R96. -/
theorem test_decode_lzc :
    decode 0x00000003 = .ok .lzc32 ∧ decode 0x00000043 = .ok .lzc64 ∧ decode 0x00000083 = .ok .lzcA := by decide

/-- TZC: the words of 30_encoding.md R96. -/
theorem test_decode_tzc :
    decode 0x00000004 = .ok .tzc32 ∧ decode 0x00000044 = .ok .tzc64 ∧ decode 0x00000084 = .ok .tzcA := by decide

/-- FOLDR: the words of 30_encoding.md R96. -/
theorem test_decode_foldr :
    decode 0x00000005 = .ok .foldr32 ∧ decode 0x00000045 = .ok .foldr64 ∧ decode 0x00000085 = .ok .foldrA := by decide

/-- FOLDL: the words of 30_encoding.md R96. -/
theorem test_decode_foldl :
    decode 0x00000006 = .ok .foldl32 ∧ decode 0x00000046 = .ok .foldl64 ∧ decode 0x00000086 = .ok .foldlA := by decide

/-- ISPOW2: the words of 30_encoding.md R96. -/
theorem test_decode_ispow2 :
    decode 0x00000007 = .ok .ispow232 ∧ decode 0x00000047 = .ok .ispow264 ∧ decode 0x00000087 = .ok .ispow2A := by decide

/-- ROUNDUP: the words of 30_encoding.md R96, with P from R93. -/
theorem test_decode_roundup :
    decode 0x00000008 = .ok (.roundup32 false) ∧ decode 0x00000108 = .ok (.roundup32 true) ∧
    decode 0x00000048 = .ok (.roundup64 false) ∧ decode 0x00000148 = .ok (.roundup64 true) ∧
    decode 0x00000088 = .ok (.roundupA false) ∧ decode 0x00000188 = .ok (.roundupA true) := by decide

/-- ROUNDDN: the words of 30_encoding.md R96, with P from R93. -/
theorem test_decode_rounddn :
    decode 0x00000009 = .ok (.rounddn32 false) ∧ decode 0x00000109 = .ok (.rounddn32 true) ∧
    decode 0x00000049 = .ok (.rounddn64 false) ∧ decode 0x00000149 = .ok (.rounddn64 true) ∧
    decode 0x00000089 = .ok (.rounddnA false) ∧ decode 0x00000189 = .ok (.rounddnA true) := by decide

/-- ROUNDNR: the words of 30_encoding.md R96. -/
theorem test_decode_roundnr :
    decode 0x0000000A = .ok .roundnr32 ∧ decode 0x0000004A = .ok .roundnr64 ∧ decode 0x0000008A = .ok .roundnrA := by decide

/-- LSB1: the words of 30_encoding.md R96. -/
theorem test_decode_lsb1 :
    decode 0x0000000B = .ok .lsb132 ∧ decode 0x0000004B = .ok .lsb164 ∧ decode 0x0000008B = .ok .lsb1A := by decide

/-- MSB1: the words of 30_encoding.md R96. -/
theorem test_decode_msb1 :
    decode 0x0000000C = .ok .msb132 ∧ decode 0x0000004C = .ok .msb164 ∧ decode 0x0000008C = .ok .msb1A := by decide

/-- BIDXL: the words of 30_encoding.md R96. -/
theorem test_decode_bidxl :
    decode 0x0000000D = .ok .bidxl32 ∧ decode 0x0000004D = .ok .bidxl64 ∧ decode 0x0000008D = .ok .bidxlA := by decide

/-- BIDXM: the words of 30_encoding.md R96. -/
theorem test_decode_bidxm :
    decode 0x0000000E = .ok .bidxm32 ∧ decode 0x0000004E = .ok .bidxm64 ∧ decode 0x0000008E = .ok .bidxmA := by decide

/-- REVBITS: the words of 30_encoding.md R96. -/
theorem test_decode_revbits :
    decode 0x0000000F = .ok .revbits32 ∧ decode 0x0000004F = .ok .revbits64 ∧ decode 0x0000008F = .ok .revbitsA := by decide

/-- REVBYTES: the words of 30_encoding.md R96. -/
theorem test_decode_revbytes :
    decode 0x00000010 = .ok .revbytes32 ∧ decode 0x00000050 = .ok .revbytes64 := by decide

/-- SHLC: the words of 30_encoding.md R96, with CNT from R94. -/
theorem test_decode_shlc :
    decode 0x00000011 = .ok (.shlc32 0) ∧ decode 0x007F0011 = .ok (.shlc32 127) ∧
    decode 0x00800011 = .ok (.shlc32 (-128)) ∧ decode 0x00FF0011 = .ok (.shlc32 (-1)) ∧
    decode 0x00000051 = .ok (.shlc64 0) ∧ decode 0x007F0051 = .ok (.shlc64 127) ∧
    decode 0x00800051 = .ok (.shlc64 (-128)) ∧ decode 0x00FF0051 = .ok (.shlc64 (-1)) := by decide

/-- SHRC: the words of 30_encoding.md R96, with CNT from R94. -/
theorem test_decode_shrc :
    decode 0x00000012 = .ok (.shrc32 0) ∧ decode 0x007F0012 = .ok (.shrc32 127) ∧
    decode 0x00800012 = .ok (.shrc32 (-128)) ∧ decode 0x00FF0012 = .ok (.shrc32 (-1)) ∧
    decode 0x00000052 = .ok (.shrc64 0) ∧ decode 0x007F0052 = .ok (.shrc64 127) ∧
    decode 0x00800052 = .ok (.shrc64 (-128)) ∧ decode 0x00FF0052 = .ok (.shrc64 (-1)) := by decide

/-- ADPLEN: the words of 30_encoding.md R96. -/
theorem test_decode_adplen :
    decode 0x00000093 = .ok .adplenA := by decide

/-- ADPHNZ: the words of 30_encoding.md R96. -/
theorem test_decode_adphnz :
    decode 0x00000094 = .ok .adphnzA := by decide

/-- ADPLNZ: the words of 30_encoding.md R96. -/
theorem test_decode_adplnz :
    decode 0x00000095 = .ok .adplnzA := by decide

/-- One word for each reason of R100, named. The words are VE1, VE3, VR25, VA19, VE4, VE6, VE7 and VE8. -/
theorem test_decode_rejects :
    decode 0x00000016 = .error .reservedOpcode ∧ decode 0x000000C0 = .error .reservedWidthMode ∧
    decode 0x00000090 = .error .fixedWidthOnly ∧ decode 0x00000013 = .error .arbitraryOnly ∧
    decode 0x00000100 = .error .pNotAField ∧ decode 0x00010000 = .error .cntNotAField ∧
    decode 0x00000200 = .error .reservedBits ∧ decode 0x01000000 = .error .reservedBits := by decide
/-- The three examples of 30_encoding.md R96, encoded. -/
theorem test_encode_examples :
    encode (.roundup32 true) = 0x00000108 ∧ encode (.shlc64 8) = 0x00080051 ∧ encode (.shrc32 (-1)) = 0x00FF0012 := by
  decide
/-- The host's entry to the decoder reads the table's numbering (R90, R99). -/
theorem test_decodeTableWord :
    decodeTableWord 32 0x00080051 = some (.shlc64 8) ∧ decodeTableWord 32 0x00000016 = none := by decide
/-- The command text of 30_encoding.md R101. -/
theorem test_assembly :
    (Instr.roundup32 true).assembly = "ROUNDUP.32 p=1" ∧ (Instr.shrc64 (-1)).assembly = "SHRC.64 c=-1" ∧
    Instr.popcntA.assembly = "POPCNT.A" := by decide

/-! ### One step, on the vectors of the spec -/

/-- The reset state with a fixed-width operand on the ports. -/
def fixedState (a : Word64) : State :=
  { State.reset with ports := { Command.undriven with opa := a } }

/-- The reset state with an operand sequence on the ports. -/
def arbState (bs : List Byte) : State :=
  { State.reset with ports := { Command.undriven with ab := bs, alen := bs.length } }

/-- The state in which the host presents a command word next, with the operand on the ports. -/
def presented (w : Word32) (s : State) : State := s.withFetchWord 32 w.toNat

/-- VC3 of 95_test_vectors.md (R130). -/
theorem test_popcnt_32_VC3 :
    answerOf (step (presented 0x00000000 (fixedState 0xFFFFFFFF))) =
      some (Response.make .ok (.cnt 32) .empty .empty) := by decide

/-- VC5 of 95_test_vectors.md (R130). -/
theorem test_popcnt_32_VC5 :
    answerOf (step (presented 0x00000000 (fixedState 0xFFFFFFFF00000001))) =
      some (Response.make .ok (.cnt 1) .empty .empty) := by decide

/-- VC7 of 95_test_vectors.md (R130). -/
theorem test_popcnt_64_VC7 :
    answerOf (step (presented 0x00000040 (fixedState 0x8000000000000001))) =
      some (Response.make .ok (.cnt 2) .empty .empty) := by decide

/-- VC11 of 95_test_vectors.md (R130). -/
theorem test_popcnt_a_VC11 :
    answerOf (step (presented 0x00000080 (arbState [0x03, 0x00, 0x00, 0x00, 0x00, 0x01]))) =
      some (Response.make .ok (.cnt 3) .empty .empty) := by decide

/-- VC13 of 95_test_vectors.md (R130). -/
theorem test_popcnt_a_VC13 :
    answerOf (step (presented 0x00000080 (arbState [0xFF]))) =
      some (Response.make .invalidArgument .empty .empty .empty) := by decide

/-- VC21 of 95_test_vectors.md (R132). -/
theorem test_bitlen_32_VC21 :
    answerOf (step (presented 0x00000001 (fixedState 0x7FFFFFFF))) =
      some (Response.make .ok (.cnt 31) .empty .empty) := by decide

/-- VC22 of 95_test_vectors.md (R132). -/
theorem test_bitlen_32_VC22 :
    answerOf (step (presented 0x00000001 (fixedState 0x80000000))) =
      some (Response.make .ok (.cnt 32) .empty .empty) := by decide

/-- VC25 of 95_test_vectors.md (R132). -/
theorem test_bitlen_64_VC25 :
    answerOf (step (presented 0x00000041 (fixedState 0x4000000000000000))) =
      some (Response.make .ok (.cnt 63) .empty .empty) := by decide

/-- VC29 of 95_test_vectors.md (R132). -/
theorem test_bitlen_a_VC29 :
    answerOf (step (presented 0x00000081 (arbState [0x00, 0x01]))) =
      some (Response.make .ok (.cnt 9) .empty .empty) := by decide

/-- VC31 of 95_test_vectors.md (R132). -/
theorem test_bitlen_a_VC31 :
    answerOf (step (presented 0x00000081 (arbState [0x00, 0xFF]))) =
      some (Response.make .ok (.cnt (-1)) .empty .empty) := by decide

/-- VC36 of 95_test_vectors.md (R134). -/
theorem test_log2_32_VC36 :
    answerOf (step (presented 0x00000002 (fixedState 0x00F00000))) =
      some (Response.make .ok (.cnt 23) .empty .empty) := by decide

/-- VC38 of 95_test_vectors.md (R134). -/
theorem test_log2_32_VC38 :
    answerOf (step (presented 0x00000002 (fixedState 0x80000000))) =
      some (Response.make .invalidArgument .empty .empty .empty) := by decide

/-- VC39 of 95_test_vectors.md (R134). -/
theorem test_log2_64_VC39 :
    answerOf (step (presented 0x00000042 (fixedState 0x0000010000000000))) =
      some (Response.make .ok (.cnt 40) .empty .empty) := by decide

/-- VC40 of 95_test_vectors.md (R134). -/
theorem test_log2_64_VC40 :
    answerOf (step (presented 0x00000042 (fixedState 0x8000000000000000))) =
      some (Response.make .invalidArgument .empty .empty .empty) := by decide

/-- VC44 of 95_test_vectors.md (R134). -/
theorem test_log2_a_VC44 :
    answerOf (step (presented 0x00000082 (arbState [0x00, 0x00, 0x00, 0x00, 0x00, 0x00, 0x00, 0x00, 0x00, 0x00, 0x00, 0x00, 0x10]))) =
      some (Response.make .ok (.cnt 100) .empty .empty) := by decide

/-- VC45 of 95_test_vectors.md (R134). -/
theorem test_log2_a_VC45 :
    answerOf (step (presented 0x00000082 (arbState [0xFF]))) =
      some (Response.make .invalidArgument .empty .empty .empty) := by decide

/-- VC48 of 95_test_vectors.md (R136). -/
theorem test_lzc_32_VC48 :
    answerOf (step (presented 0x00000003 (fixedState 0x00F00000))) =
      some (Response.make .ok (.cnt 8) .empty .empty) := by decide

/-- VC46 of 95_test_vectors.md (R136). -/
theorem test_lzc_32_VC46 :
    answerOf (step (presented 0x00000003 (fixedState 0x00000000))) =
      some (Response.make .ok (.cnt 32) .empty .empty) := by decide

/-- VC52 of 95_test_vectors.md (R136). -/
theorem test_lzc_64_VC52 :
    answerOf (step (presented 0x00000043 (fixedState 0x0000000000000001))) =
      some (Response.make .ok (.cnt 63) .empty .empty) := by decide

/-- VC61 of 95_test_vectors.md (R136). -/
theorem test_lzc_a_VC61 :
    answerOf (step (presented 0x00000083 (arbState [0x00, 0x00, 0x00, 0x00, 0x01]))) =
      some (Response.make .ok (.cnt 31) .empty .empty) := by decide

/-- VC62 of 95_test_vectors.md (R136). -/
theorem test_lzc_a_VC62 :
    answerOf (step (presented 0x00000083 (arbState [0xFF]))) =
      some (Response.make .invalidArgument .empty .empty .empty) := by decide

/-- VC64 of 95_test_vectors.md (R138). -/
theorem test_tzc_32_VC64 :
    answerOf (step (presented 0x00000004 (fixedState 0x00F00000))) =
      some (Response.make .ok (.cnt 20) .empty .empty) := by decide

/-- VC63 of 95_test_vectors.md (R138). -/
theorem test_tzc_32_VC63 :
    answerOf (step (presented 0x00000004 (fixedState 0x00000000))) =
      some (Response.make .ok (.cnt 32) .empty .empty) := by decide

/-- VC68 of 95_test_vectors.md (R138). -/
theorem test_tzc_64_VC68 :
    answerOf (step (presented 0x00000044 (fixedState 0x8000000000000000))) =
      some (Response.make .ok (.cnt 63) .empty .empty) := by decide

/-- VC71 of 95_test_vectors.md (R138). -/
theorem test_tzc_a_VC71 :
    answerOf (step (presented 0x00000084 (arbState [0xFC]))) =
      some (Response.make .ok (.cnt 2) .empty .empty) := by decide

/-- VC69 of 95_test_vectors.md (R138). -/
theorem test_tzc_a_VC69 :
    answerOf (step (presented 0x00000084 (arbState [0x00]))) =
      some (Response.make .ok (.cnt (-1)) .empty .empty) := by decide

/-- VF4 of 95_test_vectors.md (R170). -/
theorem test_foldr_32_VF4 :
    answerOf (step (presented 0x00000005 (fixedState 0x00F00100))) =
      some (Response.make .ok (.fix 0x00FFFFFF) .empty .empty) := by decide

/-- VF3 of 95_test_vectors.md (R170). -/
theorem test_foldr_32_VF3 :
    answerOf (step (presented 0x00000005 (fixedState 0x80000000))) =
      some (Response.make .ok (.fix 0xFFFFFFFF) .empty .empty) := by decide

/-- VF5 of 95_test_vectors.md (R170). -/
theorem test_foldr_64_VF5 :
    answerOf (step (presented 0x00000045 (fixedState 0x0000010000000000))) =
      some (Response.make .ok (.fix 0x000001FFFFFFFFFF) .empty .empty) := by decide

/-- VF7 of 95_test_vectors.md (R170). -/
theorem test_foldr_a_VF7 :
    answerOf (step (presented 0x00000085 (arbState [0x80, 0x00]))) =
      some (Response.make .ok (.arb 255) .empty .empty) := by decide

/-- VF9 of 95_test_vectors.md (R170). -/
theorem test_foldr_a_VF9 :
    answerOf (step (presented 0x00000085 (arbState [0xFF]))) =
      some (Response.make .invalidArgument .empty .empty .empty) := by decide

/-- VF10 of 95_test_vectors.md (R172). -/
theorem test_foldl_32_VF10 :
    answerOf (step (presented 0x00000006 (fixedState 0x00F00100))) =
      some (Response.make .ok (.fix 0x00FFFF00) .empty .empty) := by decide

/-- VF13 of 95_test_vectors.md (R172). -/
theorem test_foldl_32_VF13 :
    answerOf (step (presented 0x00000006 (fixedState 0x80000000))) =
      some (Response.make .ok (.fix 0x80000000) .empty .empty) := by decide

/-- VF15 of 95_test_vectors.md (R172). -/
theorem test_foldl_64_VF15 :
    answerOf (step (presented 0x00000046 (fixedState 0x0000010000000100))) =
      some (Response.make .ok (.fix 0x000001FFFFFFFF00) .empty .empty) := by decide

/-- VF17 of 95_test_vectors.md (R172). -/
theorem test_foldl_a_VF17 :
    answerOf (step (presented 0x00000086 (arbState [0x50]))) =
      some (Response.make .ok (.arb 112) .empty .empty) := by decide

/-- VF18 of 95_test_vectors.md (R172). -/
theorem test_foldl_a_VF18 :
    answerOf (step (presented 0x00000086 (arbState [0x00]))) =
      some (Response.make .ok (.arb 0) .empty .empty) := by decide

/-- VF24 of 95_test_vectors.md (R174). -/
theorem test_ispow2_32_VF24 :
    answerOf (step (presented 0x00000007 (fixedState 0x40000000))) =
      some (Response.make .ok (.cnt 1) .empty .empty) := by decide

/-- VF25 of 95_test_vectors.md (R174). -/
theorem test_ispow2_32_VF25 :
    answerOf (step (presented 0x00000007 (fixedState 0x80000000))) =
      some (Response.make .ok (.cnt 0) .empty .empty) := by decide

/-- VF27 of 95_test_vectors.md (R174). -/
theorem test_ispow2_64_VF27 :
    answerOf (step (presented 0x00000047 (fixedState 0x4000000000000000))) =
      some (Response.make .ok (.cnt 1) .empty .empty) := by decide

/-- VF28 of 95_test_vectors.md (R174). -/
theorem test_ispow2_64_VF28 :
    answerOf (step (presented 0x00000047 (fixedState 0x8000000000000000))) =
      some (Response.make .ok (.cnt 0) .empty .empty) := by decide

/-- VF29 of 95_test_vectors.md (R174). -/
theorem test_ispow2_a_VF29 :
    answerOf (step (presented 0x00000087 (arbState [0x00, 0x00, 0x00, 0x00, 0x00, 0x00, 0x00, 0x00, 0x00, 0x00, 0x00, 0x00, 0x10]))) =
      some (Response.make .ok (.cnt 1) .empty .empty) := by decide

/-- VF30 of 95_test_vectors.md (R174). -/
theorem test_ispow2_a_VF30 :
    answerOf (step (presented 0x00000087 (arbState [0xF8]))) =
      some (Response.make .ok (.cnt 0) .empty .empty) := by decide

/-- VF38 of 95_test_vectors.md (R176). -/
theorem test_roundup_32_VF38 :
    answerOf (step (presented 0x00000008 (fixedState 0x40000001))) =
      some (Response.make .ok (.fix 0x80000000) .empty .empty) := by decide

/-- VF33 of 95_test_vectors.md (R176). -/
theorem test_roundup_32_VF33 :
    answerOf (step (presented 0x00000108 (fixedState 0x00000008))) =
      some (Response.make .ok (.fix 0x00000010) .empty .empty) := by decide

/-- VF42 of 95_test_vectors.md (R176). -/
theorem test_roundup_64_VF42 :
    answerOf (step (presented 0x00000048 (fixedState 0x4000000000000001))) =
      some (Response.make .ok (.fix 0x8000000000000000) .empty .empty) := by decide

/-- VF43 of 95_test_vectors.md (R176). -/
theorem test_roundup_a_VF43 :
    answerOf (step (presented 0x00000088 (arbState [0x41]))) =
      some (Response.make .ok (.arb 128) .empty .empty) := by decide

/-- VF45 of 95_test_vectors.md (R176). -/
theorem test_roundup_a_VF45 :
    answerOf (step (presented 0x00000088 (arbState [0xFB]))) =
      some (Response.make .invalidArgument .empty .empty .empty) := by decide

/-- VF52 of 95_test_vectors.md (R178). -/
theorem test_rounddn_32_VF52 :
    answerOf (step (presented 0x00000009 (fixedState 0x7FFFFFFF))) =
      some (Response.make .ok (.fix 0x40000000) .empty .empty) := by decide

/-- VF49 of 95_test_vectors.md (R178). -/
theorem test_rounddn_32_VF49 :
    answerOf (step (presented 0x00000109 (fixedState 0x00000001))) =
      some (Response.make .ok (.fix 0x00000000) .empty .empty) := by decide

/-- By hand from R178: the power of two below 2^62 + 1 is 2^62. -/
theorem test_rounddn_64 :
    answerOf (step (presented 0x00000049 (fixedState 0x4000000000000001))) =
      some (Response.make .ok (.fix 0x4000000000000000) .empty .empty) := by decide

/-- VF53 of 95_test_vectors.md (R178). -/
theorem test_rounddn_a_VF53 :
    answerOf (step (presented 0x00000089 (arbState [0xE8, 0x03]))) =
      some (Response.make .ok (.arb 512) .empty .empty) := by decide

/-- VF54 of 95_test_vectors.md (R178). -/
theorem test_rounddn_a_VF54 :
    answerOf (step (presented 0x00000089 (arbState [0x00]))) =
      some (Response.make .invalidArgument .empty .empty .empty) := by decide

/-- VF58 of 95_test_vectors.md (R180). -/
theorem test_roundnr_32_VF58 :
    answerOf (step (presented 0x0000000A (fixedState 0x00000006))) =
      some (Response.make .ok (.fix 0x00000008) (.fix 0x00000008) (.fix 0x00000004)) := by decide

/-- VF55 of 95_test_vectors.md (R180). -/
theorem test_roundnr_32_VF55 :
    answerOf (step (presented 0x0000000A (fixedState 0x00000001))) =
      some (Response.make .ok (.fix 0x00000001) (.fix 0x00000001) (.fix 0x00000000)) := by decide

/-- VF63 of 95_test_vectors.md (R180). -/
theorem test_roundnr_64_VF63 :
    answerOf (step (presented 0x0000004A (fixedState 0x0000000000000003))) =
      some (Response.make .ok (.fix 0x0000000000000004) (.fix 0x0000000000000004) (.fix 0x0000000000000002)) := by decide

/-- VF64 of 95_test_vectors.md (R180). -/
theorem test_roundnr_a_VF64 :
    answerOf (step (presented 0x0000008A (arbState [0x05]))) =
      some (Response.make .ok (.arb 4) (.arb 8) (.arb 4)) := by decide

/-- VF66 of 95_test_vectors.md (R180). -/
theorem test_roundnr_a_VF66 :
    answerOf (step (presented 0x0000008A (arbState [0x00]))) =
      some (Response.make .invalidArgument .empty .empty .empty) := by decide

/-- VI2 of 95_test_vectors.md (R210). -/
theorem test_lsb1_32_VI2 :
    answerOf (step (presented 0x0000000B (fixedState 0x00F00000))) =
      some (Response.make .ok (.fix 0x00100000) .empty .empty) := by decide

/-- VI3 of 95_test_vectors.md (R210). -/
theorem test_lsb1_32_VI3 :
    answerOf (step (presented 0x0000000B (fixedState 0x80000000))) =
      some (Response.make .ok (.fix 0x80000000) .empty .empty) := by decide

/-- VI6 of 95_test_vectors.md (R210). -/
theorem test_lsb1_64_VI6 :
    answerOf (step (presented 0x0000004B (fixedState 0xFFFFFFFF00000000))) =
      some (Response.make .ok (.fix 0x0000000100000000) .empty .empty) := by decide

/-- VI7 of 95_test_vectors.md (R210). -/
theorem test_lsb1_a_VI7 :
    answerOf (step (presented 0x0000008B (arbState [0x80]))) =
      some (Response.make .ok (.arb 128) .empty .empty) := by decide

/-- VI8 of 95_test_vectors.md (R210). -/
theorem test_lsb1_a_VI8 :
    answerOf (step (presented 0x0000008B (arbState [0xF4]))) =
      some (Response.make .ok (.arb 4) .empty .empty) := by decide

/-- VI12 of 95_test_vectors.md (R212). -/
theorem test_msb1_32_VI12 :
    answerOf (step (presented 0x0000000C (fixedState 0x00F00000))) =
      some (Response.make .ok (.fix 0x00800000) .empty .empty) := by decide

/-- VI13 of 95_test_vectors.md (R212). -/
theorem test_msb1_32_VI13 :
    answerOf (step (presented 0x0000000C (fixedState 0xFFFFFFFF))) =
      some (Response.make .ok (.fix 0x80000000) .empty .empty) := by decide

/-- VI15 of 95_test_vectors.md (R212). -/
theorem test_msb1_64_VI15 :
    answerOf (step (presented 0x0000004C (fixedState 0x00000000FFFFFFFF))) =
      some (Response.make .ok (.fix 0x0000000080000000) .empty .empty) := by decide

/-- VI17 of 95_test_vectors.md (R212). -/
theorem test_msb1_a_VI17 :
    answerOf (step (presented 0x0000008C (arbState [0xFF, 0x00]))) =
      some (Response.make .ok (.arb 128) .empty .empty) := by decide

/-- VI19 of 95_test_vectors.md (R212). -/
theorem test_msb1_a_VI19 :
    answerOf (step (presented 0x0000008C (arbState [0xFD]))) =
      some (Response.make .invalidArgument .empty .empty .empty) := by decide

/-- VI22 of 95_test_vectors.md (R214). -/
theorem test_bidxl_32_VI22 :
    answerOf (step (presented 0x0000000D (fixedState 0x80000000))) =
      some (Response.make .ok (.cnt 31) .empty .empty) := by decide

/-- VI27 of 95_test_vectors.md (R214). -/
theorem test_bidxl_64_VI27 :
    answerOf (step (presented 0x0000004D (fixedState 0x0000010000000000))) =
      some (Response.make .ok (.cnt 40) .empty .empty) := by decide

/-- VI31 of 95_test_vectors.md (R214). -/
theorem test_bidxl_a_VI31 :
    answerOf (step (presented 0x0000008D (arbState [0x00, 0x00, 0x00, 0x00, 0x01]))) =
      some (Response.make .ok (.cnt 32) .empty .empty) := by decide

/-- VI37 of 95_test_vectors.md (R215). -/
theorem test_bidxm_32_VI37 :
    answerOf (step (presented 0x0000000E (fixedState 0x00800000))) =
      some (Response.make .ok (.cnt 23) .empty .empty) := by decide

/-- VI44 of 95_test_vectors.md (R215). -/
theorem test_bidxm_64_VI44 :
    answerOf (step (presented 0x0000004E (fixedState 0x8000000000000000))) =
      some (Response.make .ok (.cnt 63) .empty .empty) := by decide

/-- VI46 of 95_test_vectors.md (R215). -/
theorem test_bidxm_a_VI46 :
    answerOf (step (presented 0x0000008E (arbState [0x00, 0x01]))) =
      some (Response.make .ok (.cnt 8) .empty .empty) := by decide

/-- VR3 of 95_test_vectors.md (R240). -/
theorem test_revbits_32_VR3 :
    answerOf (step (presented 0x0000000F (fixedState 0x12345678))) =
      some (Response.make .ok (.fix 0x1E6A2C48) .empty .empty) := by decide +kernel

/-- VR7 of 95_test_vectors.md (R240). -/
theorem test_revbits_64_VR7 :
    answerOf (step (presented 0x0000004F (fixedState 0x0123456789ABCDEF))) =
      some (Response.make .ok (.fix 0xF7B3D591E6A2C480) .empty .empty) := by decide +kernel

/-- VR16 of 95_test_vectors.md (R245). -/
theorem test_revbits_a_VR16 :
    answerOf (step (presented 0x0000008F (arbState [0x80, 0x00]))) =
      some (Response.make .ok (.arb 256) .empty .empty) := by decide

/-- VR20 of 95_test_vectors.md (R245). -/
theorem test_revbits_a_VR20 :
    answerOf (step (presented 0x0000008F (arbState [0x7F, 0xFF]))) =
      some (Response.make .ok (.arb (-257)) .empty .empty) := by decide

/-- VR22 of 95_test_vectors.md (R246). -/
theorem test_revbytes_32_VR22 :
    answerOf (step (presented 0x00000010 (fixedState 0x12345678))) =
      some (Response.make .ok (.fix 0x78563412) .empty .empty) := by decide

/-- VR24 of 95_test_vectors.md (R246). -/
theorem test_revbytes_64_VR24 :
    answerOf (step (presented 0x00000050 (fixedState 0x0123456789ABCDEF))) =
      some (Response.make .ok (.fix 0xEFCDAB8967452301) .empty .empty) := by decide

/-- VR30 of 95_test_vectors.md (R247). -/
theorem test_shlc_32_VR30 :
    answerOf (step (presented 0x001F0011 (fixedState 0xFFFFFFFF))) =
      some (Response.make .ok (.fix 0x80000000) (.fix 0x7FFFFFFF) .empty) := by decide

/-- VR28 of 95_test_vectors.md (R247). -/
theorem test_shlc_32_VR28 :
    answerOf (step (presented 0x00200011 (fixedState 0x12345678))) =
      some (Response.make .ok (.fix 0x00000000) (.fix 0x12345678) .empty) := by decide

/-- VR33 of 95_test_vectors.md (R247). -/
theorem test_shlc_64_VR33 :
    answerOf (step (presented 0x00080051 (fixedState 0x80000000000000FF))) =
      some (Response.make .ok (.fix 0x000000000000FF00) (.fix 0x0000000000000080) .empty) := by decide

/-- VR36 of 95_test_vectors.md (R247). -/
theorem test_shlc_64_VR36 :
    answerOf (step (presented 0x00410051 (fixedState 0x0000000000000001))) =
      some (Response.make .invalidArgument .empty .empty .empty) := by decide

/-- VR39 of 95_test_vectors.md (R248). -/
theorem test_shrc_32_VR39 :
    answerOf (step (presented 0x001F0012 (fixedState 0xFFFFFFFF))) =
      some (Response.make .ok (.fix 0x00000001) (.fix 0xFFFFFFFE) .empty) := by decide

/-- VR41 of 95_test_vectors.md (R248). -/
theorem test_shrc_32_VR41 :
    answerOf (step (presented 0x00200012 (fixedState 0x12345678))) =
      some (Response.make .ok (.fix 0x00000000) (.fix 0x12345678) .empty) := by decide

/-- VR43 of 95_test_vectors.md (R248). -/
theorem test_shrc_64_VR43 :
    answerOf (step (presented 0x00080052 (fixedState 0x80000000000000FF))) =
      some (Response.make .ok (.fix 0x0080000000000000) (.fix 0xFF00000000000000) .empty) := by decide

/-- VR45 of 95_test_vectors.md (R248). -/
theorem test_shrc_64_VR45 :
    answerOf (step (presented 0x007F0052 (fixedState 0xFFFFFFFFFFFFFFFF))) =
      some (Response.make .invalidArgument .empty .empty .empty) := by decide

/-- VA3 of 95_test_vectors.md (R284). -/
theorem test_adplen_a_VA3 :
    answerOf (step (presented 0x00000093 (arbState [0x80, 0x00]))) =
      some (Response.make .ok (.cnt 2) .empty .empty) := by decide

/-- VA4 of 95_test_vectors.md (R284). -/
theorem test_adplen_a_VA4 :
    answerOf (step (presented 0x00000093 (arbState [0x80]))) =
      some (Response.make .ok (.cnt 1) .empty .empty) := by decide

/-- VA11 of 95_test_vectors.md (R285). -/
theorem test_adphnz_a_VA11 :
    answerOf (step (presented 0x00000094 (arbState [0x7F, 0xFF]))) =
      some (Response.make .ok (.cnt 1) (.cnt 255) .empty) := by decide

/-- VA13 of 95_test_vectors.md (R285). -/
theorem test_adphnz_a_VA13 :
    answerOf (step (presented 0x00000094 (arbState [0x80, 0x00]))) =
      some (Response.make .ok (.cnt 0) (.cnt 128) .empty) := by decide

/-- VA15 of 95_test_vectors.md (R286). -/
theorem test_adplnz_a_VA15 :
    answerOf (step (presented 0x00000095 (arbState [0x7F, 0xFF]))) =
      some (Response.make .ok (.cnt 0) (.cnt 127) .empty) := by decide

/-- VA14 of 95_test_vectors.md (R286). -/
theorem test_adplnz_a_VA14 :
    answerOf (step (presented 0x00000095 (arbState [0x00]))) =
      some (Response.make .ok (.cnt (-1)) (.cnt 0) .empty) := by decide

/-- VE9 of 95_test_vectors.md (60_exceptions.md R304): an illegal word before a missing operand. -/
theorem test_priority_VE9 :
    answerOf (step (presented 0x00000097 (arbState []))) =
      some (Response.make .illegalCommand .empty .empty .empty) := by decide

/-- VE10 of 95_test_vectors.md (60_exceptions.md R304): a missing operand. -/
theorem test_priority_VE10 :
    answerOf (step (presented 0x00000080 (arbState []))) =
      some (Response.make .missingInput .empty .empty .empty) := by decide

/-- VE12 of 95_test_vectors.md (60_exceptions.md R304): minimality before the sign check. -/
theorem test_priority_VE12 :
    answerOf (step (presented 0x00000082 (arbState [0xFF, 0xFF]))) =
      some (Response.make .invalidArgument .empty .empty .empty) := by decide

/-- VE14 of 95_test_vectors.md (60_exceptions.md R304): a count that decodes and is out of range. -/
theorem test_priority_VE14 :
    answerOf (step (presented 0x00FF0012 (fixedState 0x0000000000000000))) =
      some (Response.make .invalidArgument .empty .empty .empty) := by decide

/-- VI23, VI24 (42_isolate_index.md R213, R214): off the precondition BIDXL.32 answers OK with some index in 0 .. 31. -/
theorem test_bidxl_32_unspecified : ∃ k ≤ 31,
    answerOf (step (presented 0x0000000D (fixedState 6))) = some (Response.make .ok (.cnt (k : Nat)) .empty .empty) :=
  ⟨_, drawIndex_le _ .bidxl32 6 31, rfl⟩
/-- VI51 (R215): off the precondition BIDXM.A answers OK with some index in 0 .. 8*N_ARB_MAX + 23. -/
theorem test_bidxm_A_unspecified : ∃ k ≤ 8 * State.reset.nArbMax + 23,
    answerOf (step (presented 0x0000008E (arbState [0xFF]))) =
      some (Response.make .ok (.cnt (k : Nat)) .empty .empty) :=
  ⟨_, drawIndex_le _ .bidxmA (-1) _, rfl⟩
/-- With no command presented there is no step (log 2). -/
theorem test_no_command : step State.reset = .refused .noCommand := by rfl
/-- R37, R305: an operand longer than the port is no input (log 10); a fixed-width command ignores ALEN. -/
theorem test_operand_too_long :
    step (presented 0x00000080 { arbState [1] with nArbMax := 0 }) = .refused .operandTooLong ∧
    answerOf (step (presented 0x00000000 { arbState [1] with nArbMax := 0 })) =
      some (Response.make .ok (.cnt 0) .empty .empty) := by
  exact ⟨rfl, by decide⟩

/-! ### Witnesses: states and operands that meet the hypotheses of each statement, at the ends of their ranges -/

/-- The reset state with the minimal sequence of an integer on the ports. -/
def arbOf (v : Int) : State := arbState (bytes v)

theorem arbOf_operand {v : Int} (h : byteLen v ≤ 64) : (arbOf v).arbOperand v := by
  refine ⟨by simpa [arbOf, arbState] using (show byteLen v ≤ State.reset.nArbMax from h), ?_⟩
  apply List.ext_getElem
  · simp [arbOf, arbState]
  · intro k _ h2
    simp [arbOf, arbState, Command.operandBytes, List.getD_eq_getElem?_getD, List.getElem?_eq_getElem h2]

theorem isBitLength_of {n m : Nat} (h : bitLength n = m) : IsBitLength n m := h ▸ isBitLength_bitLength n

theorem isTrailing_of {v : Int} {k : Nat} (hv : v ≠ 0) (h : ctz v = k) : IsTrailing v k := h ▸ isTrailing_ctz hv

theorem isLowestBit_of {w k : Nat} {a : BitVec w} (ha : a ≠ 0) (h : ctzW a = k) : IsLowestBit a k :=
  h ▸ isLowestBit_ctzW ha

theorem isHighestBit_of {w k : Nat} {a : BitVec w} (ha : a ≠ 0) (h : bitLength a.toNat - 1 = k) : IsHighestBit a k :=
  h ▸ isHighestBit_bitLength ha

theorem isLeastPowerAtOrAbove_of {x : Int} {k : Nat} (h : x ≤ (2 : Int) ^ k) (below : ∀ j, j < k → ¬ x ≤ (2 : Int) ^ j) :
    IsLeastPowerAtOrAbove x k := ⟨h, fun j hj => Nat.le_of_not_lt fun hlt => below j hlt hj⟩

theorem isLeastPowerAbove_of {x : Int} {k : Nat} (h : x < (2 : Int) ^ k) (below : ∀ j, j < k → ¬ x < (2 : Int) ^ j) :
    IsLeastPowerAbove x k := ⟨h, fun j hj => Nat.le_of_not_lt fun hlt => below j hlt hj⟩

theorem two_pow_le_of_lt {j k : Nat} (h : (2 : Int) ^ j < (2 : Int) ^ (k + 1)) : j ≤ k :=
  Nat.le_of_lt_succ ((pow_lt_pow_iff_right₀ (by norm_num : (1 : Int) < 2)).1 h)

theorem isGreatestPowerAtOrBelow_of {x : Int} {k : Nat} (h : (2 : Int) ^ k ≤ x) (above : x < (2 : Int) ^ (k + 1)) :
    IsGreatestPowerAtOrBelow x k := ⟨h, fun _ hj => two_pow_le_of_lt (lt_of_le_of_lt hj above)⟩

theorem isGreatestPowerBelow_of {x : Int} {k : Nat} (h : (2 : Int) ^ k < x) (above : x ≤ (2 : Int) ^ (k + 1)) :
    IsGreatestPowerBelow x k := ⟨h, fun _ hj => two_pow_le_of_lt (lt_of_lt_of_le hj above)⟩

/-- A state in which the host presents two commands: POPCNT.32, then BITLEN.A with an operand as long as the port. -/
def twoCommands : State :=
  { State.reset with
    nArbMax := 2
    pending := [⟨0x00000000, 11, [], 0⟩, ⟨0x00000081, 0, [0x00, 0x80], 2⟩] }

/-! Tables, reset, decoding. -/

theorem witness_Log2TableHoldsHighestBit : (1 : Byte) ≠ 0 ∧ (255 : Byte) ≠ 0 := by decide
theorem witness_Rev8TableReversesBytes : 0 < 8 ∧ 7 < 8 := by decide
theorem witness_LsbTableGivesIndexOfIsolatedBit : 0 < 32 ∧ 31 < 32 := by decide
theorem witness_MsbTableGivesIndexOfFoldResult : 0 < 32 ∧ 31 < 32 := by decide
theorem witness_ResetHasRomsAndNoResponse :
    decode 0x00000080 = .ok .popcntA ∧ (⟨0x00000080, 0, [], 64⟩ : Command).alen ≤ State.reset.nArbMax := by decide
theorem witness_DecodeOfEncode : (Instr.shlc32 (-128)).wf = true ∧ (Instr.shrc64 127).wf = true := by decide
theorem witness_EncodeOfDecode : decode 0x00FF0012 = .ok (.shrc32 (-1)) := by decide
/-- Each condition of R97 at an end of its range, and words at the other side of each. -/
theorem witness_IllegalWordsComplete :
    twoCommands.pending = ⟨0, 11, [], 0⟩ :: [⟨0x81, 0, [0x00, 0x80], 2⟩] ∧
    (∀ w, w ∈ ([0x16, 0x3F, 0xC0, 0x90, 0x53, 0x0107, 0x010A, 0x00010010, 0x00FF0093, 0x0200, 0x8000, 0x01000000,
      0x80000000] : List Word32) → IllegalWord w) ∧
    ∀ w, w ∈ ([0x95, 0x8F, 0x50, 0x0189, 0x00FF0052] : List Word32) → ¬ IllegalWord w := by
  refine ⟨rfl, ?_, ?_⟩ <;> simp [IllegalWord]

/-! The step and runs. -/

theorem witness_StepRunsDecoded :
    twoCommands.pending = ⟨0, 11, [], 0⟩ :: [⟨0x81, 0, [0x00, 0x80], 2⟩] ∧ decode 0 = .ok .popcnt32 := by decide
/-- A command as long as the port, and two states that present it and differ in their operands so far. -/
theorem witness_EveryCommandCompletes :
    let c : Command := ⟨0x81, 0, [0x00, 0x80], 2⟩
    let s : State := { twoCommands with pending := [c] }
    let s' : State := { fixedState 5 with nArbMax := 2, draws := 3, pending := [c, c] }
    c.carried s.nArbMax ∧ s.nArbMax = s'.nArbMax ∧ (∃ t r, step s = .next t ∧ t.response = some r) ∧
      ∃ t r, step s' = .next t ∧ t.response = some r :=
  ⟨by unfold Command.carried; decide, rfl, ⟨_, _, rfl, rfl⟩, ⟨_, _, rfl, rfl⟩⟩
theorem inv_reset : State.reset.Inv := ⟨by decide, fun r h => by cases h⟩
theorem witness_StepKeepsInvariant :
    (presented 0x0000008B (arbState [0x80])).Inv ∧ ∃ t, step (presented 0x0000008B (arbState [0x80])) = .next t :=
  ⟨⟨by decide, fun r h => by cases h⟩, _, rfl⟩
theorem witness_CommandFrame :
    (∃ t, exec .bidxl32 (fixedState 6) = .next t ∧ t.draws = 1) ∧ MayDraw .bidxl32 ∧
    (∃ t, exec .popcntA (arbOf 3) = .next t) ∧ ¬ MayDraw .popcntA ∧ ∃ t, step twoCommands = .next t :=
  ⟨⟨_, rfl, rfl⟩, by unfold MayDraw; decide, ⟨_, rfl⟩, by unfold MayDraw; decide, ⟨_, rfl⟩⟩
theorem witness_ResponseDependsOnCommandAlone :
    let c : Command := ⟨0x0D, 6, [], 0⟩
    let s : State := { twoCommands with pending := [c] }
    let s' : State := { fixedState 5 with nArbMax := 2, pending := [c, c] }
    s.nArbMax = s'.nArbMax ∧ s.draws = s'.draws ∧ ∃ t, step s = .next t :=
  ⟨rfl, rfl, _, rfl⟩
theorem witness_RunAnswersEachCommandAlone :
    twoCommands.pending = [⟨0, 11, [], 0⟩] ++ (⟨0x81, 0, [0x00, 0x80], 2⟩ : Command) :: [] ∧
      ∃ t, Sys2Proof.core.run 2 twoCommands = .next t := ⟨rfl, _, rfl⟩
theorem witness_RunTakesEveryCommand :
    twoCommands.pending = [⟨0, 11, [], 0⟩] ++ [(⟨0x81, 0, [0x00, 0x80], 2⟩ : Command)] ∧
      ∀ x, x ∈ twoCommands.pending → x.carried twoCommands.nArbMax := by
  unfold Command.carried
  decide

/-! Status. -/

/-- One state for each clause: an illegal word, no bytes, a redundant top byte (0x00 and 0xFF), and beside the ends of each
domain. -/
theorem witness_StatusFollowsPriority :
    (IllegalWord 0x97 ∧ ∃ t r, step (presented 0x97 (arbState [])) = .next t ∧ t.response = some r) ∧
    (Instr.popcntA.width = .arb ∧ ∃ t r, step (presented 0x80 (arbState [])) = .next t ∧ t.response = some r) ∧
    (RedundantTop (arbState [0x7F, 0x00]).ports.operandBytes ∧ RedundantTop (arbState [0x80, 0xFF]).ports.operandBytes ∧
      ∃ t r, step (presented 0x80 (arbState [0x80, 0xFF])) = .next t ∧ t.response = some r) ∧
    (¬ RedundantTop (arbState [0x80, 0x00]).ports.operandBytes ∧
      ¬ RedundantTop (arbState [0x7F, 0xFF]).ports.operandBytes) ∧
    (OutsideDomain .popcntA (arbState [0xFF]) ∧ ¬ OutsideDomain .popcntA (arbState [0x00])) ∧
    (OutsideDomain .log232 (fixedState 0x80000000) ∧ ¬ OutsideDomain .log232 (fixedState 0)) ∧
    (OutsideDomain (.roundup32 false) (fixedState 0) ∧ ¬ OutsideDomain (.roundup32 false) (fixedState 1)) ∧
    (OutsideDomain (.shlc32 33) (fixedState 0) ∧ OutsideDomain (.shrc64 (-1)) (fixedState 0) ∧
      ¬ OutsideDomain (.shlc32 32) (fixedState 0) ∧ ¬ OutsideDomain (.shrc64 64) (fixedState 0)) := by
  unfold IllegalWord RedundantTop OutsideDomain
  exact ⟨⟨by decide, _, _, rfl, rfl⟩, ⟨rfl, _, _, rfl, rfl⟩, ⟨by decide, by decide, _, _, rfl, rfl⟩, by decide, by decide,
    by decide, by decide, by decide⟩
theorem witness_ErrorSlotsAreEmpty :
    ∃ t r, step (presented 0x80 (arbState [])) = .next t ∧ t.response = some r ∧ r.status ≠ .ok :=
  ⟨_, _, rfl, rfl, by decide⟩
theorem witness_MissingInputAndOverlongOperand :
    (Instr.adplenA.width = .arb ∧ (arbState []).ports.alen = 0) ∧ Instr.tzc32.width ≠ .arb ∧
    (Instr.bidxmA.width = .arb ∧ ({ arbState [1, 0] with nArbMax := 1 } : State).nArbMax < 2) := by decide
/-- Operands that agree where the command reads and differ elsewhere. -/
theorem witness_CommandReadsItsOperandOnly :
    (Instr.bidxl32.width = .w32 ∧ ∀ k, k < 32 → (0xFFFFFFFF80000001 : Word64).getLsbD k =
      (fixedState 0x80000001).ports.opa.getLsbD k) ∧
    (Instr.revbits64.width = .w64 ∧ (⟨1, 7, [2], 3⟩ : Command).opa = (fixedState 7).ports.opa) ∧
    (Instr.revbitsA.width = .arb ∧ (⟨1, 7, [0x80, 0x01, 0x05], 2⟩ : Command).alen = (arbState [0x80, 0x01]).ports.alen ∧
      (∀ k, k < 2 → [0x80, 0x01, 0x05].getD k (0 : Byte) = (arbState [0x80, 0x01]).ports.ab.getD k 0) ∧
      2 ≤ (arbState [0x80, 0x01]).nArbMax) := by decide

/-! Arbitrary-precision sequences. -/

theorem witness_BytesAreTheMinimalSequence :
    FitsBytes 127 1 ∧ ¬ FitsBytes 128 1 ∧ FitsBytes (-128) 1 ∧ ¬ FitsBytes (-129) 1 ∧ 0 < (bytes 128).length ∧
      1 < (bytes 128).length := by
  unfold FitsBytes
  decide
theorem witness_SignedReadingOfBytes : [(0xFF : Byte)] ≠ [] ∧ [(0x80 : Byte), 0x00] ≠ [] := by decide
theorem witness_ArbOperandValidity :
    Instr.lsb1A.width = .arb ∧ (arbState [0, 0]).ports.alen ≤ ({ arbState [0, 0] with nArbMax := 2 } : State).nArbMax ∧
    (arbState []).ports.alen = 0 ∧ RedundantTop (arbState [0, 0]).ports.operandBytes ∧
    ((arbState [0x00]).ports.alen ≠ 0 ∧ ¬ RedundantTop (arbState [0x00]).ports.operandBytes) := by
  unfold RedundantTop
  decide

/-! The counting family. -/

theorem witness_PopcntCountsSetBits : (arbOf (-1)).arbOperand (-1) ∧ (arbOf 0).arbOperand 0 ∧ (arbOf 255).arbOperand 255 :=
  ⟨arbOf_operand (by decide), arbOf_operand (by decide), arbOf_operand (by decide)⟩
theorem witness_BitlenGivesBitLength :
    (opa32 (fixedState 0)).toInt = 0 ∧
    (0 < (opa32 (fixedState 0x7FFFFFFF)).toInt ∧ IsBitLength (opa32 (fixedState 0x7FFFFFFF)).toInt.toNat 31) ∧
    (opa32 (fixedState 0x80000000)).toInt < 0 ∧
    (0 < (opa64 (fixedState 1)).toInt ∧ IsBitLength (opa64 (fixedState 1)).toInt.toNat 1) ∧
    (opa64 (fixedState 0x8000000000000000)).toInt < 0 ∧
    (arbOf 0).arbOperand 0 ∧ ((arbOf 128).arbOperand 128 ∧ IsBitLength (128 : Int).toNat 8) ∧
    (arbOf (-128)).arbOperand (-128) :=
  ⟨by decide, ⟨by decide, isBitLength_of (by decide)⟩, by decide, ⟨by decide, isBitLength_of (by decide)⟩, by decide,
    arbOf_operand (by decide), ⟨arbOf_operand (by decide), isBitLength_of (by decide)⟩, arbOf_operand (by decide)⟩
theorem witness_Log2GivesHighestBit :
    (opa32 (fixedState 0x80000000)).toInt < 0 ∧ (opa64 (fixedState 0)).toInt = 0 ∧
    ((2 : Int) ^ 30 ≤ (opa32 (fixedState 0x7FFFFFFF)).toInt ∧ (opa32 (fixedState 0x7FFFFFFF)).toInt < (2 : Int) ^ 31) ∧
    (arbOf (-1)).arbOperand (-1) ∧ (arbOf 256).arbOperand 256 ∧ ((2 : Int) ^ 8 ≤ 256 ∧ 256 < (2 : Int) ^ 9) :=
  ⟨by decide, by decide, ⟨by decide, by decide⟩, arbOf_operand (by decide), arbOf_operand (by decide), by decide, by decide⟩
theorem witness_LzcCountsLeadingZeros :
    IsBitLength (opa32 (fixedState 0)).toNat 0 ∧ IsBitLength (opa32 (fixedState 0x80000000)).toNat 32 ∧
    IsBitLength (opa64 (fixedState 1)).toNat 1 ∧ (arbOf (-1)).arbOperand (-1) ∧
    ((arbOf 0).arbOperand 0 ∧ IsBitLength (0 : Int).toNat 0 ∧ IsBitLength 0 0) ∧
    ((arbOf 128).arbOperand 128 ∧ IsBitLength (128 : Int).toNat 8 ∧ IsBitLength 8 4) :=
  ⟨isBitLength_of (by decide), isBitLength_of (by decide), isBitLength_of (by decide), arbOf_operand (by decide),
    ⟨arbOf_operand (by decide), isBitLength_of (by decide), isBitLength_of (by decide)⟩,
    arbOf_operand (by decide), isBitLength_of (by decide), isBitLength_of (by decide)⟩
theorem witness_TzcCountsTrailingZeros :
    opa32 (fixedState 0xFFFFFFFF00000000) = 0 ∧ IsLowestBit (opa32 (fixedState 0x80000000)) 31 ∧
    opa64 (fixedState 0) = 0 ∧ IsLowestBit (opa64 (fixedState 1)) 0 ∧ (arbOf 0).arbOperand 0 ∧
    ((arbOf (-128)).arbOperand (-128) ∧ IsTrailing (-128) 7) :=
  ⟨by decide, isLowestBit_of (by decide) (by decide), by decide, isLowestBit_of (by decide) (by decide),
    arbOf_operand (by decide), arbOf_operand (by decide), isTrailing_of (by decide) (by decide)⟩

/-! The fold and power-of-two family. -/

theorem witness_FoldrSmearsHighestBitDown :
    (∀ i, i < 32 → ((0xFFFFFFFF : Word32).getLsbD i = true ↔
      ∃ j, i ≤ j ∧ (opa32 (fixedState 0x80000000)).getLsbD j = true)) ∧
    (∀ i, i < 64 → ((0 : Word64).getLsbD i = true ↔ ∃ j, i ≤ j ∧ (opa64 (fixedState 0)).getLsbD j = true)) ∧
    (arbOf (-1)).arbOperand (-1) ∧ ((arbOf 0).arbOperand 0 ∧ IsBitLength (0 : Int).toNat 0) ∧
    ((arbOf 128).arbOperand 128 ∧ IsBitLength (128 : Int).toNat 8) := by
  refine ⟨fun i hi => ⟨fun _ => ⟨31, by omega, by decide⟩, fun _ => ?_⟩, fun i _ => ⟨fun h => ?_, fun ⟨j, _, h⟩ => ?_⟩,
    arbOf_operand (by decide), ⟨arbOf_operand (by decide), isBitLength_of (by decide)⟩, arbOf_operand (by decide),
    isBitLength_of (by decide)⟩
  · have : ∀ k : Fin 32, (0xFFFFFFFF : Word32).getLsbD k = true := by decide
    exact this ⟨i, hi⟩
  · simp at h
  · simp [opa64, fixedState] at h
theorem witness_FoldlFillsBetweenSetBits :
    (∀ i, i < 32 → ((0x80000000 : Word32).getLsbD i = true ↔
      (∃ j, i ≤ j ∧ (opa32 (fixedState 0x80000000)).getLsbD j = true) ∧
        ∃ j, j ≤ i ∧ (opa32 (fixedState 0x80000000)).getLsbD j = true)) ∧
    (∀ i, i < 64 → ((0 : Word64).getLsbD i = true ↔ (∃ j, i ≤ j ∧ (opa64 (fixedState 0)).getLsbD j = true) ∧
      ∃ j, j ≤ i ∧ (opa64 (fixedState 0)).getLsbD j = true)) ∧
    (arbOf (-1)).arbOperand (-1) ∧ (arbOf 0).arbOperand 0 ∧
    ((arbOf 80).arbOperand 80 ∧ IsBitLength (80 : Int).toNat 7 ∧ IsTrailing 80 4) := by
  have ones : ∀ k : Fin 32, (opa32 (fixedState 0x80000000)).getLsbD k = decide (k.val = 31) := by decide
  have e : (0x80000000 : Word32) = opa32 (fixedState 0x80000000) := by decide
  refine ⟨fun i hi => ?_, fun i _ => ⟨fun h => ?_, fun ⟨⟨j, _, h⟩, _⟩ => ?_⟩, arbOf_operand (by decide),
    arbOf_operand (by decide), arbOf_operand (by decide), isBitLength_of (by decide),
    isTrailing_of (by decide) (by decide)⟩
  · rw [e]
    refine ⟨fun h => ⟨⟨i, le_rfl, h⟩, i, le_rfl, h⟩, fun ⟨_, j, hj, h⟩ => ?_⟩
    have h31 := ones ⟨j, BitVec.lt_of_getLsbD h⟩
    simp only at h31
    rw [h] at h31
    have : j = 31 := by simpa using h31.symm
    rw [show i = j by omega]
    exact h
  · simp at h
  · simp [opa64, fixedState] at h
theorem witness_Ispow2TestsPowerOfTwo :
    (∃ k : Nat, (opa32 (fixedState 0x40000000)).toInt = (2 : Int) ^ k) ∧
    (¬ ∃ k : Nat, (opa64 (fixedState 0x8000000000000000)).toInt = (2 : Int) ^ k) ∧ (arbOf 1).arbOperand 1 :=
  ⟨⟨30, by decide⟩, fun ⟨k, hk⟩ => by
    have h1 : (opa64 (fixedState 0x8000000000000000)).toInt < 0 := by decide
    have h2 : (0 : Int) < (2 : Int) ^ k := by positivity
    omega, arbOf_operand (by decide)⟩
theorem witness_RoundupGivesPowerAbove :
    (opa32 (fixedState 0)).toInt ≤ 0 ∧
    (0 < (opa32 (fixedState 0x40000001)).toInt ∧ IsLeastPowerAtOrAbove (opa32 (fixedState 0x40000001)).toInt 31) ∧
    (0 < (opa64 (fixedState 0x4000000000000000)).toInt ∧ IsLeastPowerAbove (opa64 (fixedState 0x4000000000000000)).toInt 63) ∧
    (arbOf (-1)).arbOperand (-1) ∧ ((arbOf 1).arbOperand 1 ∧ IsLeastPowerAtOrAbove 1 0 ∧ IsLeastPowerAbove 1 1) :=
  ⟨by decide, ⟨by decide, isLeastPowerAtOrAbove_of (by decide) (by decide)⟩,
    ⟨by decide, isLeastPowerAbove_of (by decide) (by decide)⟩, arbOf_operand (by decide), arbOf_operand (by decide),
    isLeastPowerAtOrAbove_of (by decide) (by decide), isLeastPowerAbove_of (by decide) (by decide)⟩
theorem witness_RounddnGivesPowerBelow :
    (opa32 (fixedState 0xFFFFFFFF)).toInt ≤ 0 ∧ IsGreatestPowerAtOrBelow (opa32 (fixedState 0x7FFFFFFF)).toInt 30 ∧
    IsGreatestPowerBelow (opa64 (fixedState 8)).toInt 2 ∧ (opa64 (fixedState 1)).toInt = 1 ∧
    ((arbOf 1000).arbOperand 1000 ∧ IsGreatestPowerAtOrBelow 1000 9 ∧ IsGreatestPowerBelow 1000 9) ∧ (arbOf 1).arbOperand 1 :=
  ⟨by decide, isGreatestPowerAtOrBelow_of (by decide) (by decide), isGreatestPowerBelow_of (by decide) (by decide), by decide,
    ⟨arbOf_operand (by decide), isGreatestPowerAtOrBelow_of (by decide) (by decide),
      isGreatestPowerBelow_of (by decide) (by decide)⟩, arbOf_operand (by decide)⟩
/-- The tie 6, the operands 5 and 1 beside it, and the top of the range. -/
theorem witness_RoundnrTiesGoUp :
    (opa32 (fixedState 0)).toInt ≤ 0 ∧
    (IsLeastPowerAtOrAbove (opa32 (fixedState 6)).toInt 3 ∧ (2 : Int) ^ 3 - 6 ≤ 6 - (2 : Int) ^ 3 / 2) ∧
    (IsLeastPowerAtOrAbove (opa64 (fixedState 5)).toInt 3 ∧ (2 : Int) ^ 3 - 5 > 5 - (2 : Int) ^ 3 / 2) ∧
    ((arbOf 1).arbOperand 1 ∧ IsLeastPowerAtOrAbove 1 0 ∧ (2 : Int) ^ 0 - 1 ≤ 1 - (2 : Int) ^ 0 / 2) :=
  ⟨by decide, ⟨isLeastPowerAtOrAbove_of (by decide) (by decide), by decide⟩,
    ⟨isLeastPowerAtOrAbove_of (by decide) (by decide), by decide⟩, arbOf_operand (by decide),
    isLeastPowerAtOrAbove_of (by decide) (by decide), by decide⟩

/-! The isolation and index family. -/

theorem witness_Lsb1KeepsLowestBit :
    opa32 (fixedState 0) = 0 ∧ IsLowestBit (opa32 (fixedState 0x80000000)) 31 ∧
    opa64 (fixedState 0) = 0 ∧ IsLowestBit (opa64 (fixedState 0xFFFFFFFF00000000)) 32 ∧ (arbOf 0).arbOperand 0 ∧
    ((arbOf (-12)).arbOperand (-12) ∧ IsTrailing (-12) 2) ∧ ((arbOf (-128)).arbOperand (-128) ∧ IsTrailing (-128) 7) :=
  ⟨by decide, isLowestBit_of (by decide) (by decide), by decide, isLowestBit_of (by decide) (by decide),
    arbOf_operand (by decide), ⟨arbOf_operand (by decide), isTrailing_of (by decide) (by decide)⟩,
    arbOf_operand (by decide), isTrailing_of (by decide) (by decide)⟩
theorem witness_Msb1KeepsHighestBit :
    opa32 (fixedState 0) = 0 ∧ IsHighestBit (opa32 (fixedState 0xFFFFFFFF)) 31 ∧
    opa64 (fixedState 0) = 0 ∧ IsHighestBit (opa64 (fixedState 1)) 0 ∧ (arbOf (-3)).arbOperand (-3) ∧ (arbOf 0).arbOperand 0 ∧
    ((arbOf 255).arbOperand 255 ∧ (2 : Int) ^ 7 ≤ 255 ∧ 255 < (2 : Int) ^ 8) :=
  ⟨by decide, isHighestBit_of (by decide) (by decide), by decide, isHighestBit_of (by decide) (by decide),
    arbOf_operand (by decide), arbOf_operand (by decide), arbOf_operand (by decide), by decide, by decide⟩
theorem witness_BidxlGivesIndexOfIsolatedBit :
    opa32 (fixedState 0x80000000) = BitVec.ofNat 32 (2 ^ 31) ∧
    (∀ k : Nat, k < 32 → opa32 (fixedState 0) ≠ BitVec.ofNat 32 (2 ^ k)) ∧
    opa64 (fixedState 1) = BitVec.ofNat 64 (2 ^ 0) ∧
    (∀ k : Nat, k < 64 → opa64 (fixedState 6) ≠ BitVec.ofNat 64 (2 ^ k)) ∧
    (arbOf 128).arbOperand 128 ∧ (128 : Int) = (2 : Int) ^ 7 ∧
    (arbOf (-1)).arbOperand (-1) ∧ ∀ k : Nat, (-1 : Int) ≠ (2 : Int) ^ k := by
  refine ⟨by decide, ?_, by decide, ?_, arbOf_operand (by decide), by decide, arbOf_operand (by decide), fun k => ?_⟩
  · have : ∀ k : Fin 32, opa32 (fixedState 0) ≠ BitVec.ofNat 32 (2 ^ k.val) := by decide
    exact fun k hk => this ⟨k, hk⟩
  · have : ∀ k : Fin 64, opa64 (fixedState 6) ≠ BitVec.ofNat 64 (2 ^ k.val) := by decide
    exact fun k hk => this ⟨k, hk⟩
  · have : (0 : Int) < (2 : Int) ^ k := by positivity
    omega
theorem witness_BidxmGivesIndexOfIsolatedBit :
    opa32 (fixedState 0x80000000) = BitVec.ofNat 32 (2 ^ 31) ∧
    (∀ k : Nat, k < 32 → opa32 (fixedState 0) ≠ BitVec.ofNat 32 (2 ^ k)) ∧
    opa64 (fixedState 1) = BitVec.ofNat 64 (2 ^ 0) ∧
    (∀ k : Nat, k < 64 → opa64 (fixedState 6) ≠ BitVec.ofNat 64 (2 ^ k)) ∧
    (arbOf 128).arbOperand 128 ∧ (128 : Int) = (2 : Int) ^ 7 ∧
    (arbOf (-1)).arbOperand (-1) ∧ ∀ k : Nat, (-1 : Int) ≠ (2 : Int) ^ k :=
  witness_BidxlGivesIndexOfIsolatedBit

/-! The reversal and shift family. -/

theorem witness_RevbitsReversesBits :
    (∀ i, i < 32 → (0x80000000 : Word32).getLsbD i = (opa32 (fixedState 1)).getLsbD (31 - i)) ∧
    (∀ i, i < 64 → (1 : Word64).getLsbD i = (opa64 (fixedState 0x8000000000000000)).getLsbD (63 - i)) := by
  have h1 : ∀ k : Fin 32, (0x80000000 : Word32).getLsbD k = (opa32 (fixedState 1)).getLsbD (31 - k) := by decide
  have h2 : ∀ k : Fin 64, (1 : Word64).getLsbD k = (opa64 (fixedState 0x8000000000000000)).getLsbD (63 - k) := by decide
  exact ⟨fun i hi => h1 ⟨i, hi⟩, fun i hi => h2 ⟨i, hi⟩⟩
/-- VR16 and VR10 of 95_test_vectors.md: 128, two bytes, and 1, one byte. -/
theorem witness_RevbitsArbReversesMinimalSequence :
    ((arbOf 128).arbOperand 128 ∧ ([0x00, 0x01] : List Byte).length = (bytes 128).length ∧
      ∀ j, j < (bytes 128).length → [0x00, 0x01].getD j (0 : Byte) =
        (arbOf 128).rom.val.rev8 ((bytes 128).getD ((bytes 128).length - 1 - j) 0)) ∧
    ((arbOf 1).arbOperand 1 ∧ ([0x80] : List Byte).length = (bytes 1).length ∧
      ∀ j, j < (bytes 1).length → [0x80].getD j (0 : Byte) =
        (arbOf 1).rom.val.rev8 ((bytes 1).getD ((bytes 1).length - 1 - j) 0)) :=
  ⟨⟨arbOf_operand (by decide), by decide, by decide⟩, arbOf_operand (by decide), by decide, by decide⟩
theorem witness_RevbytesReversesBytes :
    (∀ k, k < 4 → (0x01000000 : Word32).extractLsb' (8 * k) 8 = (opa32 (fixedState 1)).extractLsb' (8 * (3 - k)) 8) ∧
    (∀ k, k < 8 → (1 : Word64).extractLsb' (8 * k) 8 =
      (opa64 (fixedState 0x0100000000000000)).extractLsb' (8 * (7 - k)) 8) := by decide
theorem witness_ShlcShiftsWithCarryLow : ((-128 : Int) ≤ -128 ∧ (127 : Int) ≤ 127) ∧ 0 ≤ 32 ∧ 32 ≤ 32 ∧ 64 ≤ 64 ∧ (-1 : Int) < 0 ∧
    (32 : Int) < 33 ∧ (64 : Int) < 65 := by decide
theorem witness_ShrcShiftsWithCarryHigh : ((-128 : Int) ≤ -128 ∧ (127 : Int) ≤ 127) ∧ 0 ≤ 32 ∧ 32 ≤ 32 ∧ 64 ≤ 64 ∧ (-1 : Int) < 0 ∧
    (32 : Int) < 33 ∧ (64 : Int) < 65 := by decide

/-! The adapter family. -/

theorem witness_AdplenGivesMinimalLength :
    (arbOf 128).arbOperand 128 ∧ FitsBytes 128 2 ∧ ∀ m, 1 ≤ m → FitsBytes 128 m → 2 ≤ m := by
  refine ⟨arbOf_operand (by decide), by unfold FitsBytes; decide, fun m h1 hm => ?_⟩
  by_contra hc
  have : m = 1 := by omega
  subst this
  exact absurd hm (by unfold FitsBytes; decide)
theorem witness_AdphnzFindsHighestByte :
    (arbOf 0).arbOperand 0 ∧ (arbOf 128).arbOperand 128 ∧ (bytes 128).getD 0 0 ≠ 0 ∧
      ∀ j, 0 < j → (bytes 128).getD j 0 = 0 := by
  refine ⟨arbOf_operand (by decide), arbOf_operand (by decide), by decide, fun j hj => ?_⟩
  obtain ⟨j, rfl⟩ : ∃ n, j = n + 1 := ⟨j - 1, by omega⟩
  rw [show bytes 128 = [0x80, 0x00] by decide]
  cases j <;> rfl
theorem witness_AdplnzFindsLowestByte :
    (arbOf 0).arbOperand 0 ∧ (arbOf 256).arbOperand 256 ∧ (bytes 256).getD 1 0 ≠ 0 ∧
      ∀ j, j < 1 → (bytes 256).getD j 0 = 0 :=
  ⟨arbOf_operand (by decide), arbOf_operand (by decide), by decide, by decide⟩
theorem witness_LocatorFactsOfMinimalSequences : (0 : Int) < 128 ∧ (-1 : Int) < 0 ∧ (-1 : Int) ≠ 0 := by decide

/-! Realisations and laws. -/

theorem witness_WordSumIsPopulationCount : (arbOf 0).arbOperand 0 ∧ (arbOf 0xFFFFFFFF).arbOperand 0xFFFFFFFF :=
  ⟨arbOf_operand (by decide), arbOf_operand (by decide)⟩
theorem witness_AdapterGivesLog2AndBitlen : (arbOf 1).arbOperand 1 ∧ (arbOf 0xFFFF).arbOperand 0xFFFF :=
  ⟨arbOf_operand (by decide), arbOf_operand (by decide)⟩
theorem witness_DeBruijnRealisationsAgreeOnIsolatedBits :
    opa32 (fixedState 0x80000000) = BitVec.ofNat 32 (2 ^ 31) ∧ opa64 (fixedState 0x100000000) = BitVec.ofNat 64 (2 ^ 32) ∧
    (arbOf ((2 : Int) ^ 100)).arbOperand ((2 : Int) ^ 100) :=
  ⟨by decide, by decide, arbOf_operand (by decide)⟩
/-- -128 isolates 128, which needs one byte more than the operand. -/
theorem witness_IndexThroughIsolation :
    IsLowestBit (opa32 (fixedState 0x80000000)) 31 ∧ IsLowestBit (opa64 (fixedState 1)) 0 ∧
    ((arbOf (-128)).arbOperand (-128) ∧ IsTrailing (-128) 7 ∧ byteLen ((2 : Int) ^ 7) ≤ (arbOf (-128)).nArbMax) ∧
    IsHighestBit (opa32 (fixedState 0xFFFFFFFF)) 31 ∧ IsHighestBit (opa64 (fixedState 1)) 0 ∧
    ((arbOf 255).arbOperand 255 ∧ (2 : Int) ^ 7 ≤ 255 ∧ 255 < (2 : Int) ^ 8) :=
  ⟨isLowestBit_of (by decide) (by decide), isLowestBit_of (by decide) (by decide),
    ⟨arbOf_operand (by decide), isTrailing_of (by decide) (by decide), by decide⟩,
    isHighestBit_of (by decide) (by decide), isHighestBit_of (by decide) (by decide),
    arbOf_operand (by decide), by decide, by decide⟩
/-- 128 and 256 are each other's reversal, at two bytes (VR16, VR17). -/
theorem witness_RevbitsArbInvolutiveWhenLengthKept :
    (arbOf 512).arbOperand 512 ∧ (arbOf 128).arbOperand 128 ∧ 8 * (arbOf 128).ports.alen = 16 ∧
    (∀ i, i < 16 → (0x0100 : BitVec 16).getLsbD i = (BitVec.ofInt 16 128).getLsbD (16 - 1 - i)) ∧
    ∃ t r, exec .revbitsA (arbOf 128) = .next t ∧ t.response = some r ∧ r.r0.rl = (arbOf 128).ports.alen :=
  ⟨arbOf_operand (by decide), arbOf_operand (by decide), by decide, by decide, _, _, rfl, rfl, by decide⟩
theorem witness_ShlcChainShiftsArray :
    0 ≤ 32 ∧ 32 ≤ 32 ∧ 64 ≤ 64 ∧ (∀ x, x ∈ [0, 0xFFFFFFFF] → x < 2 ^ 32) ∧
      ∀ x, x ∈ [0x80000000000000FF, 1] → x < 2 ^ 64 := by decide
theorem witness_ShrcChainShiftsArray :
    0 ≤ 32 ∧ 32 ≤ 32 ∧ 64 ≤ 64 ∧ (∀ x, x ∈ [0, 0xFFFFFFFF] → x < 2 ^ 32) ∧
      ∀ x, x ∈ [0x80000000000000FF, 1] → x < 2 ^ 64 := by decide
/-- P3 of 95_test_vectors.md: the chain of SHLC.64 by 8. -/
theorem test_chain_P3 : chainLeft (shiftParts (.shlc64 8) State.reset) 0 [0x80000000000000FF, 1] =
    ([0x000000000000FF00, 0x0000000000000180], 0) := by decide
theorem witness_Ispow2AgreesWithPopcnt :
    0 < (opa32 (fixedState 0x7FFFFFFF)).toInt ∧ 0 < (opa64 (fixedState 1)).toInt ∧ (arbOf 1).arbOperand 1 :=
  ⟨by decide, by decide, arbOf_operand (by decide)⟩
theorem witness_Lsb1IsOneBitOfOperand :
    opa32 (fixedState 0x80000000) ≠ 0 ∧ opa64 (fixedState 1) ≠ 0 ∧ (arbOf (-128)).arbOperand (-128) ∧
      byteLen 128 ≤ (arbOf (-128)).nArbMax :=
  ⟨by decide, by decide, arbOf_operand (by decide), by decide⟩

end Sys2Proof.Machine.Tests
end

section
/-! PROOFS. The invariant of the machine at reset (00_scope.md R6, 10_state.md R47). -/

namespace Sys2Proof.Machine

/-! ### The reset state -/

@[simp] theorem State.reset_response : State.reset.response = none := rfl

/-- Log 4: all that is used of the reset value of N_ARB_MAX. -/
theorem State.reset_nArbMax_pos : 0 < State.reset.nArbMax := by decide

/-! ### The invariant -/

/-- Before the first response the invariant is only that the parameter is positive. -/
theorem State.inv_iff_of_response_none {s : State} (h : s.response = none) : s.Inv ↔ 0 < s.nArbMax := by
  simp [State.Inv, h]

/-- Settles O12: no response exists at reset, so the invariant asks only for a positive N_ARB_MAX. -/
theorem resetMeetsInvariant : Obligations.ResetMeetsInvariant :=
  (State.inv_iff_of_response_none State.reset_response).2 State.reset_nArbMax_pos

end Sys2Proof.Machine
end

section
/-! PROOFS. The step: what it runs, and what a step that answers has done (10_state.md R39). -/

namespace Sys2Proof.Machine

/-! ### The step -/

/-- A legal word runs its command on the sampled ports (10_state.md R39). -/
theorem step_of_decode {s : State} {c : Command} {rest : List Command} {i : Instr} (h : s.pending = c :: rest)
    (hd : decode c.cmd = .ok i) : step s = exec i (s.sampled c rest) := by
  simp [step, h, hd]

/-- An illegal word gives the error response and runs nothing (60_exceptions.md R302). -/
theorem step_of_illegal {s : State} {c : Command} {rest : List Command} {e : Illegal} (h : s.pending = c :: rest)
    (hd : decode c.cmd = .error e) : step s = raise (s.sampled c rest) .illegalCommand := by
  simp [step, h, hd]

/-- A step that answers has taken a command, which was legal and has run or was illegal. -/
theorem step_next {s t : State} (h : step s = .next t) :
    ∃ c rest, s.pending = c :: rest ∧
      ((∃ i, decode c.cmd = .ok i ∧ exec i (s.sampled c rest) = .next t) ∨
        ((∃ e, decode c.cmd = .error e) ∧ raise (s.sampled c rest) .illegalCommand = .next t)) := by
  cases hp : s.pending with
  | nil => simp [step, hp] at h
  | cons c rest =>
    refine ⟨c, rest, rfl, ?_⟩
    cases hd : decode c.cmd with
    | ok i => exact .inl ⟨i, rfl, step_of_decode hp hd ▸ h⟩
    | error e => exact .inr ⟨⟨e, rfl⟩, step_of_illegal hp hd ▸ h⟩

/-- Settles O10: the law of a step on a legal word (`step_of_decode`). -/
theorem stepRunsDecoded : Obligations.StepRunsDecoded := fun _ _ _ _ => step_of_decode

end Sys2Proof.Machine
end

section
/-! PROOFS. How a command ends, said once for all 57 (`exec_answers`), with the size of every arbitrary-precision
result; from it the invariant of a step and the frame of a command (10_state.md R36, R46, 20_memory.md R64, 60_exceptions.md R303). -/

namespace Sys2Proof.Machine

/-! ### How long an arbitrary-precision result is -/

theorem natAbs_le_two_pow_byteLen (v : Int) : v.natAbs ≤ 2 ^ (8 * byteLen v - 1) := by
  have h := byteLen_fits v
  have e : (2 : Int) ^ (8 * byteLen v - 1) = ((2 ^ (8 * byteLen v - 1) : Nat) : Int) := by simp
  omega

/-- A result between 0 and twice the size of the operand takes at most one byte more than the operand, the byte that
`RBi` has beyond `AB` (10_state.md R36, 20_memory.md R64). -/
theorem byteLen_le_succ {v r : Int} (h0 : 0 ≤ r) (h : r ≤ 2 * v.natAbs) : byteLen r ≤ byteLen v + 1 := by
  have hv := natAbs_le_two_pow_byteLen v
  have hn := one_le_byteLen v
  have e : (2 : Int) ^ (8 * (byteLen v + 1) - 1) = ((256 * 2 ^ (8 * byteLen v - 1) : Nat) : Int) := by
    rw [show 8 * (byteLen v + 1) - 1 = 8 + (8 * byteLen v - 1) by omega, pow_add]
    push_cast; rfl
  have hp := Nat.two_pow_pos (8 * byteLen v - 1)
  rw [byteLen_le_iff (by omega), e]
  omega

theorem two_pow_bitLength_le {n : Nat} (h : n ≠ 0) : 2 ^ bitLength n ≤ 2 * n := by
  have hp := bitLength_pos h
  have hb := two_pow_le_of_lt_bitLength (n := n) (m := bitLength n - 1) (by omega)
  rw [show bitLength n = bitLength n - 1 + 1 by omega, Nat.pow_succ']
  omega

theorem fold_le_two_mul (n : Nat) : fold n ≤ 2 * n := by
  by_cases h : n = 0
  · subst h; decide
  · have := two_pow_bitLength_le h
    have := fold_succ n
    omega

theorem powerAbove_bounds {x : Int} (hx : 0 < x) : 0 ≤ powerAbove x ∧ powerAbove x ≤ 2 * x := by
  have h := fold_le_two_mul (x - 1).toNat
  rw [powerAbove]
  omega

theorem shiftRight_bounds {x : Int} (hx : 0 ≤ x) (n : Nat) : 0 ≤ x >>> n ∧ x >>> n ≤ x := by
  rw [Int.shiftRight_eq_div_pow]
  exact ⟨Int.ediv_nonneg hx (by positivity), Int.ediv_le_self _ hx⟩

theorem foldLeftInt_bounds {v : Int} (hv : 0 ≤ v) : 0 ≤ foldLeftInt v ∧ foldLeftInt v ≤ 2 * v := by
  rw [foldLeftInt]
  split
  · omega
  · have hf := fold_le_two_mul v.toNat
    have hm := Int.ediv_mul_le (fold v.toNat : Int) (b := (2 : Int) ^ ctz v) (by positivity)
    rw [Int.shiftRight_eq_div_pow]
    push_cast
    refine ⟨by positivity, ?_⟩
    omega

theorem intAnd_bounds {x : Int} (hx : 0 ≤ x) (y : Int) : 0 ≤ intAnd x y ∧ intAnd x y ≤ x := by
  obtain ⟨n, rfl⟩ := Int.eq_ofNat_of_zero_le hx
  cases y with
  | ofNat m =>
    have h : n &&& m ≤ n := Nat.and_le_left
    change 0 ≤ ((n &&& m : Nat) : Int) ∧ ((n &&& m : Nat) : Int) ≤ n
    omega
  | negSucc m =>
    change 0 ≤ ((n - (n &&& m) : Nat) : Int) ∧ ((n - (n &&& m) : Nat) : Int) ≤ n
    omega

theorem msb1Int_bounds {v : Int} (hv : 0 ≤ v) : 0 ≤ msb1Int v ∧ msb1Int v ≤ 2 * v := by
  have hf := fold_le_two_mul v.toNat
  have := intAnd_bounds (x := fold v.toNat) (by omega) (intNot ((fold v.toNat : Int) >>> (1 : Nat)))
  rw [msb1Int]
  omega

theorem lowestBit_bounds (v : Int) : 0 ≤ intAnd v (-v) ∧ intAnd v (-v) ≤ v.natAbs := by
  by_cases hv : v = 0
  · subst hv; decide
  · have h := Nat.le_of_dvd (by omega) (Int.natAbs_dvd_natAbs.2 (ctz_dvd hv).1)
    rw [intAnd_neg_self hv]
    refine ⟨by positivity, ?_⟩
    rw [Int.natAbs_pow] at h
    zify at h ⊢
    simpa using h

theorem roundUp_bounds {x : Int} (hx : 0 < x) (p : Bool) : 0 ≤ roundUp p x ∧ roundUp p x ≤ 2 * x := by
  have h := powerAbove_bounds hx
  rw [roundUp]
  split_ifs <;> omega

theorem roundDown_bounds {x : Int} (hx : 0 < x) (p : Bool) : 0 ≤ roundDown p x ∧ roundDown p x ≤ 2 * x := by
  have h := powerAbove_bounds hx
  have hs := shiftRight_bounds h.1 1
  have hx' := shiftRight_bounds hx.le 1
  rw [roundDown]
  split_ifs <;> omega

theorem roundNearest_bounds {x : Int} (hx : 0 < x) : 0 ≤ roundNearest x ∧ roundNearest x ≤ 2 * x := by
  have h := powerAbove_bounds hx
  have hs := shiftRight_bounds h.1 1
  rw [roundNearest]
  split_ifs <;> omega

/-- REVBITS reads as many bytes as the operand has, and its minimal sequence has no more (43_reverse_shift.md R249). -/
theorem byteLen_sval_reversedBytes_le (rom : Rom) (v : Int) :
    byteLen (sval (reversedBytes rom (bytes v))) ≤ byteLen v := by
  have h : (reversedBytes rom (bytes v)).length = byteLen v := by simp [reversedBytes]
  have hn := one_le_byteLen v
  exact h ▸ byteLen_sval_le (List.length_pos_iff.1 (by omega))

/-! ### What a slot carries -/

@[simp] theorem fits_noBytes (n : Nat) (rv : Word64) : SlotPort.fits n { rv := rv, rb := [] } :=
  ⟨by simp [SlotPort.rl], .inl rfl⟩

/-- An integer that needs no more bytes than the port has is carried as its minimal sequence (20_memory.md R64). -/
theorem fits_arb {n : Nat} {v : Int} (h : byteLen v ≤ n + 1) : (Slot.arb v).ports.fits n := by
  refine ⟨?_, .inr ⟨rfl, ?_⟩⟩
  · simpa [SlotPort.rl] using h
  · simp [sval_bytes]

/-! ### What one command answers -/

/-- The four ways a command ends: refused as an input, an error, a response whose slots fit their ports, and, only for a
command that may draw, an OK response with a drawn index. -/
inductive Answers (s : State) (mayDraw : Prop) : Outcome → Prop
  | refused : Answers s mayDraw (.refused .operandTooLong)
  | raised (st : Status) : Answers s mayDraw (raise s st)
  | responded {a b c : Slot} (ha : a.ports.fits s.nArbMax) (hb : b.ports.fits s.nArbMax)
      (hc : c.ports.fits s.nArbMax) : Answers s mayDraw (respond s a b c)
  | drawn (command : Config.IndexCommand) (x : Int) (top : Nat) (n : Int) (h : mayDraw) :
      Answers s mayDraw (respond (drawIndex s command x top).2 (.cnt n))

section
variable {s : State} {m : Prop}

theorem answers_cnt (n : Int) : Answers s m (respond s (.cnt n)) := .responded (by simp) (by simp) (by simp)

theorem answers_pattern {w : Nat} (a : BitVec w) : Answers s m (respond s (.pattern a)) :=
  .responded (by simp [Slot.pattern]) (by simp) (by simp)

theorem answers_patterns {w : Nat} (a b c : BitVec w) :
    Answers s m (respond s (.pattern a) (.pattern b) (.pattern c)) :=
  .responded (by simp [Slot.pattern]) (by simp [Slot.pattern]) (by simp [Slot.pattern])

theorem answers_shift {w : Nat} (r : BitVec w × BitVec w) : Answers s m (respondShift s r) :=
  .responded (by simp [Slot.pattern]) (by simp [Slot.pattern]) (by simp)

theorem answers_arb {v : Int} (h : byteLen v ≤ s.nArbMax + 1) : Answers s m (respond s (.arb v)) :=
  .responded (fits_arb h) (by simp) (by simp)

theorem answers_inDomain {good : Bool} {k : Outcome} (h : good = true → Answers s m k) :
    Answers s m (inDomain s good k) := by
  cases good
  · exact .raised _
  · exact h rfl

theorem answers_withDecomposed {k : Decomposed → Outcome}
    (h : ∀ v, s.arbOperand v → Answers s m (k { bs := bytes v, n := byteLen v, neg := topNegative (bytes v) })) :
    Answers s m (withDecomposed s k) := by
  obtain ⟨_, e⟩ | ⟨_, e⟩ | ⟨_, _, _, e⟩ | ⟨hv, _, _⟩ := withDecomposed_cases s k
  · exact e ▸ .refused
  · exact e ▸ .raised _
  · exact e ▸ .raised _
  · exact withDecomposed_of_arbOperand hv k ▸ h _ hv

theorem answers_withArb {k : Int → Outcome} (h : ∀ v, s.arbOperand v → Answers s m (k v)) :
    Answers s m (withArb s k) :=
  answers_withDecomposed fun v hv => by simpa only [sval_bytes] using h v hv

theorem answers_respondIndex (hm : m) (g : Bool) (k : Nat) (c : Config.IndexCommand) (x : Int) (top : Nat) :
    Answers s m (respondIndex s g k c x top) := by
  cases g
  · exact .drawn c x top _ hm
  · exact answers_cnt _

theorem answers_respondByteAt (bs : List Byte) (i : Option Nat) : Answers s m (respondByteAt s bs i) := by
  cases i <;> exact .responded (by simp) (by simp) (by simp)

/-- The operand is carried, so a result at most twice its size fits the byte more that a result slot has. -/
theorem byteLen_le_port {v r : Int} (hv : s.arbOperand v) (h : 0 ≤ r ∧ r ≤ 2 * v.natAbs) :
    byteLen r ≤ s.nArbMax + 1 := by
  have hr := byteLen_le_succ h.1 h.2
  have hl := arbOperand_alen hv
  have hc := hv.1
  omega

/-- An arbitrary-precision command on a domain of integers that are not negative, with a result at most twice the
operand. -/
theorem answers_arb_of_bounds {good : Int → Bool} {f : Int → Int} (hg : ∀ v, good v = true → 0 ≤ v)
    (hf : ∀ v, good v = true → 0 ≤ f v ∧ f v ≤ 2 * v) :
    Answers s m (withArb s fun v => inDomain s (good v) (respond s (.arb (f v)))) :=
  answers_withArb fun v hv => answers_inDomain fun h => answers_arb (byteLen_le_port hv (by
    have := hg v h
    have := hf v h
    omega))

theorem answers_count_inDomain {good : Int → Bool} {f : Int → Int} :
    Answers s m (withArb s fun v => inDomain s (good v) (respond s (.cnt (f v)))) :=
  answers_withArb fun _ _ => answers_inDomain fun _ => answers_cnt _

end

theorem answers_roundnrA {s : State} {m : Prop} : Answers s m (execRoundnrA s) :=
  answers_withArb fun v hv => answers_inDomain fun h => by
    have hx : 0 < v := (positive_iff v).1 h
    have ha := powerAbove_bounds hx
    have hb := shiftRight_bounds ha.1 1
    have hn := roundNearest_bounds hx
    exact .responded (fits_arb (byteLen_le_port hv (by omega))) (fits_arb (byteLen_le_port hv (by omega)))
      (fits_arb (byteLen_le_port hv (by omega)))

theorem answers_lsb1A {s : State} {m : Prop} : Answers s m (execLsb1A s) :=
  answers_withArb fun v hv => answers_arb (byteLen_le_port hv (by have := lowestBit_bounds v; omega))

theorem answers_revbitsA {s : State} {m : Prop} : Answers s m (execRevbitsA s) :=
  answers_withDecomposed fun v hv => answers_arb (by
    have hr := byteLen_sval_reversedBytes_le s.rom.val v
    have hl := arbOperand_alen hv
    have hc := hv.1
    simp only
    omega)

/-- Every command ends in one of the four ways. -/
theorem exec_answers (i : Instr) (s : State) : Answers s (MayDraw i) (exec i s) := by
  cases i <;> simp only [exec]
  case popcnt32 | popcnt64 | bitlen32 | bitlen64 | lzc32 | lzc64 | tzc32 | tzc64 | ispow232 | ispow264 =>
    exact answers_cnt _
  case foldr32 | foldr64 | foldl32 | foldl64 | lsb132 | lsb164 | msb132 | msb164 | revbits32 | revbits64 | revbytes32 |
    revbytes64 => exact answers_pattern _
  case log232 | log264 => exact answers_inDomain fun _ => answers_cnt _
  case roundup32 | roundup64 | rounddn32 | rounddn64 => exact answers_inDomain fun _ => answers_pattern _
  case roundnr32 | roundnr64 => exact answers_inDomain fun _ => answers_patterns _ _ _
  case shlc32 | shlc64 | shrc32 | shrc64 => exact answers_inDomain fun _ => answers_shift _
  case bitlenA | tzcA | ispow2A => exact answers_withArb fun _ _ => answers_cnt _
  case popcntA | log2A | lzcA => exact answers_count_inDomain
  case adplenA => exact answers_withDecomposed fun _ _ => answers_cnt _
  case adphnzA | adplnzA => exact answers_withDecomposed fun _ _ => answers_respondByteAt _ _
  case bidxl32 | bidxl64 | bidxm32 | bidxm64 => exact answers_respondIndex (by simp [MayDraw]) _ _ _ _ _
  case bidxlA | bidxmA => exact answers_withArb fun _ _ => answers_respondIndex (by simp [MayDraw]) _ _ _ _ _
  case foldrA =>
    exact answers_arb_of_bounds (by simp) fun v h => by
      have hv : 0 ≤ v := (notNegative_iff v).1 h
      have := fold_le_two_mul v.toNat
      omega
  case foldlA => exact answers_arb_of_bounds (by simp) fun v h => foldLeftInt_bounds ((notNegative_iff v).1 h)
  case msb1A => exact answers_arb_of_bounds (by simp) fun v h => msb1Int_bounds ((notNegative_iff v).1 h)
  case roundupA p =>
    exact answers_arb_of_bounds (fun v h => ((positive_iff v).1 h).le) fun v h =>
      roundUp_bounds ((positive_iff v).1 h) p
  case rounddnA p =>
    exact answers_arb_of_bounds (fun v h => ((positive_iff v).1 h).le) fun v h =>
      roundDown_bounds ((positive_iff v).1 h) p
  case roundnrA => exact answers_roundnrA
  case lsb1A => exact answers_lsb1A
  case revbitsA => exact answers_revbitsA

/-! ### What follows for the next state -/

theorem wellFormed_error (n : Nat) (st : Status) : (Response.make st .empty .empty .empty).wellFormed n := by
  simp [Response.wellFormed, SlotPort.isEmpty]

theorem wellFormed_ok {n : Nat} {a b c : Slot} (ha : a.ports.fits n) (hb : b.ports.fits n) (hc : c.ports.fits n) :
    (Response.make .ok a b c).wellFormed n :=
  ⟨ha, hb, hc, fun h => absurd rfl h⟩

theorem answered_inv {s : State} {r : Response} (hs : 0 < s.nArbMax) (hr : r.wellFormed s.nArbMax) :
    (s.answered r).Inv := by
  refine ⟨hs, fun r' h => ?_⟩
  obtain rfl : r = r' := by simpa using h
  exact hr

/-- The next state meets the invariant whatever response stood on the ports before. -/
theorem Answers.inv {s t : State} {m : Prop} {o : Outcome} (h : Answers s m o) (hs : 0 < s.nArbMax)
    (ht : o = .next t) : t.Inv := by
  cases h with
  | refused => cases ht
  | raised st => cases ht; exact answered_inv hs (wellFormed_error _ _)
  | responded ha hb hc => cases ht; exact answered_inv hs (wellFormed_ok ha hb hc)
  | drawn c x top n h => cases ht; exact answered_inv hs (wellFormed_ok (by simp) (by simp) (by simp))

theorem Answers.frame {s t : State} {m : Prop} {o : Outcome} (h : Answers s m o) (ht : o = .next t) :
    t.rom = s.rom ∧ t.nArbMax = s.nArbMax ∧ t.ports = s.ports ∧ t.pending = s.pending ∧
      (m → t.draws = s.draws ∨ t.draws = s.draws + 1) ∧ (¬ m → t.draws = s.draws) := by
  cases h with
  | refused => cases ht
  | raised st => cases ht; simp
  | responded ha hb hc => cases ht; simp
  | drawn c x top n h => cases ht; simp [h]

/-- A step that answers ends as a command on the sampled ports does; an illegal word ends in an error. -/
theorem step_answers {s t : State} (h : step s = .next t) :
    ∃ c rest m, s.pending = c :: rest ∧ Answers (s.sampled c rest) m (.next t) := by
  obtain ⟨c, rest, hp, ⟨i, _, he⟩ | ⟨_, he⟩⟩ := step_next h
  · exact ⟨c, rest, MayDraw i, hp, he ▸ exec_answers i _⟩
  · exact ⟨c, rest, False, hp, he ▸ .raised _⟩

/-- Settles O13: each way a command ends leaves a well-formed response (`exec_answers`). -/
theorem stepKeepsInvariant : Obligations.StepKeepsInvariant := by
  intro s t hs h
  obtain ⟨c, rest, m, _, ha⟩ := step_answers h
  exact ha.inv hs.1 rfl

/-- Settles O14: no way a command ends writes another field (`Answers.frame`). -/
theorem commandFrame : Obligations.CommandFrame := by
  refine ⟨fun i s t h => (exec_answers i s).frame h, fun s t h => ?_⟩
  obtain ⟨c, rest, m, hp, ha⟩ := step_answers h
  obtain ⟨hrom, hmax, hports, hpending, _, _⟩ := ha.frame rfl
  exact ⟨hrom, hmax, by rw [hp, hports, hpending]; rfl⟩

end Sys2Proof.Machine
end

section
/-! PROOFS. What the answer to a command depends on: its operand, N_ARB_MAX and the count of draws (10_state.md R37,
R39). -/

namespace Sys2Proof.Machine

/-! ### What the answer depends on -/

/-- The host sees the same in two outcomes, and they have drawn equally often. -/
inductive SameAnswer : Outcome → Outcome → Prop
  | refused (r : Refusal) : SameAnswer (.refused r) (.refused r)
  | next {t t' : State} (response : t.response = t'.response) (draws : t.draws = t'.draws) :
      SameAnswer (.next t) (.next t')

/-- Two states agree on the operand of a width mode (10_state.md R37). -/
def SameOperand : Width → State → State → Prop
  | .w32, s, s' => opa32 s = opa32 s'
  | .w64, s, s' => opa64 s = opa64 s'
  | .arb, s, s' => s.ports.operandBytes = s'.ports.operandBytes

theorem SameAnswer.answerOf_eq {o o' : Outcome} (h : SameAnswer o o') : answerOf o = answerOf o' := by
  cases h with
  | refused r => rfl
  | next response draws => exact response

theorem SameAnswer.exists_next {t : State} {o' : Outcome} (h : SameAnswer (.next t) o') :
    ∃ t', o' = .next t' ∧ t'.response = t.response ∧ t'.draws = t.draws := by
  cases h with
  | next response draws => exact ⟨_, rfl, response.symm, draws.symm⟩

section
variable {s s' : State} (hd : s.draws = s'.draws)
include hd

theorem sameAnswer_respond (a b c : Slot) : SameAnswer (respond s a b c) (respond s' a b c) := .next rfl hd

theorem sameAnswer_raise (st : Status) : SameAnswer (raise s st) (raise s' st) := .next rfl hd

theorem sameAnswer_inDomain {good : Bool} {k k' : Outcome} (h : SameAnswer k k') :
    SameAnswer (inDomain s good k) (inDomain s' good k') := by
  cases good
  · exact sameAnswer_raise hd _
  · exact h

theorem sameAnswer_respondIndex (g : Bool) (k : Nat) (c : Config.IndexCommand) (x : Int) (top : Nat) :
    SameAnswer (respondIndex s g k c x top) (respondIndex s' g k c x top) := by
  cases g
  · exact .next (by simp [drawIndex, hd]) (by simp [hd])
  · exact sameAnswer_respond hd _ _ _

theorem sameAnswer_respondByteAt (bs : List Byte) (i : Option Nat) :
    SameAnswer (respondByteAt s bs i) (respondByteAt s' bs i) := by
  cases i <;> exact sameAnswer_respond hd _ _ _

section
variable (hmax : s.nArbMax = s'.nArbMax) (hb : s.ports.operandBytes = s'.ports.operandBytes)
include hmax hb

theorem sameAnswer_withDecomposed {k k' : Decomposed → Outcome} (h : ∀ d, SameAnswer (k d) (k' d)) :
    SameAnswer (withDecomposed s k) (withDecomposed s' k') := by
  have hl : s.ports.alen = s'.ports.alen := by simpa using congrArg List.length hb
  simp only [withDecomposed, decompose, hmax, hb, hl]
  split_ifs
  · exact .refused _
  · exact sameAnswer_raise hd _
  · exact h _
  · exact sameAnswer_raise hd _

theorem sameAnswer_withArb {k k' : Int → Outcome} (h : ∀ v, SameAnswer (k v) (k' v)) :
    SameAnswer (withArb s k) (withArb s' k') :=
  sameAnswer_withDecomposed hd hmax hb fun _ => h _

end

end

/-- The answer to a command depends on its operand, on N_ARB_MAX and on the count of draws (10_state.md R37; log 6). -/
theorem exec_sameAnswer {i : Instr} {s s' : State} (hmax : s.nArbMax = s'.nArbMax) (hd : s.draws = s'.draws)
    (ho : SameOperand i.width s s') : SameAnswer (exec i s) (exec i s') := by
  cases i <;> simp only [exec, Instr.width, SameOperand] at ho ⊢
  case popcnt32 | popcnt64 | bitlen32 | bitlen64 | lzc32 | lzc64 | tzc32 | tzc64 =>
    simp only [ho, execPopcnt32, execPopcnt64, execBitlen32, execBitlen64, execLzc32, execLzc64, execTzc32, execTzc64]
    exact sameAnswer_respond hd _ _ _
  case foldr32 | foldr64 | foldl32 | foldl64 | ispow232 | ispow264 =>
    simp only [ho, execFoldr32, execFoldr64, execFoldl32, execFoldl64, execIspow232, execIspow264]
    exact sameAnswer_respond hd _ _ _
  case lsb132 | lsb164 | msb132 | msb164 | revbits32 | revbits64 | revbytes32 | revbytes64 =>
    simp only [ho, execLsb132, execLsb164, execMsb132, execMsb164, execRevbits32, execRevbits64, execRevbytes32,
      execRevbytes64]
    exact sameAnswer_respond hd _ _ _
  case log232 | log264 | roundup32 | roundup64 | rounddn32 | rounddn64 | roundnr32 | roundnr64 =>
    simp only [ho, execLog232, execLog264, execRoundup32, execRoundup64, execRounddn32, execRounddn64, execRoundnr32,
      execRoundnr64]
    exact sameAnswer_inDomain hd (sameAnswer_respond hd _ _ _)
  case shlc32 | shlc64 | shrc32 | shrc64 =>
    simp only [ho, execShlc32, execShlc64, execShrc32, execShrc64]
    exact sameAnswer_inDomain hd (sameAnswer_respond hd _ _ _)
  case bidxl32 | bidxl64 | bidxm32 | bidxm64 =>
    simp only [ho, execBidxl32, execBidxl64, execBidxm32, execBidxm64]
    exact sameAnswer_respondIndex hd _ _ _ _ _
  case bitlenA | tzcA | ispow2A | lsb1A => exact sameAnswer_withArb hd hmax ho fun _ => sameAnswer_respond hd _ _ _
  case popcntA | log2A | lzcA | foldrA | foldlA | roundupA | rounddnA | roundnrA | msb1A =>
    exact sameAnswer_withArb hd hmax ho fun _ => sameAnswer_inDomain hd (sameAnswer_respond hd _ _ _)
  case bidxlA | bidxmA =>
    exact sameAnswer_withArb hd hmax ho fun _ => by
      simp only [indexArb, hmax]
      exact sameAnswer_respondIndex hd _ _ _ _ _
  case revbitsA =>
    exact sameAnswer_withDecomposed hd hmax ho fun _ => by
      simp only [rom_val]
      exact sameAnswer_respond hd _ _ _
  case adplenA => exact sameAnswer_withDecomposed hd hmax ho fun _ => sameAnswer_respond hd _ _ _
  case adphnzA | adplnzA => exact sameAnswer_withDecomposed hd hmax ho fun _ => sameAnswer_respondByteAt hd _ _

theorem sameOperand_of_ports_eq (w : Width) {s s' : State} (h : s.ports = s'.ports) : SameOperand w s s' := by
  cases w <;> simp only [SameOperand, opa32, opa64, h]

/-- The lanes below ALEN are all that the operand bytes hold of `AB` (10_state.md R37). -/
theorem operandBytes_congr {c d : Command} (hl : c.alen = d.alen)
    (h : ∀ k, k < c.alen → c.ab.getD k 0 = d.ab.getD k 0) :
    c.operandBytes = d.operandBytes := by
  rw [Command.operandBytes, Command.operandBytes, ← hl]
  exact List.map_congr_left fun k hk => h k (List.mem_range.1 hk)

/-- A command whose operand the port carries is not refused (60_exceptions.md R309). -/
theorem exec_answerOf_isSome (i : Instr) {s : State} (h : s.ports.alen ≤ s.nArbMax) :
    (answerOf (exec i s)).isSome = true := by
  obtain ⟨hlong, _⟩ | ⟨d, st, a, b, c, _, _, he⟩ := exec_effect i s
  · omega
  · simp [he, answerOf]

/-- Settles O15: the two sampled states have the same ports, so the same operand (`exec_sameAnswer`). -/
theorem responseDependsOnCommandAlone : Obligations.ResponseDependsOnCommandAlone := by
  intro s s' t c rest rest' hp hp' hmax hd h
  apply SameAnswer.exists_next
  rw [← h]
  cases hc : decode c.cmd with
  | ok i =>
    rw [step_of_decode hp hc, step_of_decode hp' hc]
    exact exec_sameAnswer hmax hd (sameOperand_of_ports_eq _ rfl)
  | error e =>
    rw [step_of_illegal hp hc, step_of_illegal hp' hc]
    exact sameAnswer_raise (s := s.sampled c rest) (s' := s'.sampled c rest') hd _

/-- Settles O21: the new ports carry the same operand of the command's width (`exec_sameAnswer`). -/
theorem commandReadsItsOperandOnly : Obligations.CommandReadsItsOperandOnly := by
  intro i s p
  have same : ∀ w, i.width = w → SameOperand w { s with ports := p } s →
      answerOf (exec i { s with ports := p }) = answerOf (exec i s) := by
    rintro w rfl ho
    exact (exec_sameAnswer (s := { s with ports := p }) (s' := s) rfl rfl ho).answerOf_eq
  refine ⟨fun hw h => same _ hw ?_, fun hw h => same _ hw h, fun hw hl h hcarried => ⟨?_, same _ hw ?_⟩⟩
  · apply BitVec.eq_of_getLsbD_eq
    intro k hk
    simpa [opa32, hk, -BitVec.getLsbD_eq_getElem] using h k hk
  · exact exec_answerOf_isSome i (hl ▸ hcarried)
  · exact operandBytes_congr hl h

end Sys2Proof.Machine
end

section
/-! PROOFS. The ROM tables and their defining properties (10_state.md R41 to R44). -/

namespace Sys2Proof.Machine

/-! ### The ROM tables -/

theorem log2Contents_length : log2Contents.length = 256 := by
  simp only [log2Contents, List.length_append]
  rfl

theorem rev8Contents_length : rev8Contents.length = 256 := by
  simp only [rev8Contents, List.length_append]
  rfl

/-- `LOG2_TABLE` and the bit length (10_state.md R41). -/
theorem bitLength_eq_log2_succ : ∀ b : Byte, b ≠ 0 → bitLength b.toNat = (Rom.contents.log2 b).toNat + 1 := by decide

/-- `REV8_TABLE` and the reversal of a pattern (10_state.md R42). -/
theorem rev8_eq_revW : ∀ b : Byte, Rom.contents.rev8 b = revW b := by decide

/-- The top five bits of a 32-bit pattern. -/
theorem extractLsb'_27_5_toNat (x : Word32) : (x.extractLsb' 27 5).toNat = x.toNat / 2 ^ 27 := by
  have hx := x.isLt
  rw [BitVec.extractLsb'_toNat, Nat.shiftRight_eq_div_pow, Nat.mod_eq_of_lt (by omega)]

/-- A lookup on 32-bit chunks finds the index of every isolated bit (42_isolate_index.md R214, R215). -/
def FindsIsolatedBit (lookup : Word32 → Nat) : Prop := ∀ k, k < 32 → lookup (BitVec.ofNat 32 (2 ^ k)) = k

theorem lookupLsb_findsIsolatedBit : FindsIsolatedBit (lookupLsb Rom.contents) := by
  unfold FindsIsolatedBit
  decide

/-- `DB_MSB_TABLE` on fold results (10_state.md R44). -/
theorem dbMsb_hashMsb_two_pow_sub_one :
    ∀ k, k < 32 → (Rom.contents.dbMsb (Rom.contents.hashMsb (BitVec.ofNat 32 (2 ^ (k + 1) - 1)))).toNat = k := by decide

theorem foldW_two_pow {w k : Nat} (hk : k < w) :
    foldW (BitVec.ofNat w (2 ^ k)) = BitVec.ofNat w (2 ^ (k + 1) - 1) := by
  have h := Nat.pow_lt_pow_right (a := 2) (by decide) hk
  rw [foldW, BitVec.toNat_ofNat, Nat.mod_eq_of_lt h, fold, bitLength_two_pow]

theorem lookupMsb_findsIsolatedBit : FindsIsolatedBit (lookupMsb Rom.contents) := fun k hk => by
  rw [lookupMsb, foldW_two_pow hk, dbMsb_hashMsb_two_pow_sub_one k hk]

/-- Settles O1: `bitLength_eq_log2_succ` for every byte, and the bit length is the least exponent. -/
theorem log2TableHoldsHighestBit : Obligations.Log2TableHoldsHighestBit := by
  intro s
  rw [rom_val]
  refine ⟨log2Contents_length, rfl, fun b hb => ?_⟩
  rw [← bitLength_eq_log2_succ b hb]
  exact isBitLength_bitLength _

/-- Settles O2: the entries are the reversed bytes (`rev8_eq_revW`). -/
theorem rev8TableReversesBytes : Obligations.Rev8TableReversesBytes := by
  intro s
  rw [rom_val]
  refine ⟨rev8Contents_length, fun b i hi => ?_⟩
  rw [rev8_eq_revW, revW_getLsbD b hi]

/-- Settles O3: the hash is the top five bits of the product, and the table is checked at all 32 isolated bits. -/
theorem lsbTableGivesIndexOfIsolatedBit : Obligations.LsbTableGivesIndexOfIsolatedBit := by
  intro s
  rw [rom_val]
  refine ⟨rfl, rfl, fun x => ?_, lookupLsb_findsIsolatedBit⟩
  rw [Rom.hashLsb, extractLsb'_27_5_toNat, BitVec.toNat_mul]
  rfl

/-- Settles O4: the table is checked at all 32 fold results; the isolated bit 2^2 is no fold result, and gives 10. -/
theorem msbTableGivesIndexOfFoldResult : Obligations.MsbTableGivesIndexOfFoldResult := by
  intro s
  rw [rom_val]
  refine ⟨rfl, rfl, fun x => ?_, dbMsb_hashMsb_two_pow_sub_one, by decide⟩
  rw [Rom.hashMsb, extractLsb'_27_5_toNat, BitVec.toNat_mul]
  rfl

end Sys2Proof.Machine
end

section
/-! PROOFS. The realisations through the ROM tables: LOG2 and BITLEN by the adapter, BIDXL and BIDXM by the De Bruijn
lookups (40_count.md R135, 42_isolate_index.md R214, R215). -/

namespace Sys2Proof.Machine

/-! ### The highest non-zero byte -/

theorem bitLength_add_256_mul {b m : Nat} (hb : b < 256) (hm : m ≠ 0) : bitLength (b + 256 * m) = 8 + bitLength m := by
  obtain ⟨k, hk⟩ : ∃ k, bitLength m = k + 1 := ⟨bitLength m - 1, by have := bitLength_pos hm; omega⟩
  have lo := two_pow_le_of_lt_bitLength (n := m) (m := k) (by omega)
  have hi := lt_two_pow_bitLength m
  rw [hk] at hi ⊢
  rw [show 8 + (k + 1) = 8 + k + 1 by omega]
  apply bitLength_eq_of_bounds <;> simp only [Nat.pow_add, Nat.pow_succ] at hi ⊢ <;> omega

/-- The highest non-zero byte holds the top bits of the number (44_adapter.md R281). -/
theorem bitLength_natOfBytes {bs : List Byte} {i : Nat} (h : hnzIndex bs = some i) :
    bitLength (natOfBytes bs) = 8 * i + bitLength (bs.getD i 0).toNat := by
  induction bs generalizing i with
  | nil => simp [hnzIndex] at h
  | cons b bs ih =>
    rw [hnzIndex] at h
    cases hh : hnzIndex bs with
    | some k =>
      obtain rfl : k + 1 = i := by simpa [hh] using h
      have hne : natOfBytes bs ≠ 0 := fun hz => by simp [hnzIndex_eq_none.2 hz] at hh
      rw [natOfBytes, bitLength_add_256_mul b.isLt hne, ih hh, List.getD_cons_succ]
      omega
    | none =>
      obtain ⟨_, rfl⟩ : b ≠ 0 ∧ 0 = i := by simpa [hh] using h
      simp [natOfBytes, hnzIndex_eq_none.1 hh]

theorem natOfBytes_bytes_of_nonneg {v : Int} (hv : 0 ≤ v) : natOfBytes (bytes v) = v.toNat := by
  have h := natOfBytes_bytes v
  have hfit := (byteLen_fits v).2
  have hpow : (2 : Int) ^ (8 * byteLen v - 1) ≤ (2 : Int) ^ (8 * byteLen v) :=
    pow_le_pow_right₀ (by decide) (by omega)
  rw [Int.emod_eq_of_lt hv (by omega)] at h
  omega

/-- The adapter's LOG2 of a positive integer is one less than its bit length (40_count.md R135). -/
theorem log2Adapter_bytes {v : Int} (hv : 0 < v) :
    ∃ k, log2Adapter Rom.contents (bytes v) = some k ∧ bitLength v.toNat = k + 1 := by
  have hn := natOfBytes_bytes_of_nonneg hv.le
  cases hi : hnzIndex (bytes v) with
  | none =>
    have := hnzIndex_eq_none.1 hi
    omega
  | some i =>
    have hb := bitLength_natOfBytes hi
    have hlog := bitLength_eq_log2_succ _ (hnzIndex_eq_some hi).2.1
    refine ⟨accByte i (Rom.contents.log2 ((bytes v).getD i 0)).toNat, by simp [log2Adapter, hi], ?_⟩
    rw [← hn, hb, hlog, accByte]
    omega

theorem exec_log2A_of_pos {s : State} {v : Int} (h : s.arbOperand v) (hv : 0 < v) :
    exec .log2A s = respond s (.cnt ((bitLength v.toNat : Int) - 1)) := by
  simp only [exec, execLog2A]
  rw [withArb_of_arbOperand h, inDomain_true ((notNegative_iff v).2 hv.le), log2Int, if_neg (by omega)]

theorem exec_bitlenA_of_pos {s : State} {v : Int} (h : s.arbOperand v) (hv : 0 < v) :
    exec .bitlenA s = respond s (.cnt (bitLength v.toNat)) := by
  simp only [exec, execBitlenA]
  rw [withArb_of_arbOperand h, bitLenInt, if_neg (by omega)]

/-- Settles O52: the highest non-zero byte fixes the bit length (`bitLength_natOfBytes`), and the table gives its own. -/
theorem adapterGivesLog2AndBitlen : Obligations.AdapterGivesLog2AndBitlen := by
  intro s v h hv
  obtain ⟨k, hk, hb⟩ := log2Adapter_bytes hv
  refine ⟨k, by rw [rom_val, h.2, hk], ?_, ?_⟩
  · rw [exec_log2A_of_pos h hv, hb, Nat.cast_succ, add_sub_cancel_right]
    rfl
  · rw [exec_bitlenA_of_pos h hv, hb]
    rfl

/-! ### The De Bruijn lookups -/

theorem ofNat_two_pow_ne_zero {w k : Nat} (hk : k < w) : BitVec.ofNat w (2 ^ k) ≠ 0 := fun h => by
  have := congrArg BitVec.toNat h
  rw [BitVec.toNat_ofNat, Nat.mod_eq_of_lt (Nat.pow_lt_pow_right (by decide) hk)] at this
  simp at this

theorem low_half_two_pow (k : Nat) :
    (BitVec.ofNat 64 (2 ^ k)).extractLsb' 0 32 = BitVec.ofNat 32 (2 ^ k) := by
  apply BitVec.eq_of_toNat_eq
  simp [BitVec.extractLsb'_toNat]

theorem high_half_two_pow_of_lt {k : Nat} (h : k < 32) : (BitVec.ofNat 64 (2 ^ k)).extractLsb' 32 32 = 0 := by
  have hlt := Nat.pow_lt_pow_right (a := 2) (by decide) h
  apply BitVec.eq_of_toNat_eq
  rw [BitVec.extractLsb'_toNat, BitVec.toNat_ofNat, Nat.mod_eq_of_lt (lt_trans hlt (by decide)),
    Nat.shiftRight_eq_div_pow, Nat.div_eq_of_lt hlt]
  rfl

theorem high_half_two_pow_of_le {k : Nat} (h : 32 ≤ k) (hk : k < 64) :
    (BitVec.ofNat 64 (2 ^ k)).extractLsb' 32 32 = BitVec.ofNat 32 (2 ^ (k - 32)) := by
  have hlt := Nat.pow_lt_pow_right (a := 2) (by decide) hk
  apply BitVec.eq_of_toNat_eq
  rw [BitVec.extractLsb'_toNat, BitVec.toNat_ofNat, BitVec.toNat_ofNat, Nat.mod_eq_of_lt hlt,
    Nat.shiftRight_eq_div_pow, Nat.pow_div h (by decide)]

theorem natOfBytes_bytes_two_pow (k : Nat) : natOfBytes (bytes ((2 : Int) ^ k)) = 2 ^ k := by
  rw [natOfBytes_bytes_of_nonneg (by positivity), show (2 : Int) ^ k = ((2 ^ k : Nat) : Int) by simp, Int.toNat_natCast]

/-- A sequence that holds an isolated bit has one byte that is not 0, and it holds the bit. -/
theorem getD_of_natOfBytes_two_pow {bs : List Byte} {k : Nat} (h : natOfBytes bs = 2 ^ k) (i : Nat) :
    bs.getD i 0 = if i = k / 8 then BitVec.ofNat 8 (2 ^ (k % 8)) else 0 := by
  apply BitVec.eq_of_getLsbD_eq
  intro r hr
  have hbit := natOfBytes_testBit bs (8 * i + r)
  rw [h, Nat.testBit_two_pow, show (8 * i + r) / 8 = i by omega, show (8 * i + r) % 8 = r by omega] at hbit
  rw [← hbit]
  split
  · rw [BitVec.getLsbD_ofNat, Nat.testBit_two_pow]
    simp only [hr, decide_true, Bool.true_and, decide_eq_decide]
    omega
  · simp
    omega

section
variable {lookup : Word32 → Nat} (hl : FindsIsolatedBit lookup)
include hl

/-- Through the half that holds the bit (42_isolate_index.md R214, R215). -/
theorem lookup64_two_pow {k : Nat} (hk : k < 64) : lookup64 lookup (BitVec.ofNat 64 (2 ^ k)) = k := by
  rw [lookup64]
  by_cases h32 : k < 32
  · rw [high_half_two_pow_of_lt h32, low_half_two_pow, if_neg (by simp), hl k h32]
  · have hne : BitVec.ofNat 32 (2 ^ (k - 32)) ≠ 0 := ofNat_two_pow_ne_zero (by omega)
    rw [high_half_two_pow_of_le (by omega) hk, if_pos hne, hl _ (by omega), accWord]
    omega

/-- Through the byte that holds the bit (42_isolate_index.md R214, R215). -/
theorem lookupArb_two_pow (k : Nat) : lookupArb lookup (bytes ((2 : Int) ^ k)) = k := by
  have hn := natOfBytes_bytes_two_pow k
  have hbyte := getD_of_natOfBytes_two_pow hn
  cases hi : lnzIndex (bytes ((2 : Int) ^ k)) with
  | none =>
    have := lnzIndex_eq_none.1 hi
    have := Nat.two_pow_pos k
    omega
  | some i =>
    obtain rfl : i = k / 8 := by
      by_contra hc
      exact (lnzIndex_eq_some hi).2.1 (by rw [hbyte, if_neg hc])
    rw [lookupArb, hi, Option.getD_some, hbyte, if_pos rfl, BitVec.setWidth_ofNat_of_le_of_lt (by decide)
      (Nat.pow_lt_pow_right (by decide) (by omega)), hl _ (by omega), accByte]
    omega

end

theorem respondIndex_isolated {s : State} {g : Bool} (h : g = true) (k : Nat) (c : Config.IndexCommand) (x : Int)
    (top : Nat) : respondIndex s g k c x top = respond s (.cnt k) := by
  rw [respondIndex, if_pos h]

theorem indexW_two_pow {w k : Nat} (s : State) (c : Config.IndexCommand) (hk : k < w) :
    indexW s c (BitVec.ofNat w (2 ^ k)) = respond s (.cnt k) := by
  have hlt := Nat.pow_lt_pow_right (a := 2) (by decide) hk
  have hiso : isolatedW (BitVec.ofNat w (2 ^ k)) = true :=
    isolatedW_iff.2 ⟨k, hk, by rw [BitVec.toNat_ofNat, Nat.mod_eq_of_lt hlt]⟩
  have hlow : IsLowestBit (BitVec.ofNat w (2 ^ k)) k := by
    refine ⟨by rw [BitVec.getLsbD_ofNat, Nat.testBit_two_pow]; simp [hk], fun j hj => ?_⟩
    rw [BitVec.getLsbD_ofNat, Nat.testBit_two_pow_of_ne (by omega), Bool.and_false]
  rw [indexW, respondIndex_isolated hiso, ctzW_of_isLowestBit hlow]

theorem ctz_two_pow (k : Nat) : ctz ((2 : Int) ^ k) = k :=
  ctz_unique dvd_rfl fun h => by
    have := Int.le_of_dvd (by positivity) h
    have hp : (0 : Int) < 2 ^ k := by positivity
    rw [pow_succ] at this
    omega

theorem indexArb_two_pow (s : State) (c : Config.IndexCommand) (k : Nat) :
    indexArb s c ((2 : Int) ^ k) = respond s (.cnt k) := by
  rw [indexArb, respondIndex_isolated (isolatedInt_iff.2 ⟨k, rfl⟩), ctz_two_pow]

/-- Settles O53: every lookup finds the isolated bit, whose index the commands answer. -/
theorem deBruijnRealisationsAgreeOnIsolatedBits : Obligations.DeBruijnRealisationsAgreeOnIsolatedBits := by
  refine ⟨fun s k hk h => ?_, fun s k hk h => ?_, fun s k h => ?_⟩
  · rw [rom_val, h, lookupLsb_findsIsolatedBit k hk, lookupMsb_findsIsolatedBit k hk]
    simp only [exec, execBidxl32, execBidxm32, h, indexW_two_pow s _ hk]
    exact ⟨rfl, rfl⟩
  · rw [rom_val, h, lookup64_two_pow lookupLsb_findsIsolatedBit hk, lookup64_two_pow lookupMsb_findsIsolatedBit hk]
    simp only [exec, execBidxl64, execBidxm64, h, indexW_two_pow s _ hk]
    exact ⟨rfl, rfl⟩
  · rw [rom_val, h.2, lookupArb_two_pow lookupLsb_findsIsolatedBit, lookupArb_two_pow lookupMsb_findsIsolatedBit]
    simp only [exec, execBidxlA, execBidxmA, withArb_of_arbOperand h, indexArb_two_pow]
    exact ⟨rfl, rfl⟩

end Sys2Proof.Machine
end

section
/-! PROOFS. A run of commands: what each step keeps of the state, and that each command is answered as if it were alone
(20_memory.md R70). -/

namespace Sys2Proof.Machine

/-! ### Runs -/

/-- A run that answers has taken its first step and runs on from there. -/
theorem run_succ_next {M : Host.Core} {n : Nat} {s t : M.State} (h : M.run (n + 1) s = .next t) :
    ∃ s', M.step s = .next s' ∧ M.run n s' = .next t := by
  rw [Host.Core.run] at h
  split at h
  case h_1 s' hs => exact ⟨s', hs, h⟩
  all_goals cases h

/-- A step takes the first command presented and writes no parameter of the block (10_state.md R34, R46). -/
theorem step_keeps_rest {s t : State} {c : Command} {rest : List Command} (hp : s.pending = c :: rest)
    (h : step s = .next t) : t.pending = rest ∧ t.nArbMax = s.nArbMax := by
  obtain ⟨_, hmax, hpend⟩ := commandFrame.2 s t h
  rw [hp] at hpend
  exact ⟨(List.cons.inj hpend).2.symm, hmax⟩

/-- Settles O16, by induction on the commands before: each step leaves the rest of them and N_ARB_MAX as they were, and
the step on c depends on c alone (`responseDependsOnCommandAlone`), at the count of draws that c is run at. -/
theorem runAnswersEachCommandAlone : Obligations.RunAnswersEachCommandAlone := by
  intro s t before c after hp hrun
  induction before generalizing s with
  | nil =>
    obtain ⟨s', hstep, hend⟩ := run_succ_next hrun
    obtain rfl : s' = t := Host.Outcome.next.inj hend
    obtain ⟨u, hu, hr, _⟩ := responseDependsOnCommandAlone s
      { State.reset with nArbMax := s.nArbMax, draws := s.draws, pending := [c] } s' c after [] hp rfl rfl rfl hstep
    exact ⟨s.draws, u, hu, hr.symm⟩
  | cons b before ih =>
    obtain ⟨s', hstep, hrest⟩ := run_succ_next hrun
    obtain ⟨hpend, hmax⟩ := step_keeps_rest hp hstep
    exact hmax ▸ ih s' hpend hrest

end Sys2Proof.Machine
end

section
/-! PROOFS. The minimal byte sequence of an integer, its signed reading, and the operand checks of ARB mode
(20_memory.md R61 to R63). -/

namespace Sys2Proof.Machine

/-! ### The minimal sequence and its reading -/

/-- Settles O22: `byteLen` is the least length, and the bytes are the digits of v mod 2^(8n). -/
theorem bytesAreTheMinimalSequence : Obligations.BytesAreTheMinimalSequence := by
  intro v
  rw [bytes_length]
  refine ⟨one_le_byteLen v, byteLen_fits v, fun n hn h => (byteLen_le_iff hn).2 h, fun i _ => ?_⟩
  rw [getD_toNat, ← natOfBytes_bytes]
  push_cast
  rfl

/-- The number a sequence holds is the weighted sum of its bytes (20_memory.md R60). -/
theorem natOfBytes_eq_sum (bs : List Byte) :
    (natOfBytes bs : Int) = ((List.range bs.length).map fun i => ((bs.getD i 0).toNat : Int) * (2 : Int) ^ (8 * i)).sum := by
  induction bs with
  | nil => rfl
  | cons b bs ih =>
    have shift (i : Nat) : (2 : Int) ^ (8 * (i + 1)) = (2 : Int) ^ (8 * i) * 256 := pow_add 2 (8 * i) 8
    simp only [List.length_cons, List.range_succ_eq_map, List.map_cons, List.sum_cons, List.map_map, Function.comp_def,
      Nat.succ_eq_add_one, List.getD_cons_zero, List.getD_cons_succ, shift, ← mul_assoc, List.sum_map_mul_right, ← ih]
    rw [natOfBytes]
    push_cast
    ring

/-- Settles O23: the reading is the weighted sum (`natOfBytes_eq_sum`), and reading `bytes(v)` gives v (`sval_bytes`). -/
theorem signedReadingOfBytes : Obligations.SignedReadingOfBytes := by
  refine ⟨fun bs _ => ?_, sval_bytes⟩
  rw [sval, natOfBytes_eq_sum]
  simp only [topNegative, decide_eq_true_eq]

/-! ### The operand checks -/

/-- The check of the model is that of 20_memory.md R63. -/
theorem minimal_iff_not_redundantTop (bs : List Byte) : minimal bs = true ↔ ¬ RedundantTop bs := by
  have hzero : ∀ b : Byte, b.toNat = 0x00 ↔ b = 0x00 := by decide
  have hones : ∀ b : Byte, b.toNat = 0xFF ↔ b = 0xFF := by decide
  simp only [minimal, RedundantTop, Bool.not_eq_true', ← Bool.not_eq_true, Bool.and_eq_true, Bool.or_eq_true,
    decide_eq_true_eq, hzero, hones]

/-- Every ARB command makes the operand checks before anything of its own (60_exceptions.md R304). -/
theorem exec_eq_withDecomposed {i : Instr} (h : i.width = .arb) (s : State) : ∃ k, exec i s = withDecomposed s k := by
  cases i <;> simp only [exec]
  case popcntA | bitlenA | log2A | lzcA | tzcA | foldrA | foldlA | ispow2A | roundupA | rounddnA | roundnrA | lsb1A |
    msb1A | bidxlA | bidxmA => exact ⟨fun _ => _, rfl⟩
  case revbitsA | adplenA | adphnzA | adplnzA => exact ⟨_, rfl⟩
  all_goals cases h

/-- Settles O24: the checks come first (`exec_eq_withDecomposed`), and what passes is minimal (`minimal_iff`). -/
theorem arbOperandValidity : Obligations.ArbOperandValidity := by
  intro i s hw hmax
  obtain ⟨k, hk⟩ := exec_eq_withDecomposed hw s
  rw [hk]
  refine ⟨fun h0 => withDecomposed_missing h0 k, fun hr => ?_, fun h0 hr => ?_⟩
  · have h2 : 2 ≤ s.ports.alen := by simpa using hr.1
    rw [withDecomposed, if_neg (by omega), if_neg (by omega),
      if_neg fun hm => (minimal_iff_not_redundantTop _).1 hm hr]
    rfl
  · have hne : s.ports.operandBytes ≠ [] := fun hc => h0 (by simpa using congrArg List.length hc)
    exact ⟨hmax, (minimal_iff hne).1 ((minimal_iff_not_redundantTop _).2 hr)⟩

end Sys2Proof.Machine
end

section
/-! PROOFS. What minimality makes of the non-zero-byte locators, and the population count word by word (44_adapter.md
R281, 40_count.md R131). -/

namespace Sys2Proof.Machine

/-! ### The locators on a minimal sequence -/

theorem natOfBytes_bytes_eq_zero_iff {v : Int} : natOfBytes (bytes v) = 0 ↔ v = 0 := by
  constructor
  · intro h
    refine eq_of_emod_eq (one_le_byteLen v) (byteLen_fits v) ⟨by simp, by positivity⟩ ?_
    rw [← natOfBytes_bytes, h]
    simp
  · rintro rfl
    decide

theorem topNegative_bytes_of_neg {v : Int} (hv : v < 0) : topNegative (bytes v) = true := by
  by_contra hc
  have h := sval_bytes v
  rw [sval, if_neg hc] at h
  omega

/-- A set sign bit makes the top byte the highest that is not 0. -/
theorem hnzIndex_of_topNegative {bs : List Byte} (h : topNegative bs = true) : hnzIndex bs = some (bs.length - 1) := by
  have htop : bs.getD (bs.length - 1) 0 ≠ 0 := fun hz => by
    rw [topNegative, hz] at h
    simp at h
  cases hi : hnzIndex bs with
  | none =>
    refine absurd (BitVec.eq_of_toNat_eq ?_) htop
    rw [getD_toNat, hnzIndex_eq_none.1 hi]
    simp
  | some i =>
    obtain ⟨hlt, _, above⟩ := hnzIndex_eq_some hi
    have : ¬ i < bs.length - 1 := fun hc => htop (above _ hc)
    rw [show i = bs.length - 1 by omega]

/-- The lowest 1 of the lowest non-zero byte is the lowest 1 of the number a sequence holds. -/
theorem natOfBytes_lowest {bs : List Byte} {i : Nat} (h : lnzIndex bs = some i) :
    (natOfBytes bs).testBit (8 * i + ctzW (bs.getD i 0)) = true ∧
      ∀ j, j < 8 * i + ctzW (bs.getD i 0) → (natOfBytes bs).testBit j = false := by
  obtain ⟨_, hne, below⟩ := lnzIndex_eq_some h
  obtain ⟨hlt, hset, hlow⟩ := ctzW_spec hne
  refine ⟨?_, fun j hj => ?_⟩
  · rw [natOfBytes_testBit, Nat.mul_add_div (by decide), Nat.div_eq_of_lt hlt, Nat.add_zero, Nat.mul_add_mod,
      Nat.mod_eq_of_lt hlt, hset]
  · rw [natOfBytes_testBit]
    obtain hb | hb : j / 8 < i ∨ j / 8 = i := by omega
    · rw [below _ hb]
      simp
    · rw [hb, hlow _ (by omega)]

/-- An integer and the number its bytes hold are divisible by the same powers of two, up to the length. -/
theorem two_pow_dvd_natOfBytes_bytes {v : Int} {k : Nat} (h : k ≤ 8 * byteLen v) :
    2 ^ k ∣ natOfBytes (bytes v) ↔ (2 : Int) ^ k ∣ v := by
  rw [← Int.natCast_dvd_natCast, natOfBytes_bytes]
  push_cast
  exact EuclideanDomain.dvd_mod_iff (pow_dvd_pow 2 h)

theorem ctz_of_lnzIndex_bytes {v : Int} {i : Nat} (h : lnzIndex (bytes v) = some i) :
    ctz v = 8 * i + ctzW ((bytes v).getD i 0) := by
  obtain ⟨hi, hne, _⟩ := lnzIndex_eq_some h
  have hbyte := (ctzW_spec hne).1
  rw [bytes_length] at hi
  obtain ⟨hdvd, hnot⟩ := lowest_iff_dvd.1 (natOfBytes_lowest h)
  exact ctz_unique ((two_pow_dvd_natOfBytes_bytes (by omega)).1 hdvd)
    fun hc => hnot ((two_pow_dvd_natOfBytes_bytes (by omega)).2 hc)

/-- Settles O48: the number the bytes hold is v for v > 0, has the sign bit for v < 0, and has the trailing zeros of
v ≠ 0. -/
theorem locatorFactsOfMinimalSequences : Obligations.LocatorFactsOfMinimalSequences := by
  intro v
  have hnone : hnzIndex (bytes v) = none ↔ v = 0 := hnzIndex_eq_none.trans natOfBytes_bytes_eq_zero_iff
  have lnone : lnzIndex (bytes v) = none ↔ v = 0 := lnzIndex_eq_none.trans natOfBytes_bytes_eq_zero_iff
  refine ⟨⟨hnone, lnone⟩, fun hv => ?_, fun hv => hnzIndex_of_topNegative (topNegative_bytes_of_neg hv), fun hv => ?_⟩
  · obtain ⟨i, hi⟩ := Option.ne_none_iff_exists'.1 fun hc => hv.ne' (hnone.1 hc)
    exact ⟨i, hi, by rw [← bitLength_natOfBytes hi, natOfBytes_bytes_of_nonneg hv.le]⟩
  · obtain ⟨i, hi⟩ := Option.ne_none_iff_exists'.1 fun hc => hv (lnone.1 hc)
    exact ⟨i, hi, ctz_of_lnzIndex_bytes hi⟩

/-! ### The population count word by word -/

/-- The 1 digits of a number are those of its low k bits and those above. -/
theorem popcount_add_two_pow_mul {k a : Nat} (b : Nat) (h : a < 2 ^ k) :
    popcount (a + 2 ^ k * b) = popcount a + popcount b := by
  induction k generalizing a with
  | zero =>
    obtain rfl : a = 0 := by simpa using h
    simp
  | succ k ih =>
    have e : 2 ^ (k + 1) * b = 2 * (2 ^ k * b) := by ring
    rw [popcount_step, popcount_step a, e, show (a + 2 * (2 ^ k * b)) % 2 = a % 2 by omega,
      show (a + 2 * (2 ^ k * b)) / 2 = a / 2 + 2 ^ k * b by omega, ih (by omega)]
    omega

/-- A sequence is its first word and, a word higher, the rest. -/
theorem natOfBytes_word_cons (b0 b1 b2 b3 : Byte) (bs : List Byte) :
    natOfBytes (b0 :: b1 :: b2 :: b3 :: bs) = natOfBytes [b0, b1, b2, b3] + 2 ^ 32 * natOfBytes bs := by
  simp only [natOfBytes]
  omega

theorem popcountWords_eq_popcount (bs : List Byte) : popcountWords bs = popcount (natOfBytes bs) := by
  induction bs using popcountWords.induct with
  | case1 | case2 | case3 | case4 => rfl
  | case5 b0 b1 b2 b3 bs ih =>
    have hword : natOfBytes [b0, b1, b2, b3] < 2 ^ 32 := natOfBytes_lt _
    rw [popcountWords, ih, natOfBytes_word_cons b0 b1 b2 b3 bs, popcount_add_two_pow_mul _ hword]

/-- Settles O51: the words hold the digits of the number the bytes hold (`popcountWords_eq_popcount`), which is v. -/
theorem wordSumIsPopulationCount : Obligations.WordSumIsPopulationCount := by
  intro s v h hv
  rw [h.2, popcountWords_eq_popcount, natOfBytes_bytes_of_nonneg hv]
  simp only [exec, execPopcntA]
  rw [withArb_of_arbOperand h, inDomain_true ((notNegative_iff v).2 hv)]
  rfl

end Sys2Proof.Machine
end

section
/-! PROOFS. REVBITS.A as the reversal of the 8n-bit pattern, and twice in a row (43_reverse_shift.md R245, R249). -/

namespace Sys2Proof.Machine

/-! ### The reversed sequence -/

@[simp] theorem reversedBytes_length (rom : Rom) (bs : List Byte) : (reversedBytes rom bs).length = bs.length := by
  simp [reversedBytes]

theorem reversedBytes_getD (bs : List Byte) {k : Nat} (h : k < bs.length) :
    (reversedBytes Rom.contents bs).getD k 0 = revW (bs.getD (bs.length - 1 - k) 0) := by
  rw [← reverse_getD h, ← rev8_eq_revW]
  simp [reversedBytes, List.getD_eq_getElem?_getD, h]

/-- Bit i of the reversed sequence is bit 8n-1-i of the sequence. -/
theorem natOfBytes_reversedBytes_testBit (bs : List Byte) {i : Nat} (h : i < 8 * bs.length) :
    (natOfBytes (reversedBytes Rom.contents bs)).testBit i = (natOfBytes bs).testBit (8 * bs.length - 1 - i) := by
  rw [natOfBytes_testBit, natOfBytes_testBit, reversedBytes_getD bs (by omega),
    revW_getLsbD _ (Nat.mod_lt i (by decide))]
  congr 2 <;> omega

theorem reversedBytes_reversedBytes (bs : List Byte) :
    reversedBytes Rom.contents (reversedBytes Rom.contents bs) = bs := by
  have hid : Rom.contents.rev8 ∘ Rom.contents.rev8 = id := funext fun b => by
    simp only [Function.comp_apply, rev8_eq_revW, revW_revW, id]
  simp [reversedBytes, ← List.map_reverse, hid]

/-! ### Sequences as patterns -/

/-- The signed reading of a sequence is that of its pattern (20_memory.md R62). -/
theorem toInt_ofNat_natOfBytes {bs : List Byte} (h : bs ≠ []) :
    (BitVec.ofNat (8 * bs.length) (natOfBytes bs)).toInt = sval bs := by
  have hlt := natOfBytes_lt bs
  have hsplit := two_pow_split (List.length_pos_iff.2 h)
  have htop := topNegative_iff h
  rw [BitVec.toInt_eq_toNat_cond, BitVec.toNat_ofNat, Nat.mod_eq_of_lt hlt, sval]
  by_cases hneg : topNegative bs = true
  · rw [if_neg (by have := htop.1 hneg; omega), if_pos hneg]
    simp
  · rw [if_pos (by have := mt htop.2 hneg; omega), if_neg hneg, sub_zero]

/-- The 8n-bit pattern of v, bit by bit. -/
theorem ofInt_getLsbD_eq_bytes (v : Int) (i : Nat) :
    (BitVec.ofInt (8 * byteLen v) v).getLsbD i = (natOfBytes (bytes v)).testBit i := by
  have hnat : (BitVec.ofInt (8 * byteLen v) v).toNat = natOfBytes (bytes v) := by
    rw [BitVec.toNat_ofInt]
    have := natOfBytes_bytes v
    push_cast
    omega
  rw [BitVec.getLsbD, hnat]

/-! ### The result of REVBITS.A -/

/-- The integer REVBITS.A gives for the operand v (43_reverse_shift.md R245). -/
def revArb (v : Int) : Int := sval (reversedBytes Rom.contents (bytes v))

theorem exec_revbitsA {s : State} {v : Int} (h : s.arbOperand v) :
    exec .revbitsA s = respond s (.arb (revArb v)) := by
  simp only [exec, execRevbitsA]
  rw [withDecomposed_of_arbOperand h, rom_val, revArb]

theorem toInt_eq_revArb {v : Int} {n : Nat} (hn : n = byteLen v) {f : BitVec (8 * n)}
    (h : ∀ i, i < 8 * n → f.getLsbD i = (BitVec.ofInt (8 * n) v).getLsbD (8 * n - 1 - i)) : f.toInt = revArb v := by
  subst hn
  have hl : (reversedBytes Rom.contents (bytes v)).length = byteLen v := by simp
  have hne : reversedBytes Rom.contents (bytes v) ≠ [] := List.length_pos_iff.1 (hl ▸ one_le_byteLen v)
  have hf : f = BitVec.ofNat (8 * byteLen v) (natOfBytes (reversedBytes Rom.contents (bytes v))) := by
    apply BitVec.eq_of_getLsbD_eq
    intro i hi
    have hr := natOfBytes_reversedBytes_testBit (bytes v) (i := i) (by simpa using hi)
    rw [bytes_length] at hr
    rw [h i hi, ofInt_getLsbD_eq_bytes, BitVec.getLsbD_ofNat, hr]
    simp [hi]
  rw [hf, revArb, ← toInt_ofNat_natOfBytes hne, hl]

/-- Where the first result keeps the length, its minimal sequence is the reversed one, and reversing that gives the
operand's. -/
theorem revArb_revArb_of_byteLen_eq {v : Int} (h : byteLen (revArb v) = byteLen v) : revArb (revArb v) = v := by
  have hb : reversedBytes Rom.contents (bytes v) = bytes (revArb v) :=
    eq_bytes_of_length (by rw [reversedBytes_length, bytes_length, ← h, revArb])
  rw [revArb, ← hb, reversedBytes_reversedBytes, sval_bytes]

/-! ### REVBITS.A twice -/

@[simp] theorem operandBytes_withSlot (c : Command) (p : SlotPort) : (c.withSlot p).operandBytes = p.rb := by
  apply List.ext_getElem
  · simp [Command.withSlot, SlotPort.rl]
  · intro k h1 h2
    simp [Command.operandBytes, Command.withSlot, List.getD_eq_getElem?_getD, h2]

/-- An integer result that the operand port can carry is the next operand once it is moved (30_encoding.md R102). -/
theorem arbOperand_r0Moved {s : State} {w : Int} {a b : Slot} (h : byteLen w ≤ s.nArbMax) :
    ((s.answered (Response.make .ok (.arb w) a b)).r0Moved).arbOperand w :=
  ⟨by simpa [State.r0Moved, Command.withSlot, SlotPort.rl] using h, by simp [State.r0Moved]⟩

/-- Two REVBITS.A in a row: the first result has no more bytes than the operand, so the port carries it. -/
theorem runMoved_revbitsA_revbitsA {s : State} {v : Int} (h : s.arbOperand v) :
    ∃ u, runMoved [.revbitsA, .revbitsA] s = .next u ∧
      u.response = some (Response.make .ok (.arb (revArb (revArb v))) .empty .empty) := by
  have hlen : byteLen (revArb v) ≤ s.nArbMax := by
    have := byteLen_sval_reversedBytes_le Rom.contents v
    have := arbOperand_alen h
    have := h.1
    rw [revArb]
    omega
  have hfirst := exec_revbitsA h
  have hsecond := exec_revbitsA (arbOperand_r0Moved (a := .empty) (b := .empty) hlen)
  rw [respond] at hfirst
  simp only [runMoved, hfirst, hsecond]
  exact ⟨_, rfl, rfl⟩

theorem revArb_revArb_512 : revArb (revArb 512) = 2 := by decide

/-- Settles O56: the result is the reversed pattern read as signed (`toInt_eq_revArb`), and the second reversal works on
the minimal sequence of the first result (`runMoved_revbitsA_revbitsA`). -/
theorem revbitsArbInvolutiveWhenLengthKept : Obligations.RevbitsArbInvolutiveWhenLengthKept := by
  refine ⟨fun s v h f hf => ?_, fun s h => ?_, fun s t r v h ht hr hrl => ?_⟩
  · rw [toInt_eq_revArb (arbOperand_alen h) hf]
    exact exec_revbitsA h
  · rw [← revArb_revArb_512]
    exact runMoved_revbitsA_revbitsA h
  · have hresp : Response.make .ok (.arb (revArb v)) .empty .empty = r := by
      rw [exec_revbitsA h, respond, Host.Outcome.next.injEq] at ht
      rw [← ht] at hr
      exact Option.some.inj hr
    have hlen : byteLen (revArb v) = byteLen v := by
      rw [← arbOperand_alen h, ← hrl, ← hresp]
      simp [SlotPort.rl]
    have hrun := runMoved_revbitsA_revbitsA h
    rwa [revArb_revArb_of_byteLen_eq hlen] at hrun

end Sys2Proof.Machine
end

section
/-! PROOFS. The encoding: the decoder and the encoder undo each other, and the words the decoder rejects are the illegal
ones (30_encoding.md R96, R97, R100, 60_exceptions.md R302). -/

namespace Sys2Proof.Machine

/-! ### The decoder on an encoded command -/

/-- Settles O7: the fields of an encoded command pass the decoder's checks, and the table has it at its place
(`decode_commandWord`); the count comes back from CNT (`count_roundtrip`). -/
theorem decodeOfEncode : Obligations.DecodeOfEncode := by
  intro i hwf
  cases i
  case roundup32 p | roundup64 p | roundupA p | rounddn32 p | rounddn64 p | rounddnA p =>
    exact decode_commandWord (by decide) (by decide) (by decide) (by decide) (fun _ => rfl) (by decide)
  case shlc32 c | shlc64 c | shrc32 c | shrc64 c =>
    rw [encode, decode_commandWord (by decide) (by decide) (by decide) (by decide) (by decide) (fun _ => rfl),
      count_roundtrip hwf]
    rfl
  all_goals exact decode_commandWord (by decide) (by decide) (by decide) (by decide) (by decide) (by decide)

/-! ### A word and its fields (30_encoding.md R90) -/

theorem fieldOp_toNat (w : Word32) : (fieldOp w).toNat = w.toNat % 64 := by
  simp [fieldOp, BitVec.extractLsb'_toNat]

theorem fieldWm_toNat (w : Word32) : (fieldWm w).toNat = w.toNat / 64 % 4 := by
  simp [fieldWm, BitVec.extractLsb'_toNat, Nat.shiftRight_eq_div_pow]

theorem fieldP_toNat (w : Word32) : (fieldP w).toNat = w.toNat / 256 % 2 := by
  simp [fieldP, BitVec.extractLsb'_toNat, Nat.shiftRight_eq_div_pow]

theorem fieldRsv0_toNat (w : Word32) : (fieldRsv0 w).toNat = w.toNat / 512 % 128 := by
  simp [fieldRsv0, BitVec.extractLsb'_toNat, Nat.shiftRight_eq_div_pow]

theorem fieldCnt_toNat (w : Word32) : (fieldCnt w).toNat = w.toNat / 65536 % 256 := by
  simp [fieldCnt, BitVec.extractLsb'_toNat, Nat.shiftRight_eq_div_pow]

theorem fieldRsv1_toNat (w : Word32) : (fieldRsv1 w).toNat = w.toNat / 16777216 := by
  have hw := w.isLt
  rw [fieldRsv1, BitVec.extractLsb'_toNat, Nat.shiftRight_eq_div_pow, Nat.mod_eq_of_lt (by omega)]

/-- The six fields are all of a word. -/
theorem word_eq_of_fields {w w' : Word32} (hop : (fieldOp w).toNat = (fieldOp w').toNat)
    (hwm : (fieldWm w).toNat = (fieldWm w').toNat) (hp : fieldP w = fieldP w') (hrsv0 : fieldRsv0 w = fieldRsv0 w')
    (hcnt : fieldCnt w = fieldCnt w') (hrsv1 : fieldRsv1 w = fieldRsv1 w') : w = w' := by
  rw [← BitVec.toNat_inj] at hp hrsv0 hcnt hrsv1 ⊢
  rw [fieldOp_toNat, fieldOp_toNat] at hop
  rw [fieldWm_toNat, fieldWm_toNat] at hwm
  rw [fieldP_toNat, fieldP_toNat] at hp
  rw [fieldRsv0_toNat, fieldRsv0_toNat] at hrsv0
  rw [fieldCnt_toNat, fieldCnt_toNat] at hcnt
  rw [fieldRsv1_toNat, fieldRsv1_toNat] at hrsv1
  omega

/-- A word without reserved bits is the command word of its fields (30_encoding.md R96). -/
theorem commandWord_fields {w : Word32} (h0 : fieldRsv0 w = 0) (h1 : fieldRsv1 w = 0) :
    commandWord (fieldOp w).toNat (fieldWm w).toNat (fieldP w == 1) (fieldCnt w).toInt = w := by
  have hop := (fieldOp w).isLt
  have hwm := (fieldWm w).isLt
  have hp : ∀ b : BitVec 1, (if (b == 1) = true then 1 else 0) = b := by decide
  apply word_eq_of_fields
  · exact fieldOp_commandWord hop
  · exact fieldWm_commandWord hop hwm
  · rw [fieldP_commandWord hop hwm, hp]
  · rw [fieldRsv0_commandWord hop hwm, h0]
  · rw [fieldCnt_commandWord hop hwm, BitVec.ofInt_toInt]
  · rw [fieldRsv1_commandWord hop hwm, h1]

/-! ### The words the decoder accepts -/

/-- The fields of a word meet none of the six conditions of 30_encoding.md R97. -/
structure LegalFields (w : Word32) : Prop where
  rsv : fieldRsv0 w = 0 ∧ fieldRsv1 w = 0
  op : (fieldOp w).toNat < 0x16
  wm : fieldWm w ≠ 3
  fixed : ¬ (opFixedOnly (fieldOp w) = true ∧ fieldWm w = 2)
  arb : ¬ (opArbOnly (fieldOp w) = true ∧ fieldWm w ≠ 2)
  p : ¬ (fieldP w = 1 ∧ ¬ opHasP (fieldOp w) = true)
  cnt : ¬ (fieldCnt w ≠ 0 ∧ ¬ opHasCnt (fieldOp w) = true)

/-- The entry of the table that the fields of a word name (30_encoding.md R95). -/
def tableEntry (w : Word32) : Option Instr :=
  instrAt (fieldOp w).toNat (fieldWm w).toNat (fieldP w == 1) (fieldCnt w).toInt

/-- The decoder (30_encoding.md R100): a word decodes to the table's entry exactly when its fields are legal. -/
theorem decode_eq_ok_iff {w : Word32} {i : Instr} : decode w = .ok i ↔ LegalFields w ∧ tableEntry w = some i := by
  constructor
  · intro h
    unfold decode at h
    split_ifs at h with hrsv hop hwm hfixed harb hp hcnt
    split at h
    · rename_i j hj
      cases h
      rw [not_or, not_not, not_not] at hrsv
      exact ⟨⟨hrsv, Nat.lt_of_not_le hop, hwm, hfixed, harb, hp, hcnt⟩, hj⟩
    · cases h
  · rintro ⟨h, hi⟩
    rw [tableEntry] at hi
    rw [decode, if_neg (by simp [h.rsv]), if_neg (Nat.not_le_of_lt h.op), if_neg h.wm, if_neg h.fixed, if_neg h.arb,
      if_neg h.p, if_neg h.cnt, hi]

theorem exists_decode_of_legalFields {w : Word32} (h : LegalFields w) : ∃ i, decode w = .ok i := by
  obtain ⟨i, hi⟩ := Option.isSome_iff_exists.1
    (instrAt_isSome_of_checks (fieldOp w) (fieldWm w) h.op h.wm h.fixed h.arb (fieldP w == 1) (fieldCnt w).toInt)
  exact ⟨i, decode_eq_ok_iff.2 ⟨h, hi⟩⟩

theorem exists_error_of_not_legalFields {w : Word32} (h : ¬ LegalFields w) : ∃ e, decode w = .error e := by
  cases hd : decode w with
  | error e => exact ⟨e, rfl⟩
  | ok i => exact absurd (decode_eq_ok_iff.1 hd).1 h

/-! ### The encoder on a decoded word -/

/-- A command of the table is encoded with the OP and WM of its place and with the fields P and CNT that its opcode
has, and is well formed when CNT can hold its count (30_encoding.md R93 to R96). -/
theorem encode_and_wf_of_instrAt {op wm : Nat} {p : Bool} {c : Int} {i : Instr} (h : instrAt op wm p c = some i) :
    encode i = commandWord op wm (opHasP (BitVec.ofNat 6 op) && p) (bif opHasCnt (BitVec.ofNat 6 op) then c else 0) ∧
      i.wf = (!opHasCnt (BitVec.ofNat 6 op) || countEncodable c) := by
  unfold instrAt at h
  split at h <;> cases h <;> exact ⟨rfl, rfl⟩

theorem countEncodable_toInt (x : BitVec 8) : countEncodable x.toInt = true := by
  have lo := x.le_toInt
  have hi := x.toInt_lt
  simp only [countEncodable, Bool.and_eq_true, decide_eq_true_eq]
  omega

/-- A legal word has P = 0 where its opcode has no such field (30_encoding.md R93). -/
theorem LegalFields.hasP_and {w : Word32} (h : LegalFields w) :
    (opHasP (fieldOp w) && (fieldP w == 1)) = (fieldP w == 1) := by
  by_cases hb : opHasP (fieldOp w) = true
  · rw [hb, Bool.true_and]
  · have h0 : fieldP w ≠ 1 := fun h1 => h.p ⟨h1, hb⟩
    rw [beq_false_of_ne h0, Bool.and_false]

/-- A legal word has CNT = 0 where its opcode has no such field (30_encoding.md R94). -/
theorem LegalFields.cond_hasCnt {w : Word32} (h : LegalFields w) :
    (bif opHasCnt (fieldOp w) then (fieldCnt w).toInt else 0) = (fieldCnt w).toInt := by
  by_cases hb : opHasCnt (fieldOp w) = true
  · rw [hb, cond_true]
  · have h0 : fieldCnt w = 0 := not_not.1 fun h1 => h.cnt ⟨h1, hb⟩
    rw [h0]
    exact Bool.cond_self _ _

/-- Settles O8: the fields of a legal word that its opcode does not have are 0, so the encoder of the table's command
(`encode_and_wf_of_instrAt`) writes all the word's fields, and they are all of the word (`commandWord_fields`). -/
theorem encodeOfDecode : Obligations.EncodeOfDecode := by
  intro w i hd
  obtain ⟨hlegal, hi⟩ := decode_eq_ok_iff.1 hd
  obtain ⟨henc, hwf⟩ := encode_and_wf_of_instrAt hi
  rw [BitVec.ofNat_toNat, BitVec.setWidth_eq] at henc hwf
  rw [hlegal.hasP_and, hlegal.cond_hasCnt, commandWord_fields hlegal.rsv.1 hlegal.rsv.2] at henc
  exact ⟨by rw [hwf, countEncodable_toInt, Bool.or_true], henc⟩

/-! ### The illegal words -/

theorem opFixedOnly_iff : ∀ op : BitVec 6, opFixedOnly op = true ↔ op.toNat ∈ [0x10, 0x11, 0x12] := by decide
theorem opArbOnly_iff : ∀ op : BitVec 6, opArbOnly op = true ↔ op.toNat ∈ [0x13, 0x14, 0x15] := by decide
theorem opHasP_iff : ∀ op : BitVec 6, opHasP op = true ↔ op.toNat ∈ [0x08, 0x09] := by decide
theorem opHasCnt_iff : ∀ op : BitVec 6, opHasCnt op = true ↔ op.toNat ∈ [0x11, 0x12] := by decide

theorem wm_mem_iff : ∀ wm : BitVec 2, wm.toNat ∈ [0, 1] ↔ wm ≠ 2 ∧ wm ≠ 3 := by decide

/-- The conditions of 30_encoding.md R97, read in the fields. -/
theorem illegalWord_iff_fields {w : Word32} : IllegalWord w ↔
    0x16 ≤ (fieldOp w).toNat ∨ fieldWm w = 3 ∨ (opFixedOnly (fieldOp w) = true ∧ fieldWm w = 2) ∨
      (opArbOnly (fieldOp w) = true ∧ fieldWm w ≠ 2 ∧ fieldWm w ≠ 3) ∨
      (fieldP w = 1 ∧ ¬ opHasP (fieldOp w) = true) ∨ (fieldCnt w ≠ 0 ∧ ¬ opHasCnt (fieldOp w) = true) ∨
      fieldRsv0 w ≠ 0 ∨ fieldRsv1 w ≠ 0 := by
  rw [IllegalWord, ← fieldOp_toNat, ← fieldWm_toNat, ← fieldP_toNat, ← fieldRsv0_toNat, ← fieldCnt_toNat,
    ← fieldRsv1_toNat, ← opFixedOnly_iff, ← opArbOnly_iff, ← opHasP_iff, ← opHasCnt_iff, wm_mem_iff]
  simp only [← BitVec.toNat_inj, ne_eq]
  rfl

theorem illegalWord_iff_not_legalFields {w : Word32} : IllegalWord w ↔ ¬ LegalFields w := by
  rw [illegalWord_iff_fields]
  constructor
  · rintro (hop | hwm | hfixed | ⟨harb, hwm, -⟩ | hp | hcnt | hrsv0 | hrsv1) h
    · exact absurd h.op (Nat.not_lt.2 hop)
    · exact h.wm hwm
    · exact h.fixed hfixed
    · exact h.arb ⟨harb, hwm⟩
    · exact h.p hp
    · exact h.cnt hcnt
    · exact hrsv0 h.rsv.1
    · exact hrsv1 h.rsv.2
  · intro h
    by_contra hn
    simp only [not_or] at hn
    obtain ⟨hop, hwm, hfixed, harb, hp, hcnt, hrsv0, hrsv1⟩ := hn
    exact h ⟨⟨not_not.1 hrsv0, not_not.1 hrsv1⟩, Nat.lt_of_not_le hop, hwm, hfixed,
      fun ⟨ha, hwm2⟩ => harb ⟨ha, hwm2, hwm⟩, hp, hcnt⟩

/-- Settles O9: the decoder rejects exactly the illegal words; on any other the step runs the decoded command, which
`encodeOfDecode` ties to the word. -/
theorem illegalWordsComplete : Obligations.IllegalWordsComplete := by
  intro s c rest hp
  constructor
  · intro h
    obtain ⟨e, he⟩ := exists_error_of_not_legalFields (illegalWord_iff_not_legalFields.1 h)
    exact step_of_illegal hp he
  · intro h
    rw [illegalWord_iff_not_legalFields, not_not] at h
    obtain ⟨i, hi⟩ := exists_decode_of_legalFields h
    obtain ⟨hwf, henc⟩ := encodeOfDecode _ _ hi
    exact ⟨i, hwf, henc, step_of_decode hp hi⟩

/-! ### Words of the table -/

/-- Settles O6: the decoder computes on the eight words. -/
theorem wordsOfTableDecode : Obligations.WordsOfTableDecode := by
  unfold Obligations.WordsOfTableDecode
  decide

end Sys2Proof.Machine
end

section
/-! PROOFS. LSBIDX and MSBIDX: the index of an isolated bit, through the host's move of R0 (30_encoding.md R102,
42_isolate_index.md R216). -/

namespace Sys2Proof.Machine

/-! ### The highest bit of an integer -/

/-- MSB1 of a positive integer is its highest power of two (42_isolate_index.md R212). -/
theorem msb1Int_eq_of_bounds {v : Int} {k : Nat} (lo : (2 : Int) ^ k ≤ v) (hi : v < (2 : Int) ^ (k + 1)) :
    msb1Int v = (2 : Int) ^ k := by
  have hpos := Nat.two_pow_pos k
  have hhalf : (((2 ^ (k + 1) - 1 : Nat) : Int) >>> (1 : Nat)) = ((2 ^ k - 1 : Nat) : Int) := by
    rw [Int.shiftRight_eq_div_pow]
    omega
  have hnot : intNot ((2 ^ k - 1 : Nat) : Int) = .negSucc (2 ^ k - 1) := by
    rw [intNot, Int.negSucc_eq]
    omega
  have hand : (2 ^ (k + 1) - 1) &&& (2 ^ k - 1) = 2 ^ k - 1 := by
    rw [Nat.and_two_pow_sub_one_eq_mod, show 2 ^ (k + 1) - 1 = 2 ^ k - 1 + 2 ^ k by omega, Nat.add_mod_right,
      Nat.mod_eq_of_lt (by omega)]
  rw [msb1Int, fold, bitLength_toNat_of_bounds lo hi, hhalf, hnot]
  change ((2 ^ (k + 1) - 1 - ((2 ^ (k + 1) - 1) &&& (2 ^ k - 1)) : Nat) : Int) = 2 ^ k
  rw [hand, show 2 ^ (k + 1) - 1 - (2 ^ k - 1) = 2 ^ k by omega, Nat.cast_pow, Nat.cast_ofNat]

/-- A number between 0 and v has no more bytes than v (20_memory.md R61). -/
theorem byteLen_le_of_le {r v : Int} (h0 : 0 ≤ r) (h : r ≤ v) : byteLen r ≤ byteLen v := by
  have := (byteLen_fits v).2
  have hp : (0 : Int) ≤ 2 ^ (8 * byteLen v - 1) := by positivity
  exact (byteLen_le_iff (one_le_byteLen v)).2 ⟨by omega, by omega⟩

/-! ### What each command of the sequences answers -/

section
variable {s : State} {k : Nat}

theorem exec_lsb132_of_lowest (h : IsLowestBit (opa32 s) k) :
    exec .lsb132 s = respond s (.pattern (BitVec.ofNat 32 (2 ^ k))) := by
  rw [← and_neg_eq_of_lowest h]
  rfl

theorem exec_lsb164_of_lowest (h : IsLowestBit (opa64 s) k) :
    exec .lsb164 s = respond s (.pattern (BitVec.ofNat 64 (2 ^ k))) := by
  rw [← and_neg_eq_of_lowest h]
  rfl

theorem exec_lsb1A_of_trailing {v : Int} (h : s.arbOperand v) (hk : IsTrailing v k) :
    exec .lsb1A s = respond s (.arb ((2 : Int) ^ k)) := by
  obtain ⟨hv, rfl⟩ := ctz_of_isTrailing hk
  simp only [exec, execLsb1A]
  rw [withArb_of_arbOperand h, intAnd_neg_self hv]

theorem exec_msb132_of_highest (h : IsHighestBit (opa32 s) k) :
    exec .msb132 s = respond s (.pattern (BitVec.ofNat 32 (2 ^ k))) := by
  rw [← msb1W_eq_of_highest h]
  rfl

theorem exec_msb164_of_highest (h : IsHighestBit (opa64 s) k) :
    exec .msb164 s = respond s (.pattern (BitVec.ofNat 64 (2 ^ k))) := by
  rw [← msb1W_eq_of_highest h]
  rfl

theorem exec_msb1A_of_bounds {v : Int} (h : s.arbOperand v) (lo : (2 : Int) ^ k ≤ v) (hi : v < (2 : Int) ^ (k + 1)) :
    exec .msb1A s = respond s (.arb ((2 : Int) ^ k)) := by
  have hv : 0 ≤ v := le_trans (by positivity) lo
  simp only [exec, execMsb1A]
  rw [withArb_of_arbOperand h, inDomain_true ((notNegative_iff v).2 hv), msb1Int_eq_of_bounds lo hi]

/-- BIDXL and BIDXM give the index of an isolated bit (42_isolate_index.md R214, R215). -/
theorem exec_index32_of_isolated (h : opa32 s = BitVec.ofNat 32 (2 ^ k)) (hk : k < 32) :
    exec .bidxl32 s = respond s (.cnt k) ∧ exec .bidxm32 s = respond s (.cnt k) := by
  simp only [exec, execBidxl32, execBidxm32, h, indexW_two_pow s _ hk, and_self]

theorem exec_index64_of_isolated (h : opa64 s = BitVec.ofNat 64 (2 ^ k)) (hk : k < 64) :
    exec .bidxl64 s = respond s (.cnt k) ∧ exec .bidxm64 s = respond s (.cnt k) := by
  simp only [exec, execBidxl64, execBidxm64, h, indexW_two_pow s _ hk, and_self]

theorem exec_indexA_of_isolated (h : s.arbOperand ((2 : Int) ^ k)) :
    exec .bidxlA s = respond s (.cnt k) ∧ exec .bidxmA s = respond s (.cnt k) := by
  simp only [exec, execBidxlA, execBidxmA, withArb_of_arbOperand h, indexArb_two_pow, and_self]

end

/-! ### Two commands in turn -/

/-- The state the host makes for the next command after an OK response with one slot (30_encoding.md R102). -/
def State.movedOn (s : State) (slot : Slot) : State := (s.answered (Response.make .ok slot .empty .empty)).r0Moved

theorem opa32_movedOn (s : State) (a : Word32) : opa32 (s.movedOn (.pattern a)) = a :=
  BitVec.setWidth_setWidth_of_le a (by decide)

theorem opa64_movedOn (s : State) (a : Word64) : opa64 (s.movedOn (.pattern a)) = a :=
  BitVec.setWidth_eq a

/-- The second of two commands runs on the moved R0 of the first (30_encoding.md R102). -/
theorem runMoved_pair {i j : Instr} {s : State} {slot out : Slot} (hi : exec i s = respond s slot)
    (hj : exec j (s.movedOn slot) = respond (s.movedOn slot) out) :
    ∃ t r, runMoved [i, j] s = .next t ∧ t.response = some r ∧ r = Response.make .ok out .empty .empty := by
  refine ⟨(s.movedOn slot).answered (Response.make .ok out .empty .empty), _, ?_, rfl, rfl⟩
  rw [respond] at hi
  rw [runMoved, hi]
  exact hj

/-- Settles O54: at each width the first command leaves an isolated bit, the host moves it, and the second answers
its index (`runMoved_pair`). At ARB the port must carry the isolated bit; that of MSB1 has no more bytes than the
operand. -/
theorem indexThroughIsolation : Obligations.IndexThroughIsolation := by
  refine ⟨fun s k h => ?_, fun s k h => ?_, fun s v k h hk hlen => ?_, fun s k h => ?_, fun s k h => ?_,
    fun s v k h lo hi => ?_⟩
  · exact runMoved_pair (exec_lsb132_of_lowest h)
      (exec_index32_of_isolated (opa32_movedOn _ _) (BitVec.lt_of_getLsbD h.1)).1
  · exact runMoved_pair (exec_lsb164_of_lowest h)
      (exec_index64_of_isolated (opa64_movedOn _ _) (BitVec.lt_of_getLsbD h.1)).1
  · exact runMoved_pair (exec_lsb1A_of_trailing h hk) (exec_indexA_of_isolated (arbOperand_r0Moved hlen)).1
  · exact runMoved_pair (exec_msb132_of_highest h)
      (exec_index32_of_isolated (opa32_movedOn _ _) (BitVec.lt_of_getLsbD h.1)).2
  · exact runMoved_pair (exec_msb164_of_highest h)
      (exec_index64_of_isolated (opa64_movedOn _ _) (BitVec.lt_of_getLsbD h.1)).2
  · have hlen : byteLen ((2 : Int) ^ k) ≤ s.nArbMax := by
      calc byteLen ((2 : Int) ^ k) ≤ byteLen v := byteLen_le_of_le (by positivity) lo
        _ = s.ports.alen := (arbOperand_alen h).symm
        _ ≤ s.nArbMax := h.1
    exact runMoved_pair (exec_msb1A_of_bounds h lo hi) (exec_indexA_of_isolated (arbOperand_r0Moved hlen)).2

end Sys2Proof.Machine
end

section
/-! PROOFS. The counting family: POPCNT, BITLEN, LOG2, LZC, TZC (40_count.md), and the domain check "not negative" that
three of them make. -/

namespace Sys2Proof.Machine

/-! ### Command words and the domain check -/

theorem wordsOf_legal {l : List (Word32 × Instr)} (h : ∀ p ∈ l, decode p.1 = .ok p.2) : WordsOf l [] :=
  ⟨h, fun _ hw => absurd hw List.not_mem_nil⟩

section
variable {s : State} {o k : Outcome} {x : Int}

theorem failsWith_of_neg (h : o = inDomain s (notNegative x) k) (hx : x < 0) : FailsWith o s .invalidArgument :=
  h.trans (inDomain_false (Bool.eq_false_iff.2 (mt (notNegative_iff x).1 (not_le.2 hx))))

theorem completes_of_nonneg {slot : Slot} (h : o = inDomain s (notNegative x) (respond s slot)) (hx : 0 ≤ x) :
    Completes o s slot :=
  h.trans (inDomain_true ((notNegative_iff x).2 hx))

end

section
variable {s : State} {v : Int} (h : s.arbOperand v)
include h

theorem exec_popcntA : exec .popcntA s = inDomain s (notNegative v) (respond s (.cnt (popcount v.toNat))) := by
  rw [exec, execPopcntA, withArb_of_arbOperand h]

theorem exec_bitlenA : exec .bitlenA s = respond s (.cnt (bitLenInt v)) := by
  rw [exec, execBitlenA, withArb_of_arbOperand h]

theorem exec_log2A : exec .log2A s = inDomain s (notNegative v) (respond s (.cnt (log2Int v))) := by
  rw [exec, execLog2A, withArb_of_arbOperand h]

theorem exec_lzcA : exec .lzcA s = inDomain s (notNegative v) (respond s (.cnt (lzcInt v))) := by
  rw [exec, execLzcA, withArb_of_arbOperand h]

theorem exec_tzcA : exec .tzcA s = respond s (.cnt (tzcInt v)) := by
  rw [exec, execTzcA, withArb_of_arbOperand h]

end

/-! ### POPCNT -/

theorem popcount_eq_onesAmong {k n : Nat} (h : n < 2 ^ k) : popcount n = onesAmong k n := popcount_eq_countP h

/-- The lowest k digits of a number are those of its residue. -/
theorem onesAmong_mod_two_pow (k n : Nat) : onesAmong k (n % 2 ^ k) = onesAmong k n :=
  List.countP_congr fun i hi => by simp [Nat.testBit_mod_two_pow, List.mem_range.1 hi]

theorem popcount_opa32 (s : State) : popcount (opa32 s).toNat = onesAmong 32 s.ports.opa.toNat := by
  rw [popcount_eq_onesAmong (opa32 s).isLt, opa32, BitVec.toNat_setWidth, onesAmong_mod_two_pow]

/-- The bytes of an operand v ≥ 0 hold it. -/
theorem toNat_lt_of_arbOperand {s : State} {v : Int} (h : s.arbOperand v) (hv : 0 ≤ v) :
    v.toNat < 2 ^ (8 * s.ports.alen) :=
  lt_of_lt_of_le (arbOperand_toNat_lt h hv) (Nat.pow_le_pow_right (by decide) (Nat.sub_le _ 1))

/-- Settles O25: the population count is the number of 1 digits among any k that hold the operand
(`popcount_eq_onesAmong`). -/
theorem popcntCountsSetBits : Obligations.PopcntCountsSetBits := by
  refine ⟨wordsOf_legal (by decide), fun s => ?_, fun s => ?_,
    fun s v h => ⟨failsWith_of_neg (exec_popcntA h), fun hv => ?_⟩⟩
  · rw [← popcount_opa32]
    rfl
  · rw [← popcount_eq_onesAmong s.ports.opa.isLt]
    rfl
  · rw [← popcount_eq_onesAmong (toNat_lt_of_arbOperand h hv)]
    exact completes_of_nonneg (exec_popcntA h) hv

/-! ### BITLEN -/

theorem bitLenInt_of_pos {v : Int} {m : Nat} (hv : 0 < v) (h : IsBitLength v.toNat m) : bitLenInt v = m := by
  rw [bitLenInt, if_neg (by omega), bitLength_of_isBitLength h]

theorem bitLenInt_of_neg {v : Int} (hv : v < 0) : bitLenInt v = -1 := if_pos hv

/-- A pattern that is not negative is counted as the integer it reads as (40_count.md R132). -/
theorem bitLenW_of_nonneg {w : Nat} {a : BitVec w} (h : 0 ≤ a.toInt) : bitLenW a = bitLenInt a.toInt := by
  rw [bitLenW, bitLenInt, if_neg (by omega), if_neg (by omega)]

theorem bitLenW_of_neg {w : Nat} {a : BitVec w} (h : a.toInt < 0) : bitLenW a = w := if_pos h

theorem bitlenFixed_of_exec {w : Nat} {i : Instr} {s : State} {a : BitVec w}
    (h : exec i s = respond s (.cnt (bitLenW a))) : BitlenFixed i s a := by
  refine ⟨fun h0 => ?_, fun m hpos hm => ?_, fun hneg => ?_⟩
  · rw [bitLenW_of_nonneg h0.ge, h0] at h
    exact h
  · rw [bitLenW_of_nonneg hpos.le, bitLenInt_of_pos hpos hm] at h
    exact h
  · rw [bitLenW_of_neg hneg] at h
    exact h

/-- Settles O26: one lemma per sign of the operand, the fixed widths together (`bitlenFixed_of_exec`). -/
theorem bitlenGivesBitLength : Obligations.BitlenGivesBitLength := by
  refine ⟨wordsOf_legal (by decide), fun s => bitlenFixed_of_exec rfl, fun s => bitlenFixed_of_exec rfl,
    fun s v h => ⟨?_, fun m hpos hm => ?_, fun hneg => ?_⟩⟩
  · rintro rfl
    exact exec_bitlenA h
  · rw [← bitLenInt_of_pos hpos hm]
    exact exec_bitlenA h
  · rw [← bitLenInt_of_neg hneg]
    exact exec_bitlenA h

/-! ### LOG2 -/

theorem log2Int_of_bounds {x : Int} {k : Nat} (lo : (2 : Int) ^ k ≤ x) (hi : x < (2 : Int) ^ (k + 1)) :
    log2Int x = k := by
  have hx : x ≠ 0 := (lt_of_lt_of_le (by positivity) lo).ne'
  rw [log2Int, if_neg hx, bitLength_toNat_of_bounds lo hi, Nat.cast_succ, add_sub_cancel_right]

theorem log2Of_of_exec {i : Instr} {s : State} {x : Int}
    (h : exec i s = inDomain s (notNegative x) (respond s (.cnt (log2Int x)))) : Log2Of i s x := by
  refine ⟨failsWith_of_neg h, ?_, fun k lo hi => ?_⟩
  · rintro rfl
    exact completes_of_nonneg h le_rfl
  · rw [← log2Int_of_bounds lo hi]
    exact completes_of_nonneg h (le_trans (by positivity) lo)

/-- Settles O27: the three widths are one command on an exact operand (`log2Of_of_exec`). -/
theorem log2GivesHighestBit : Obligations.Log2GivesHighestBit :=
  ⟨wordsOf_legal (by decide), fun _ => log2Of_of_exec rfl, fun _ => log2Of_of_exec rfl,
    fun _ _ h => log2Of_of_exec (exec_log2A h)⟩

/-! ### LZC -/

/-- No pattern is longer than its width, so the difference of `clz_W` is exact (00_scope.md R13). -/
theorem clzW_of_isBitLength {w m : Nat} {a : BitVec w} (h : IsBitLength a.toNat m) : (clzW a : Int) = w - m := by
  have hm : bitLength a.toNat = m := bitLength_of_isBitLength h
  have hle : bitLength a.toNat ≤ w := bitLength_le_iff.2 a.isLt
  rw [clzW]
  omega

theorem lzcInt_of_isBitLength {v : Int} {b m : Nat} (hb : IsBitLength v.toNat b) (hm : IsBitLength b m) :
    lzcInt v = (2 : Int) ^ m - b := by
  rw [lzcInt, bitLength_of_isBitLength hb, bitLength_of_isBitLength hm]

/-- Settles O28: the bit lengths of the statement are those the meanings compute. -/
theorem lzcCountsLeadingZeros : Obligations.LzcCountsLeadingZeros := by
  refine ⟨wordsOf_legal (by decide), fun s m hm => ?_, fun s m hm => ?_,
    fun s v h => ⟨failsWith_of_neg (exec_lzcA h), fun b m hv hb hm => ?_⟩⟩
  · exact congrArg (fun n => respond s (.cnt n)) (clzW_of_isBitLength hm)
  · exact congrArg (fun n => respond s (.cnt n)) (clzW_of_isBitLength hm)
  · rw [← lzcInt_of_isBitLength hb hm]
    exact completes_of_nonneg (exec_lzcA h) hv

/-! ### TZC -/

theorem natCast_two_pow_sub_one (k : Nat) : ((2 ^ k - 1 : Nat) : Int) = (2 : Int) ^ k - 1 := by
  rw [Nat.cast_pred (Nat.two_pow_pos k), Nat.cast_pow, Nat.cast_ofNat]

/-- The bits below the lowest 1 are counted as those of `2^k - 1` (40_count.md R138). -/
theorem tzcInt_of_isTrailing {v : Int} {k : Nat} (h : IsTrailing v k) : tzcInt v = k := by
  obtain ⟨hv, rfl⟩ := ctz_of_isTrailing h
  rw [tzcInt, if_neg hv, intAnd_neg_self hv, ← natCast_two_pow_sub_one, Int.toNat_natCast, popcount_two_pow_sub_one]

/-- A fixed-width TZC, for a pattern of any width (40_count.md R138). -/
theorem tzcFixed_of_exec {w : Nat} {i : Instr} {s : State} {a : BitVec w} (h : exec i s = respond s (.cnt (ctzW a))) :
    (a = 0 → Completes (exec i s) s (.cnt w)) ∧ ∀ k : Nat, IsLowestBit a k → Completes (exec i s) s (.cnt k) := by
  refine ⟨?_, fun k hk => ?_⟩
  · rintro rfl
    rw [ctzW_zero] at h
    exact h
  · rw [ctzW_of_isLowestBit hk] at h
    exact h

/-- Settles O29: the count is the place of the lowest set bit at a fixed width (`tzcFixed_of_exec`), and of the bit
that `v & -v` isolates at ARB (`tzcInt_of_isTrailing`). -/
theorem tzcCountsTrailingZeros : Obligations.TzcCountsTrailingZeros := by
  refine ⟨wordsOf_legal (by decide), fun s => tzcFixed_of_exec rfl, fun s => tzcFixed_of_exec rfl,
    fun s v h => ⟨?_, fun k hk => ?_⟩⟩
  · rintro rfl
    exact exec_tzcA h
  · rw [← tzcInt_of_isTrailing hk]
    exact exec_tzcA h

end Sys2Proof.Machine
end

section
/-! PROOFS. One set bit: ISPOW2 against POPCNT, and the bit that LSB1 isolates (40_count.md R140, 41_fold_pow2.md R175,
42_isolate_index.md R211). -/

namespace Sys2Proof.Machine

/-! ### ISPOW2 and POPCNT -/

theorem popcount_le_of_lt {k n : Nat} (h : n < 2 ^ k) : popcount n ≤ k := by
  rw [popcount_eq_countP h]
  exact List.countP_le_length.trans_eq List.length_range

theorem popcount_eq_one_iff_and_pred {n : Nat} (h : 0 < n) : popcount n = 1 ↔ n &&& (n - 1) = 0 :=
  popcount_eq_one_iff.trans (and_pred_eq_zero_iff h).symm

theorem toNat_sub_one {w : Nat} {a : BitVec w} (h : 0 < a.toNat) : (a - 1).toNat = a.toNat - 1 := by
  have h1 : (1 : BitVec w).toNat = 1 := Nat.mod_eq_of_lt (Nat.lt_of_le_of_lt h a.isLt)
  rw [BitVec.toNat_sub_of_le (BitVec.le_def.2 (h1 ▸ h)), h1]

theorem isPow2W_of_pos {w : Nat} {a : BitVec w} (h : 0 < a.toInt) :
    isPow2W a = if popcount a.toNat = 1 then 1 else 0 := by
  have hpos : 0 < a.toNat := by
    rw [BitVec.toInt_eq_toNat_cond] at h
    split_ifs at h <;> omega
  have hand : a &&& (a - 1) = 0 ↔ popcount a.toNat = 1 := by
    rw [popcount_eq_one_iff_and_pred hpos, ← BitVec.toNat_inj, BitVec.toNat_and, toNat_sub_one hpos]
    rfl
  rw [isPow2W]
  simp only [h, true_and, hand]

theorem isPow2_eq_isolatedInt (v : Int) : isPow2 v = isolatedInt v :=
  Bool.eq_iff_iff.2 (isPow2_iff.trans isolatedInt_iff.symm)

theorem isPow2_iff_popcount {v : Int} (h : 0 < v) : isPow2 v = true ↔ popcount v.toNat = 1 := by
  simp [isPow2_eq_isolatedInt, isolatedInt, h]

/-- The test answers 1 exactly when the count is 1, whatever commands give the two on an operand of k bits. -/
theorem count_and_test_agree {i j : Instr} {s : State} {k n : Nat} (hn : n < 2 ^ k)
    (hi : exec i s = respond s (.cnt (popcount n))) (hj : exec j s = respond s (.cnt (if popcount n = 1 then 1 else 0))) :
    ∃ c b : Nat, c ≤ k ∧ b ≤ 1 ∧ Completes (exec i s) s (.cnt c) ∧ Completes (exec j s) s (.cnt b) ∧ (b = 1 ↔ c = 1) := by
  have hc := popcount_le_of_lt hn
  by_cases h1 : popcount n = 1
  · rw [if_pos h1] at hj
    exact ⟨popcount n, 1, hc, le_rfl, hi, hj, by simp [h1]⟩
  · rw [if_neg h1] at hj
    exact ⟨popcount n, 0, hc, Nat.zero_le 1, hi, hj, by simp [h1]⟩

theorem exec_ispow232_of_pos {s : State} (h : 0 < (opa32 s).toInt) :
    exec .ispow232 s = respond s (.cnt (if popcount (opa32 s).toNat = 1 then 1 else 0)) := by
  rw [exec, execIspow232, isPow2W_of_pos h]

theorem exec_ispow264_of_pos {s : State} (h : 0 < (opa64 s).toInt) :
    exec .ispow264 s = respond s (.cnt (if popcount (opa64 s).toNat = 1 then 1 else 0)) := by
  rw [exec, execIspow264, isPow2W_of_pos h]

section
variable {s : State} {v : Int} (h : s.arbOperand v)
include h

theorem exec_ispow2A_of_pos (hv : 0 < v) :
    exec .ispow2A s = respond s (.cnt (if popcount v.toNat = 1 then 1 else 0)) := by
  rw [exec, execIspow2A, withArb_of_arbOperand h]
  simp only [isPow2_iff_popcount hv]

theorem exec_foldrA : exec .foldrA s = inDomain s (notNegative v) (respond s (.arb (fold v.toNat))) := by
  rw [exec, execFoldrA, withArb_of_arbOperand h]

/-- FOLDR of an integer that is not negative is one less than a power of two above it (41_fold_pow2.md R170, R175). -/
theorem foldrA_completes (hv : 0 ≤ v) :
    ∃ k : Nat, v < (2 : Int) ^ k ∧ Completes (exec .foldrA s) s (.arb ((2 : Int) ^ k - 1)) := by
  refine ⟨bitLength v.toNat, ?_, ?_⟩
  · have hlt := lt_two_pow_bitLength v.toNat
    zify at hlt
    rwa [Int.toNat_of_nonneg hv] at hlt
  · rw [← natCast_two_pow_sub_one]
    exact completes_of_nonneg (exec_foldrA h) hv

end

/-- Settles O59: at every width both commands turn on the population count of the operand (`count_and_test_agree`). -/
theorem ispow2AgreesWithPopcnt : Obligations.Ispow2AgreesWithPopcnt := by
  refine ⟨fun s hs => ?_, fun s hs => ?_, fun s v h hv => ?_⟩
  · exact count_and_test_agree (opa32 s).isLt rfl (exec_ispow232_of_pos hs)
  · exact count_and_test_agree (opa64 s).isLt rfl (exec_ispow264_of_pos hs)
  · obtain ⟨c, b, hc, hb, hcount, htest, hiff⟩ := count_and_test_agree (toNat_lt_of_arbOperand h hv.le)
      (completes_of_nonneg (exec_popcntA h) hv.le) (exec_ispow2A_of_pos h hv)
    exact ⟨c, b, hc, hb, hcount, htest, hiff, fun _ => foldrA_completes h hv.le⟩

/-! ### LSB1 -/

/-- Far enough up, the string of a number that is not negative has a 0 and that of a negative one a 1. -/
theorem exists_testBit_ne (a b : Nat) : ∃ i, (Int.ofNat a).testBit i ≠ (Int.negSucc b).testBit i := by
  have ha : a < 2 ^ (a + b) := Nat.lt_two_pow_self.trans_le (Nat.pow_le_pow_right (by decide) (Nat.le_add_right a b))
  have hb : b < 2 ^ (a + b) := Nat.lt_two_pow_self.trans_le (Nat.pow_le_pow_right (by decide) (Nat.le_add_left b a))
  have h0 : (Int.ofNat a).testBit (a + b) = false := Nat.testBit_lt_two_pow ha
  have h1 : (Int.negSucc b).testBit (a + b) = true := congrArg not (Nat.testBit_lt_two_pow hb)
  exact ⟨a + b, by rw [h0, h1]; decide⟩

/-- Integers with the same infinite two's-complement string are equal (00_scope.md R11). -/
theorem int_eq_of_testBit_eq {x y : Int} (h : ∀ i, x.testBit i = y.testBit i) : x = y := by
  cases x with
  | ofNat a =>
    cases y with
    | ofNat b => exact congrArg Int.ofNat (Nat.eq_of_testBit_eq h)
    | negSucc b =>
      obtain ⟨i, hi⟩ := exists_testBit_ne a b
      exact absurd (h i) hi
  | negSucc a =>
    cases y with
    | ofNat b =>
      obtain ⟨i, hi⟩ := exists_testBit_ne b a
      exact absurd (h i).symm hi
    | negSucc b => exact congrArg Int.negSucc (Nat.eq_of_testBit_eq fun i => Bool.not_inj (h i))

/-- `x & y` is a part of x. -/
theorem intAnd_intAnd_left (x y : Int) : intAnd (intAnd x y) x = intAnd x y :=
  int_eq_of_testBit_eq fun i => by
    rw [intAnd_testBit, intAnd_testBit, Bool.and_right_comm, Bool.and_self]

theorem and_neg_and_self {w : Nat} (a : BitVec w) : a &&& -a &&& a = a &&& -a := by
  rw [BitVec.and_comm, ← BitVec.and_assoc, BitVec.and_self]

theorem popcount_ofNat_two_pow {w k : Nat} (hk : k < w) : popcount (BitVec.ofNat w (2 ^ k)).toNat = 1 := by
  rw [BitVec.toNat_ofNat, Nat.mod_eq_of_lt (Nat.pow_lt_pow_right (by decide) hk)]
  exact popcount_eq_one_iff.2 ⟨k, rfl⟩

section
variable {s : State} {k : Nat}

theorem exec_popcnt32_of_isolated (h : opa32 s = BitVec.ofNat 32 (2 ^ k)) (hk : k < 32) :
    exec .popcnt32 s = respond s (.cnt 1) := by
  rw [exec, execPopcnt32, h, popcount_ofNat_two_pow hk]
  rfl

theorem exec_popcnt64_of_isolated (h : opa64 s = BitVec.ofNat 64 (2 ^ k)) (hk : k < 64) :
    exec .popcnt64 s = respond s (.cnt 1) := by
  rw [exec, execPopcnt64, h, popcount_ofNat_two_pow hk]
  rfl

theorem exec_popcntA_of_isolated (h : s.arbOperand ((2 : Int) ^ k)) : exec .popcntA s = respond s (.cnt 1) := by
  have hcount : popcount ((2 : Int) ^ k).toNat = 1 := (isPow2_iff_popcount (by positivity)).1 (isPow2_iff.2 ⟨k, rfl⟩)
  have hexec := completes_of_nonneg (exec_popcntA h) (by positivity)
  rw [hcount] at hexec
  exact hexec

end

theorem runMoved_pair_response {i j : Instr} {s : State} {slot out : Slot} (hi : exec i s = respond s slot)
    (hj : exec j (s.movedOn slot) = respond (s.movedOn slot) out) :
    ∃ t, runMoved [i, j] s = .next t ∧ t.response = some (Response.make .ok out .empty .empty) := by
  obtain ⟨t, r, hrun, hr, rfl⟩ := runMoved_pair hi hj
  exact ⟨t, hrun, hr⟩

/-- Settles O60: LSB1 answers `x & -x`, which is a part of x and an isolated bit, so the count of the second command
is 1 (`runMoved_pair`). -/
theorem lsb1IsOneBitOfOperand : Obligations.Lsb1IsOneBitOfOperand := by
  refine ⟨fun s hs => ?_, fun s hs => ?_, fun s v h hv => ?_⟩
  · have hlow := isLowestBit_ctzW hs
    exact ⟨opa32 s &&& -opa32 s, rfl, and_neg_and_self _, runMoved_pair_response (exec_lsb132_of_lowest hlow)
      (exec_popcnt32_of_isolated (opa32_movedOn _ _) (ctzW_spec hs).1)⟩
  · have hlow := isLowestBit_ctzW hs
    exact ⟨opa64 s &&& -opa64 s, rfl, and_neg_and_self _, runMoved_pair_response (exec_lsb164_of_lowest hlow)
      (exec_popcnt64_of_isolated (opa64_movedOn _ _) (ctzW_spec hs).1)⟩
  · have hlsb := exec_lsb1A_of_trailing h (isTrailing_ctz hv)
    refine ⟨(2 : Int) ^ ctz v, hlsb, ?_, fun hlen => ?_⟩
    · rw [← intAnd_neg_self hv, intAnd_intAnd_left]
    · exact runMoved_pair_response hlsb (exec_popcntA_of_isolated (arbOperand_r0Moved hlen))

end Sys2Proof.Machine
end

section
/-! PROOFS. The fold commands: FOLDR and FOLDL, bit by bit at a fixed width and in closed form at ARB
(41_fold_pow2.md R170, R172). -/

namespace Sys2Proof.Machine

/-! ### The folds of a pattern, bit by bit -/

theorem lt_bitLength_iff {n i : Nat} : i < bitLength n ↔ ∃ j, i ≤ j ∧ n.testBit j = true := by
  constructor
  · intro h
    have hn : n ≠ 0 := by
      rintro rfl
      exact absurd h (Nat.not_lt_zero i)
    exact ⟨bitLength n - 1, by omega, testBit_bitLength_sub_one hn⟩
  · rintro ⟨j, hij, hj⟩
    exact lt_of_le_of_lt hij (lt_bitLength_of_testBit hj)

theorem ctzW_le_iff {w i : Nat} {a : BitVec w} (ha : a ≠ 0) : ctzW a ≤ i ↔ ∃ j, j ≤ i ∧ a.getLsbD j = true := by
  obtain ⟨-, hset, hlow⟩ := ctzW_spec ha
  constructor
  · exact fun h => ⟨ctzW a, h, hset⟩
  · rintro ⟨j, hji, hj⟩
    by_contra hc
    rw [hlow j (by omega)] at hj
    exact absurd hj (by decide)

theorem foldW_getLsbD_iff {w : Nat} (a : BitVec w) (i : Nat) :
    (foldW a).getLsbD i = true ↔ ∃ j, i ≤ j ∧ a.getLsbD j = true := by
  rw [foldW_getLsbD, decide_eq_true_iff]
  exact lt_bitLength_iff

/-- A right and a left shift by the same count clear the bits below it. -/
theorem getLsbD_ushiftRight_shiftLeft_iff {w : Nat} (a : BitVec w) (n i : Nat) :
    ((a >>> n) <<< n).getLsbD i = true ↔ n ≤ i ∧ a.getLsbD i = true := by
  rw [BitVec.getLsbD_shiftLeft, BitVec.getLsbD_ushiftRight]
  by_cases h : n ≤ i
  · have hw : a.getLsbD i = true → i < w := BitVec.lt_of_getLsbD
    simpa [h] using hw
  · simp [h, Nat.lt_of_not_le h]

theorem foldLeftW_getLsbD_iff {w : Nat} (a : BitVec w) (i : Nat) :
    (foldLeftW a).getLsbD i = true ↔
      (∃ j, i ≤ j ∧ a.getLsbD j = true) ∧ ∃ j, j ≤ i ∧ a.getLsbD j = true := by
  rw [foldLeftW]
  split
  case isTrue ha => simp [ha]
  case isFalse ha => rw [getLsbD_ushiftRight_shiftLeft_iff, ctzW_le_iff ha, foldW_getLsbD_iff, and_comm]

/-- A description of every bit below the width fixes the pattern. -/
theorem eq_of_getLsbD_iff {w : Nat} {a f : BitVec w} {P : Nat → Prop} (ha : ∀ i, a.getLsbD i = true ↔ P i)
    (hf : ∀ i, i < w → (f.getLsbD i = true ↔ P i)) : a = f :=
  BitVec.eq_of_getLsbD_eq fun i hi => Bool.eq_iff_iff.2 ((ha i).trans (hf i hi).symm)

/-! ### FOLDR -/

theorem natCast_fold_of_isBitLength {n m : Nat} (h : IsBitLength n m) : (fold n : Int) = (2 : Int) ^ m - 1 := by
  rw [fold, bitLength_of_isBitLength h, natCast_two_pow_sub_one]

/-- Settles O30: a pattern is fixed by its bits (`foldW_getLsbD_iff`), and at ARB the bit length of the statement is
the one the meaning computes. -/
theorem foldrSmearsHighestBitDown : Obligations.FoldrSmearsHighestBitDown := by
  refine ⟨wordsOf_legal (by decide), fun s f hf => ?_, fun s f hf => ?_,
    fun s v h => ⟨failsWith_of_neg (exec_foldrA h), fun m hv hm => ?_⟩⟩
  · rw [← eq_of_getLsbD_iff (foldW_getLsbD_iff _) hf]
    rfl
  · rw [← eq_of_getLsbD_iff (foldW_getLsbD_iff _) hf]
    rfl
  · rw [← natCast_fold_of_isBitLength hm]
    exact completes_of_nonneg (exec_foldrA h) hv

/-! ### FOLDL -/

/-- Clearing the lowest k of m ones leaves `2^m - 2^k`. -/
theorem two_pow_sub_one_shiftRight_mul {m k : Nat} (h : k ≤ m) :
    (((2 : Int) ^ m - 1) >>> k) * (2 : Int) ^ k = (2 : Int) ^ m - (2 : Int) ^ k := by
  obtain ⟨d, rfl⟩ := Nat.exists_eq_add_of_le h
  have hpos : (0 : Int) < 2 ^ k := by positivity
  have hsplit : (2 : Int) ^ (k + d) - 1 = (2 ^ k - 1) + 2 ^ k * (2 ^ d - 1) := by ring
  have hlow : ((2 : Int) ^ k - 1) / 2 ^ k = 0 := Int.ediv_eq_zero_of_lt (by omega) (by omega)
  rw [Int.shiftRight_eq_div_pow, Nat.cast_pow, Nat.cast_ofNat, hsplit, Int.add_mul_ediv_left _ _ hpos.ne', hlow]
  ring

theorem le_of_two_pow_dvd_of_lt {n k m : Nat} (hn : 0 < n) (hdvd : 2 ^ k ∣ n) (hlt : n < 2 ^ m) : k ≤ m :=
  ((Nat.pow_lt_pow_iff_right (by decide)).1 (lt_of_le_of_lt (Nat.le_of_dvd hn hdvd) hlt)).le

theorem foldLeftInt_of_isBitLength {v : Int} {m k : Nat} (hv : 0 < v) (hm : IsBitLength v.toNat m)
    (hk : IsTrailing v k) : foldLeftInt v = (2 : Int) ^ m - (2 : Int) ^ k := by
  have hdvd : 2 ^ k ∣ v.toNat := by
    zify
    rw [Int.toNat_of_nonneg hv.le]
    exact hk.1
  have hkm : k ≤ m := le_of_two_pow_dvd_of_lt (by omega) hdvd hm.1
  rw [foldLeftInt, if_neg hv.ne', (ctz_of_isTrailing hk).2, natCast_fold_of_isBitLength hm,
    two_pow_sub_one_shiftRight_mul hkm]

theorem exec_foldlA {s : State} {v : Int} (h : s.arbOperand v) :
    exec .foldlA s = inDomain s (notNegative v) (respond s (.arb (foldLeftInt v))) := by
  rw [exec, execFoldlA, withArb_of_arbOperand h]

/-- Settles O31: a pattern is fixed by its bits (`foldLeftW_getLsbD_iff`), and at ARB the ones below the lowest set
bit are cleared from the fold (`foldLeftInt_of_isBitLength`). -/
theorem foldlFillsBetweenSetBits : Obligations.FoldlFillsBetweenSetBits := by
  refine ⟨wordsOf_legal (by decide), fun s f hf => ?_, fun s f hf => ?_,
    fun s v h => ⟨failsWith_of_neg (exec_foldlA h), ?_, fun m k hv hm hk => ?_⟩⟩
  · rw [← eq_of_getLsbD_iff (foldLeftW_getLsbD_iff _) hf]
    rfl
  · rw [← eq_of_getLsbD_iff (foldLeftW_getLsbD_iff _) hf]
    rfl
  · rintro rfl
    exact completes_of_nonneg (exec_foldlA h) le_rfl
  · rw [← foldLeftInt_of_isBitLength hv hm hk]
    exact completes_of_nonneg (exec_foldlA h) hv.le

end Sys2Proof.Machine
end

section
/-! PROOFS. The power-of-two commands ISPOW2, ROUNDUP, ROUNDDN and ROUNDNR (41_fold_pow2.md R174 to R180): each is one
lemma on an exact operand, which the three widths share (R173). -/

namespace Sys2Proof.Machine

/-! ### ISPOW2 -/

theorem toNat_toInt_of_pos {w : Nat} {a : BitVec w} (h : 0 < a.toInt) : a.toInt.toNat = a.toNat := by
  rw [BitVec.toInt_eq_toNat_cond] at h ⊢
  split_ifs at h ⊢ <;> omega

/-- The test of a pattern is the test of its signed reading (41_fold_pow2.md R174). -/
theorem isPow2W_eq {w : Nat} (a : BitVec w) : isPow2W a = if isPow2 a.toInt then 1 else 0 := by
  by_cases h : 0 < a.toInt
  · simp only [isPow2W_of_pos h, isPow2_iff_popcount h, toNat_toInt_of_pos h]
  · simp [isPow2W, isPow2, h]

theorem isPow2Of_of_exec {i : Instr} {s : State} {x : Int}
    (h : exec i s = respond s (.cnt (if isPow2 x then 1 else 0))) : IsPow2Of i s x := by
  refine ⟨fun hx => ?_, fun hx => ?_⟩
  · rw [if_pos (isPow2_iff.2 hx)] at h
    exact h
  · rw [if_neg (mt isPow2_iff.1 hx)] at h
    exact h

theorem exec_ispow232 (s : State) : exec .ispow232 s = respond s (.cnt (if isPow2 (opa32 s).toInt then 1 else 0)) := by
  rw [exec, execIspow232, isPow2W_eq]

theorem exec_ispow264 (s : State) : exec .ispow264 s = respond s (.cnt (if isPow2 (opa64 s).toInt then 1 else 0)) := by
  rw [exec, execIspow264, isPow2W_eq]

theorem exec_ispow2A {s : State} {v : Int} (h : s.arbOperand v) :
    exec .ispow2A s = respond s (.cnt (if isPow2 v then 1 else 0)) := by
  rw [exec, execIspow2A, withArb_of_arbOperand h]

/-- Settles O32: every width tests an exact operand (`isPow2W_eq`), and the test holds of the powers of two. -/
theorem ispow2TestsPowerOfTwo : Obligations.Ispow2TestsPowerOfTwo :=
  ⟨wordsOf_legal (by decide), fun s => isPow2Of_of_exec (exec_ispow232 s), fun s => isPow2Of_of_exec (exec_ispow264 s),
    fun _ _ h => isPow2Of_of_exec (exec_ispow2A h)⟩

/-! ### The domain check of rounding -/

section
variable {s : State} {o k : Outcome} {x : Int}

theorem failsWith_of_nonpos (h : o = inDomain s (positive x) k) (hx : x ≤ 0) : FailsWith o s .invalidArgument :=
  h.trans (inDomain_false (Bool.eq_false_iff.2 (mt (positive_iff x).1 (not_lt.2 hx))))

theorem completes_of_pos {a b c : Slot} (h : o = inDomain s (positive x) (respond s a b c)) (hx : 0 < x) :
    Completes o s a b c :=
  h.trans (inDomain_true ((positive_iff x).2 hx))

end

/-! ### The bracketing powers of two -/

section
variable {x : Int} {k : Nat}

/-- The least power at or above a power of two is that power. -/
theorem isLeastPowerAtOrAbove_two_pow (m : Nat) : IsLeastPowerAtOrAbove ((2 : Int) ^ m) m :=
  ⟨le_rfl, fun _ => (pow_le_pow_iff_right₀ one_lt_two).1⟩

theorem isLeastPowerAtOrAbove_succ (lo : (2 : Int) ^ k < x) (hi : x ≤ (2 : Int) ^ (k + 1)) :
    IsLeastPowerAtOrAbove x (k + 1) :=
  ⟨hi, fun _ hj => (pow_lt_pow_iff_right₀ one_lt_two).1 (lt_of_lt_of_le lo hj)⟩

/-- Off the powers of two, at or above is above. -/
theorem IsLeastPowerAbove.atOrAbove (h : IsLeastPowerAbove x k) (hx : ¬ ∃ m : Nat, x = (2 : Int) ^ m) :
    IsLeastPowerAtOrAbove x k :=
  ⟨h.1.le, fun j hj => h.2 j (lt_of_le_of_ne hj fun he => hx ⟨j, he⟩)⟩

theorem IsLeastPowerAbove.eq_succ_of_two_pow {m : Nat} (h : IsLeastPowerAbove ((2 : Int) ^ m) k) : k = m + 1 :=
  le_antisymm (h.2 (m + 1) (pow_lt_pow_right₀ one_lt_two (Nat.lt_succ_self m)))
    ((pow_lt_pow_iff_right₀ one_lt_two).1 h.1)

theorem IsGreatestPowerAtOrBelow.lt_succ (h : IsGreatestPowerAtOrBelow x k) : x < (2 : Int) ^ (k + 1) :=
  not_le.1 fun hc => absurd (h.2 (k + 1) hc) (Nat.not_succ_le_self k)

theorem IsGreatestPowerBelow.le_succ (h : IsGreatestPowerBelow x k) : x ≤ (2 : Int) ^ (k + 1) :=
  not_lt.1 fun hc => absurd (h.2 (k + 1) hc) (Nat.not_succ_le_self k)

theorem powerAbove_two_pow (m : Nat) : powerAbove ((2 : Int) ^ m) = (2 : Int) ^ m :=
  powerAbove_eq (by positivity) (isLeastPowerAtOrAbove_two_pow m)

theorem shiftRight_one_eq_div (x : Int) : x >>> (1 : Nat) = x / 2 := Int.shiftRight_eq_div_pow x 1

theorem two_pow_succ_shiftRight_one (k : Nat) : (2 : Int) ^ (k + 1) >>> (1 : Nat) = (2 : Int) ^ k := by
  rw [shiftRight_one_eq_div, pow_succ, Int.mul_ediv_cancel _ two_ne_zero]

/-! ### ROUNDUP -/

/-- On a power of two `powerAbove` gives the operand, so rounding up is `powerAbove` throughout. -/
theorem roundUp_false (x : Int) : roundUp false x = powerAbove x := by
  rw [roundUp]
  split
  case isTrue hp =>
    obtain ⟨m, rfl⟩ := isPow2_iff.1 hp
    exact (powerAbove_two_pow m).symm
  case isFalse => rfl

theorem roundUp_true_of_isLeast (hx : 0 < x) (h : IsLeastPowerAbove x k) : roundUp true x = (2 : Int) ^ k := by
  rw [roundUp]
  split
  case isTrue hp =>
    obtain ⟨m, rfl⟩ := isPow2_iff.1 hp
    rw [if_pos rfl, h.eq_succ_of_two_pow, pow_succ]
  case isFalse hp => exact powerAbove_eq hx (h.atOrAbove (mt isPow2_iff.2 hp))

/-! ### ROUNDDN -/

theorem roundDown_false_of_isGreatest (h : IsGreatestPowerAtOrBelow x k) : roundDown false x = (2 : Int) ^ k := by
  have hx : 0 < x := lt_of_lt_of_le (by positivity) h.1
  rw [roundDown]
  split
  case isTrue hp =>
    obtain ⟨m, rfl⟩ := isPow2_iff.1 hp
    have hkm : k ≤ m := (pow_le_pow_iff_right₀ one_lt_two).1 h.1
    rw [if_neg Bool.false_ne_true, le_antisymm hkm (h.2 m le_rfl)]
  case isFalse hp =>
    have hlt : (2 : Int) ^ k < x := lt_of_le_of_ne h.1 fun he => hp (isPow2_iff.2 ⟨k, he.symm⟩)
    rw [powerAbove_eq hx (isLeastPowerAtOrAbove_succ hlt h.lt_succ.le), two_pow_succ_shiftRight_one]

/-- The strict form halves `powerAbove`, on a power of two as elsewhere. -/
theorem roundDown_true (x : Int) : roundDown true x = powerAbove x >>> (1 : Nat) := by
  rw [roundDown]
  split
  case isTrue hp =>
    obtain ⟨m, rfl⟩ := isPow2_iff.1 hp
    rw [if_pos rfl, powerAbove_two_pow]
  case isFalse => rfl

theorem roundDown_true_of_isGreatest (h : IsGreatestPowerBelow x k) : roundDown true x = (2 : Int) ^ k := by
  have hx : 0 < x := lt_trans (by positivity) h.1
  rw [roundDown_true, powerAbove_eq hx (isLeastPowerAtOrAbove_succ h.1 h.le_succ), two_pow_succ_shiftRight_one]

end

/-! ### The rounding commands on an exact operand -/

section
variable {s : State} {x : Int} {slot : Int → Slot}

theorem roundUpOf_of_exec {i : Bool → Instr}
    (h : ∀ p, exec (i p) s = inDomain s (positive x) (respond s (slot (roundUp p x)))) : RoundUpOf i s x slot := by
  refine ⟨fun p => failsWith_of_nonpos (h p), fun k hx hk => ?_, fun k hx hk => ?_⟩
  · rw [← powerAbove_eq hx hk, ← roundUp_false]
    exact completes_of_pos (h false) hx
  · rw [← roundUp_true_of_isLeast hx hk]
    exact completes_of_pos (h true) hx

theorem roundDownOf_of_exec {i : Bool → Instr}
    (h : ∀ p, exec (i p) s = inDomain s (positive x) (respond s (slot (roundDown p x)))) : RoundDownOf i s x slot := by
  refine ⟨fun p => failsWith_of_nonpos (h p), fun k hk => ?_, fun k hk => ?_, ?_⟩
  · rw [← roundDown_false_of_isGreatest hk]
    exact completes_of_pos (h false) (lt_of_lt_of_le (by positivity) hk.1)
  · rw [← roundDown_true_of_isGreatest hk]
    exact completes_of_pos (h true) (lt_trans (by positivity) hk.1)
  · rintro rfl
    exact completes_of_pos (h true) one_pos

theorem roundNearestOf_of_exec {i : Instr}
    (h : exec i s = inDomain s (positive x)
      (respond s (slot (roundNearest x)) (slot (powerAbove x)) (slot (powerAbove x >>> (1 : Nat))))) :
    RoundNearestOf i s x slot := by
  refine ⟨failsWith_of_nonpos h, fun k hx hk => ?_⟩
  rw [roundNearest, powerAbove_eq hx hk, shiftRight_one_eq_div] at h
  refine ⟨fun hnear => ?_, fun hfar => ?_⟩
  · rw [if_pos hnear] at h
    exact completes_of_pos h hx
  · rw [if_neg (not_lt.2 hfar)] at h
    exact completes_of_pos h hx

end

section
variable {s : State} {v : Int} (h : s.arbOperand v)
include h

theorem exec_roundupA (p : Bool) : exec (.roundupA p) s = inDomain s (positive v) (respond s (.arb (roundUp p v))) := by
  rw [exec, execRoundupA, withArb_of_arbOperand h]

theorem exec_rounddnA (p : Bool) :
    exec (.rounddnA p) s = inDomain s (positive v) (respond s (.arb (roundDown p v))) := by
  rw [exec, execRounddnA, withArb_of_arbOperand h]

theorem exec_roundnrA : exec .roundnrA s = inDomain s (positive v)
    (respond s (.arb (roundNearest v)) (.arb (powerAbove v)) (.arb (powerAbove v >>> (1 : Nat)))) := by
  rw [exec, execRoundnrA, withArb_of_arbOperand h]

end

/-- Settles O33: the three widths are one command on an exact operand (`roundUpOf_of_exec`). -/
theorem roundupGivesPowerAbove : Obligations.RoundupGivesPowerAbove :=
  ⟨wordsOf_legal (by decide), fun _ => roundUpOf_of_exec fun _ => rfl, fun _ => roundUpOf_of_exec fun _ => rfl,
    fun _ _ h => roundUpOf_of_exec (exec_roundupA h)⟩

/-- Settles O34: the three widths are one command on an exact operand (`roundDownOf_of_exec`). -/
theorem rounddnGivesPowerBelow : Obligations.RounddnGivesPowerBelow :=
  ⟨wordsOf_legal (by decide), fun _ => roundDownOf_of_exec fun _ => rfl, fun _ => roundDownOf_of_exec fun _ => rfl,
    fun _ _ h => roundDownOf_of_exec (exec_rounddnA h)⟩

/-! ### ROUNDNR -/

/-- The words that meet a condition of 30_encoding.md R97 are those the decoder rejects. -/
theorem wordsOf_of_illegalWord {l : List (Word32 × Instr)} {bad : List Word32} (h : ∀ p ∈ l, decode p.1 = .ok p.2)
    (hbad : ∀ w ∈ bad, IllegalWord w) : WordsOf l bad :=
  ⟨h, fun w hw => exists_error_of_not_legalFields (illegalWord_iff_not_legalFields.1 (hbad w hw))⟩

/-- Settles O35: P is no field of ROUNDNR, and the three widths are one command on an exact operand
(`roundNearestOf_of_exec`). -/
theorem roundnrTiesGoUp : Obligations.RoundnrTiesGoUp :=
  ⟨wordsOf_of_illegalWord (by decide) (by simp [IllegalWord]), fun _ => roundNearestOf_of_exec rfl,
    fun _ => roundNearestOf_of_exec rfl, fun _ _ h => roundNearestOf_of_exec (exec_roundnrA h)⟩

end Sys2Proof.Machine
end

section
/-! PROOFS. The isolation and index family: LSB1, MSB1, BIDXL, BIDXM, one lemma for the index commands at each kind of
operand, with the drawn index off the precondition (42_isolate_index.md R210 to R215). -/

namespace Sys2Proof.Machine

/-! ### LSB1 -/

theorem and_neg_of_eq_zero {w : Nat} {a : BitVec w} (h : a = 0) : a &&& -a = 0 := by
  rw [h]
  exact BitVec.zero_and

theorem exec_lsb1A {s : State} {v : Int} (h : s.arbOperand v) :
    exec .lsb1A s = respond s (.arb (intAnd v (-v))) := by
  rw [exec, execLsb1A, withArb_of_arbOperand h]

/-- Settles O36: `a & -a` is the lowest bit of a, and 0 for 0, at every width (`and_neg_eq_of_lowest`,
`intAnd_neg_self`). -/
theorem lsb1KeepsLowestBit : Obligations.Lsb1KeepsLowestBit := by
  refine ⟨wordsOf_legal (by decide), fun s => ⟨fun h0 => ?_, fun k hk => exec_lsb132_of_lowest hk⟩,
    fun s => ⟨fun h0 => ?_, fun k hk => exec_lsb164_of_lowest hk⟩,
    fun s v h => ⟨?_, fun k hk => exec_lsb1A_of_trailing h hk⟩⟩
  · exact congrArg (fun a => respond s (.pattern a)) (and_neg_of_eq_zero h0)
  · exact congrArg (fun a => respond s (.pattern a)) (and_neg_of_eq_zero h0)
  · rintro rfl
    exact exec_lsb1A h

/-! ### MSB1 -/

theorem msb1W_of_eq_zero {w : Nat} {a : BitVec w} (h : a = 0) : msb1W a = 0 := by
  have hfold : foldW (0 : BitVec w) = 0 := BitVec.eq_of_toNat_eq (foldW_toNat 0)
  rw [h, msb1W, hfold]
  exact BitVec.zero_and

theorem exec_msb1A {s : State} {v : Int} (h : s.arbOperand v) :
    exec .msb1A s = inDomain s (notNegative v) (respond s (.arb (msb1Int v))) := by
  rw [exec, execMsb1A, withArb_of_arbOperand h]

/-- Settles O37: the fold of a without its half is the highest bit of a, and 0 for 0, at every width
(`msb1W_eq_of_highest`, `msb1Int_eq_of_bounds`). -/
theorem msb1KeepsHighestBit : Obligations.Msb1KeepsHighestBit := by
  refine ⟨wordsOf_legal (by decide), fun s => ⟨fun h0 => ?_, fun k hk => exec_msb132_of_highest hk⟩,
    fun s => ⟨fun h0 => ?_, fun k hk => exec_msb164_of_highest hk⟩,
    fun s v h => ⟨failsWith_of_neg (exec_msb1A h), ?_, fun k lo hi => exec_msb1A_of_bounds h lo hi⟩⟩
  · exact congrArg (fun a => respond s (.pattern a)) (msb1W_of_eq_zero h0)
  · exact congrArg (fun a => respond s (.pattern a)) (msb1W_of_eq_zero h0)
  · rintro rfl
    exact completes_of_nonneg (exec_msb1A h) le_rfl

/-! ### BIDXL and BIDXM -/

/-- Off the precondition the answer is OK with an index of the range, whatever the free value is (R213). -/
theorem respondIndex_of_not_isolated {s : State} {isolated : Bool} (h : ¬ isolated = true) (k : Nat)
    (command : Config.IndexCommand) (operand : Int) (top : Nat) :
    ∃ n d : Nat, n ≤ top ∧ respondIndex s isolated k command operand top =
      .next ({ s with draws := d }.answered (Response.make .ok (.cnt n) .empty .empty)) :=
  ⟨(drawIndex s command operand top).1, s.draws + 1, drawIndex_le s command operand top, if_neg h⟩

theorem exists_eq_ofNat_of_isolatedW {w : Nat} {a : BitVec w} (h : isolatedW a = true) :
    ∃ k, k < w ∧ a = BitVec.ofNat w (2 ^ k) := by
  obtain ⟨k, hk, ha⟩ := isolatedW_iff.1 h
  exact ⟨k, hk, by rw [← ha, BitVec.ofNat_toNat, BitVec.setWidth_eq]⟩

section
variable {i : Instr} {s : State} {command : Config.IndexCommand}

theorem indexFixed_of_exec {w : Nat} {a : BitVec w} (h : exec i s = indexW s command a) : IndexFixed i s a := by
  refine ⟨fun k hk ha => ?_, fun hne => ?_⟩
  · rw [ha, indexW_two_pow s command hk] at h
    exact h
  · have hiso : ¬ isolatedW a = true := fun hc => by
      obtain ⟨k, hk, ha⟩ := exists_eq_ofNat_of_isolatedW hc
      exact hne k hk ha
    rw [h]
    exact respondIndex_of_not_isolated hiso _ _ _ _

theorem indexArb_of_exec {v : Int} (h : exec i s = indexArb s command v) : IndexArb i s v := by
  refine ⟨fun k hv => ?_, fun hne => ?_⟩
  · rw [hv, indexArb_two_pow] at h
    exact h
  · have hiso : ¬ isolatedInt v = true := fun hc => by
      obtain ⟨k, hv⟩ := isolatedInt_iff.1 hc
      exact hne k hv
    rw [h]
    exact respondIndex_of_not_isolated hiso _ _ _ _

end

section
variable {s : State} {v : Int} (h : s.arbOperand v)
include h

theorem exec_bidxlA : exec .bidxlA s = indexArb s .bidxlA v := by rw [exec, execBidxlA, withArb_of_arbOperand h]

theorem exec_bidxmA : exec .bidxmA s = indexArb s .bidxmA v := by rw [exec, execBidxmA, withArb_of_arbOperand h]

end

/-- Settles O38: an isolated bit has its index, and any other operand draws one (`indexFixed_of_exec`,
`indexArb_of_exec`). -/
theorem bidxlGivesIndexOfIsolatedBit : Obligations.BidxlGivesIndexOfIsolatedBit :=
  ⟨wordsOf_legal (by decide), fun _ => indexFixed_of_exec rfl, fun _ => indexFixed_of_exec rfl,
    fun _ _ h => indexArb_of_exec (exec_bidxlA h)⟩

/-- Settles O39: BIDXM answers as BIDXL does but for the command that draws (`indexFixed_of_exec`,
`indexArb_of_exec`). -/
theorem bidxmGivesIndexOfIsolatedBit : Obligations.BidxmGivesIndexOfIsolatedBit :=
  ⟨wordsOf_legal (by decide), fun _ => indexFixed_of_exec rfl, fun _ => indexFixed_of_exec rfl,
    fun _ _ h => indexArb_of_exec (exec_bidxmA h)⟩

end Sys2Proof.Machine
end

section
/-! PROOFS. The reversals: REVBITS and REVBYTES at fixed width, each fixed by its bits and its own inverse, and
REVBITS.A by its bytes (43_reverse_shift.md R240, R241, R245, R246). -/

namespace Sys2Proof.Machine

/-! ### REVBITS -/

/-- The reversal is fixed by where each bit goes. -/
theorem eq_revW_of_getLsbD {w : Nat} {a f : BitVec w} (h : ∀ i, i < w → f.getLsbD i = a.getLsbD (w - 1 - i)) :
    f = revW a :=
  BitVec.eq_of_getLsbD_eq fun i hi => (h i hi).trans (revW_getLsbD a hi).symm

/-- Settles O40: a pattern is fixed by its bits (`eq_revW_of_getLsbD`). -/
theorem revbitsReversesBits : Obligations.RevbitsReversesBits := by
  refine ⟨wordsOf_legal (by decide), fun s f hf => ?_, fun s f hf => ?_⟩
  · rw [eq_revW_of_getLsbD hf]
    rfl
  · rw [eq_revW_of_getLsbD hf]
    rfl

/-- The reversed sequence is fixed by its bytes (43_reverse_shift.md R245). -/
theorem eq_reversedBytes_of_getD {bs rb : List Byte} (hl : rb.length = bs.length)
    (h : ∀ j, j < bs.length → rb.getD j 0 = Rom.contents.rev8 (bs.getD (bs.length - 1 - j) 0)) :
    rb = reversedBytes Rom.contents bs := by
  refine List.ext_getElem (by rw [hl, reversedBytes_length]) fun j hj hj' => ?_
  rw [← List.getD_eq_getElem rb 0 hj, ← List.getD_eq_getElem _ 0 hj', h j (hl ▸ hj), rev8_eq_revW,
    reversedBytes_getD bs (hl ▸ hj)]

/-- Settles O41: the bytes of the statement are the reversed sequence (`eq_reversedBytes_of_getD`). -/
theorem revbitsArbReversesMinimalSequence : Obligations.RevbitsArbReversesMinimalSequence := by
  refine ⟨wordsOf_legal (by decide), fun s v h rb hl hrb => ?_⟩
  rw [rom_val] at hrb
  rw [eq_reversedBytes_of_getD hl hrb]
  exact exec_revbitsA h

/-! ### REVBYTES -/

/-- The byte reversal is fixed by where each byte goes. -/
theorem eq_revBytesW_of_bytes {n : Nat} {a f : BitVec (8 * n)}
    (h : ∀ k, k < n → f.extractLsb' (8 * k) 8 = a.extractLsb' (8 * (n - 1 - k)) 8) : f = revBytesW a := by
  apply BitVec.eq_of_getLsbD_eq
  intro i hi
  have hbit : i % 8 < 8 := Nat.mod_lt i (by decide)
  have hbyte := congrArg (BitVec.getLsbD · (i % 8)) (h (i / 8) (by omega))
  simp only [BitVec.getLsbD_extractLsb', hbit, decide_true, Bool.true_and, Nat.div_add_mod] at hbyte
  rw [hbyte, revBytesW_getLsbD a hi]

/-- Settles O42: a pattern is fixed by its bytes (`eq_revBytesW_of_bytes`), and WM = 2 is a condition of R97. -/
theorem revbytesReversesBytes : Obligations.RevbytesReversesBytes := by
  refine ⟨wordsOf_of_illegalWord (by decide) (by simp [IllegalWord]), fun s f hf => ?_, fun s f hf => ?_⟩
  · rw [eq_revBytesW_of_bytes (n := 4) hf]
    rfl
  · rw [eq_revBytesW_of_bytes (n := 8) hf]
    rfl

/-! ### Reversing twice -/

theorem revBytesW_revBytesW {n : Nat} (a : BitVec (8 * n)) : revBytesW (revBytesW a) = a := by
  apply BitVec.eq_of_getLsbD_eq
  intro i hi
  rw [revBytesW_getLsbD _ hi, revBytesW_getLsbD _ (by omega)]
  congr 1
  omega

/-- A command that answers an involution of its operand answers the operand when it is run on its own R0. -/
theorem runMoved_twice_of_involution {w : Nat} {i : Instr} {operand : State → BitVec w} {f : BitVec w → BitVec w}
    (hexec : ∀ s, exec i s = respond s (.pattern (f (operand s))))
    (hmoved : ∀ (s : State) (a : BitVec w), operand (s.movedOn (.pattern a)) = a) (hf : ∀ a, f (f a) = a) (s : State) :
    ∃ t, runMoved [i, i] s = .next t ∧
      t.response = some (Response.make .ok (.pattern (operand s)) .empty .empty) := by
  refine runMoved_pair_response (hexec s) ?_
  rw [hexec, hmoved, hf]

/-- Settles O55: the four commands answer involutions (`revW_revW`, `revBytesW_revBytesW`). -/
theorem reversalsAreInvolutions : Obligations.ReversalsAreInvolutions := fun s =>
  ⟨runMoved_twice_of_involution (fun _ => rfl) opa32_movedOn revW_revW s,
    runMoved_twice_of_involution (fun _ => rfl) opa64_movedOn revW_revW s,
    runMoved_twice_of_involution (fun _ => rfl) opa32_movedOn (revBytesW_revBytesW (n := 4)) s,
    runMoved_twice_of_involution (fun _ => rfl) opa64_movedOn (revBytesW_revBytesW (n := 8)) s⟩

end Sys2Proof.Machine
end

section
/-! PROOFS. The masked swaps of REVBITS: each swap moves a bit to its partner, and the partners in turn are the mirror
place (43_reverse_shift.md R242). -/

namespace Sys2Proof.Machine

/-! ### One swap -/

/-- The place that a swap of groups of n bits exchanges with place i. -/
def swapPartner (n i : Nat) : Nat := if i / n % 2 = 0 then i + n else i - n

/-- The mask of a swap keeps the lower group of each pair. -/
abbrev IsLowerGroupMask {w : Nat} (mask : BitVec w) (n : Nat) : Prop :=
  ∀ i, i < w → mask.getLsbD i = decide (i / n % 2 = 0)

/-- One group lower, the parity of the group changes. -/
theorem group_sub_parity {n i : Nat} (hn : 0 < n) (h : n ≤ i) : (i - n) / n % 2 = 0 ↔ ¬ i / n % 2 = 0 := by
  have hgroup : i / n = (i - n) / n + 1 := by rw [Nat.div_eq_sub_div hn h]
  omega

theorem swapGroups_getLsbD {w n i : Nat} {mask : BitVec w} (x : BitVec w) (hn : 0 < n) (hm : IsLowerGroupMask mask n)
    (hi : i < w) : (swapGroups x mask n).getLsbD i = x.getLsbD (swapPartner n i) := by
  have hbelow (h : n ≤ i) : mask.getLsbD (i - n) = !decide (i / n % 2 = 0) := by
    rw [hm (i - n) (by omega)]
    exact decide_eq_not_decide (group_sub_parity hn h)
  rw [swapGroups, BitVec.getLsbD_or, BitVec.getLsbD_and, BitVec.getLsbD_ushiftRight, BitVec.getLsbD_shiftLeft,
    BitVec.getLsbD_and, hm i hi, swapPartner]
  by_cases hlow : i / n % 2 = 0
  · by_cases h : i < n
    · simp [hlow, h, Nat.add_comm]
    · simp [hlow, hbelow (Nat.le_of_not_lt h), Nat.add_comm]
  · have h : n ≤ i := Nat.le_of_not_lt fun hc => hlow (by rw [Nat.div_eq_of_lt hc])
    simp [hlow, hbelow h, hi, h]

/-- The last step at W = 64 exchanges the halves without a mask. -/
theorem halves_getLsbD (x : Word64) {i : Nat} (hi : i < 64) :
    (x >>> (32 : Nat) ||| x <<< (32 : Nat)).getLsbD i = x.getLsbD (swapPartner 32 i) := by
  rw [BitVec.getLsbD_or, BitVec.getLsbD_ushiftRight, BitVec.getLsbD_shiftLeft, swapPartner]
  by_cases h : i < 32
  · have hgroup : i / 32 % 2 = 0 := by omega
    simp [h, hgroup, Nat.add_comm]
  · have hgroup : ¬ i / 32 % 2 = 0 := by omega
    simp [h, hgroup, hi, BitVec.getLsbD_of_ge x (32 + i) (by omega)]

/-! ### The swaps in turn -/

/-- In a whole number of pairs of groups, a place has its partner. -/
theorem swapPartner_lt {w n i : Nat} (hn : 0 < n) (hw : 2 * n ∣ w) (hi : i < w) : swapPartner n i < w := by
  obtain ⟨k, rfl⟩ := hw
  rw [swapPartner]
  split
  case isTrue hlow =>
    have hgroup : i / n < 2 * k := Nat.div_lt_of_lt_mul (by rwa [Nat.mul_left_comm, ← Nat.mul_assoc])
    have hnext : i / n + 2 ≤ 2 * k := by omega
    calc i + n = n * (i / n) + i % n + n := by rw [Nat.div_add_mod]
      _ < n * (i / n) + n + n := by have := Nat.mod_lt i hn; omega
      _ = n * (i / n + 2) := by ring
      _ ≤ n * (2 * k) := Nat.mul_le_mul_left n hnext
      _ = 2 * n * k := by ring
  case isFalse => omega

/-- The place that the swaps of 1, 2, 4, 8 and 16 bits bring to place i. -/
def swapSource (i : Nat) : Nat := swapPartner 1 (swapPartner 2 (swapPartner 4 (swapPartner 8 (swapPartner 16 i))))

theorem swaps_getLsbD {w i : Nat} {m1 m2 m4 m8 m16 : BitVec w} (a : BitVec w) (h1 : IsLowerGroupMask m1 1)
    (h2 : IsLowerGroupMask m2 2) (h4 : IsLowerGroupMask m4 4) (h8 : IsLowerGroupMask m8 8)
    (h16 : IsLowerGroupMask m16 16) (hw : 32 ∣ w) (hi : i < w) :
    (swapGroups (swapGroups (swapGroups (swapGroups (swapGroups a m1 1) m2 2) m4 4) m8 8) m16 16).getLsbD i =
      a.getLsbD (swapSource i) := by
  have i16 : swapPartner 16 i < w := swapPartner_lt (by decide) hw hi
  have i8 : swapPartner 8 _ < w := swapPartner_lt (by decide) (Nat.dvd_trans (by decide) hw) i16
  have i4 : swapPartner 4 _ < w := swapPartner_lt (by decide) (Nat.dvd_trans (by decide) hw) i8
  have i2 : swapPartner 2 _ < w := swapPartner_lt (by decide) (Nat.dvd_trans (by decide) hw) i4
  rw [swapGroups_getLsbD _ (by decide) h16 hi, swapGroups_getLsbD _ (by decide) h8 i16,
    swapGroups_getLsbD _ (by decide) h4 i8, swapGroups_getLsbD _ (by decide) h2 i4,
    swapGroups_getLsbD _ (by decide) h1 i2, swapSource]

theorem swapSource_mirror32 : ∀ i, i < 32 → swapSource i = 32 - 1 - i := by decide

theorem swapSource_mirror64 : ∀ i, i < 64 → swapSource (swapPartner 32 i) = 64 - 1 - i := by decide

/-- Settles O50: at each place the swaps in turn bring the bit of the mirror place (`swaps_getLsbD`), which fixes the
reversal (`eq_revW_of_getLsbD`). -/
theorem maskedSwapsReverseBits : Obligations.MaskedSwapsReverseBits := by
  refine ⟨fun a => eq_revW_of_getLsbD fun i hi => ?_, fun a => eq_revW_of_getLsbD fun i hi => ?_⟩
  · rw [reverseSteps32, swaps_getLsbD a (by decide) (by decide) (by decide) (by decide) (by decide) (by decide) hi,
      swapSource_mirror32 i hi]
  · have hsource : swapPartner 32 i < 64 := swapPartner_lt (by decide) (by decide) hi
    rw [reverseSteps64, halves_getLsbD _ hi,
      swaps_getLsbD a (by decide) (by decide) (by decide) (by decide) (by decide) (by decide) hsource,
      swapSource_mirror64 i hi]

end Sys2Proof.Machine
end

section
/-! PROOFS. The carry-preserving shifts SHLC and SHRC: their command words with every count, and their results as exact
products and quotients (43_reverse_shift.md R247, R248). -/

namespace Sys2Proof.Machine

/-! ### Command words with a count -/

/-- A command word as the sum of its fields (30_encoding.md R96). -/
theorem commandWord_eq_sum {op wm : Nat} (hop : op < 64) (hwm : wm < 4) (c : Int) :
    commandWord op wm false c = BitVec.ofNat 32 (op + 64 * wm + 65536 * (c % 256).toNat) := by
  have hc : (c % 256).toNat < 256 := by omega
  apply word_eq_of_fields
  · rw [fieldOp_commandWord hop, fieldOp_toNat, BitVec.toNat_ofNat]
    omega
  · rw [fieldWm_commandWord hop hwm, fieldWm_toNat, BitVec.toNat_ofNat]
    omega
  · rw [fieldP_commandWord hop hwm, ← BitVec.toNat_inj, fieldP_toNat, BitVec.toNat_ofNat]
    change 0 = _
    omega
  · rw [fieldRsv0_commandWord hop hwm, ← BitVec.toNat_inj, fieldRsv0_toNat, BitVec.toNat_ofNat]
    change 0 = _
    omega
  · rw [fieldCnt_commandWord hop hwm, ← BitVec.toNat_inj, fieldCnt_toNat, BitVec.toNat_ofNat, BitVec.toNat_ofInt]
    change (c % 256).toNat = _
    omega
  · rw [fieldRsv1_commandWord hop hwm, ← BitVec.toNat_inj, fieldRsv1_toNat, BitVec.toNat_ofNat]
    change 0 = _
    omega

/-- A command with a count is decoded from its base word with the count in CNT, because it is encoded so
(`decodeOfEncode`). -/
theorem shiftWordsOf_of_encode {op wm : Nat} {i : Int → Instr} (hop : op < 64) (hwm : wm < 4)
    (hwf : ∀ c, (i c).wf = countEncodable c) (henc : ∀ c, encode (i c) = commandWord op wm false c) :
    ShiftWordsOf (op + 64 * wm) i := by
  intro c lo hi
  rw [← commandWord_eq_sum hop hwm, ← henc]
  refine decodeOfEncode (i c) ?_
  rw [hwf, countEncodable, decide_eq_true lo, decide_eq_true hi]
  rfl

/-! ### The shifted value and the carry -/

section
variable {w : Nat} (a : BitVec w)

theorem shiftLeft_eq_ofNat (c : Nat) : a <<< c = BitVec.ofNat w (a.toNat * 2 ^ c) :=
  BitVec.eq_of_toNat_eq (by rw [BitVec.toNat_shiftLeft, Nat.shiftLeft_eq, BitVec.toNat_ofNat])

theorem ushiftRight_eq_ofNat (c : Nat) : a >>> c = BitVec.ofNat w (a.toNat / 2 ^ c) := by
  apply BitVec.eq_of_toNat_eq
  rw [BitVec.toNat_ushiftRight, Nat.shiftRight_eq_div_pow, BitVec.toNat_ofNat,
    Nat.mod_eq_of_lt (Nat.lt_of_le_of_lt (Nat.div_le_self _ _) a.isLt)]

end

/-! ### The commands -/

section
variable {w : Nat} {s : State} {o k : Outcome} {c : Int}

theorem failsWith_of_count_outside (h : o = inDomain s (countInRange w c) k) (hc : c < 0 ∨ (w : Int) < c) :
    FailsWith o s .invalidArgument :=
  h.trans (inDomain_false (Bool.eq_false_iff.2 fun hin => by have := (countInRange_iff w c).1 hin; omega))

theorem completes_of_count_le {c : Nat} {r : BitVec w × BitVec w}
    (h : o = inDomain s (countInRange w c) (respondShift s r)) (hc : c ≤ w) :
    Completes o s (.pattern r.1) (.pattern r.2) :=
  h.trans (inDomain_true ((countInRange_iff w c).2 ⟨Int.natCast_nonneg c, Int.ofNat_le.2 hc⟩))

end

section
variable {w : Nat} {i : Int → Instr} {s : State} {a : BitVec w}

theorem shiftLeftOf_of_exec
    (h : ∀ c, exec (i c) s = inDomain s (countInRange w c) (respondShift s (shiftLeftCarry a c.toNat))) :
    ShiftLeftOf w i s a := by
  refine ⟨fun c hc => ?_, fun c => failsWith_of_count_outside (h c)⟩
  rw [← shiftLeft_eq_ofNat, ← ushiftRight_eq_ofNat]
  exact completes_of_count_le (h c) hc

theorem shiftRightOf_of_exec
    (h : ∀ c, exec (i c) s = inDomain s (countInRange w c) (respondShift s (shiftRightCarry a c.toNat))) :
    ShiftRightOf w i s a := by
  refine ⟨fun c hc => ?_, fun c => failsWith_of_count_outside (h c)⟩
  rw [← ushiftRight_eq_ofNat, ← shiftLeft_eq_ofNat]
  exact completes_of_count_le (h c) hc

end

theorem shlc32_shiftLeftOf (s : State) : ShiftLeftOf 32 .shlc32 s (opa32 s) := shiftLeftOf_of_exec fun _ => rfl
theorem shlc64_shiftLeftOf (s : State) : ShiftLeftOf 64 .shlc64 s (opa64 s) := shiftLeftOf_of_exec fun _ => rfl
theorem shrc32_shiftRightOf (s : State) : ShiftRightOf 32 .shrc32 s (opa32 s) := shiftRightOf_of_exec fun _ => rfl
theorem shrc64_shiftRightOf (s : State) : ShiftRightOf 64 .shrc64 s (opa64 s) := shiftRightOf_of_exec fun _ => rfl

/-- Settles O43: every count is encoded (`shiftWordsOf_of_encode`), and a left shift is a product and its carry a
quotient (`shiftLeftOf_of_exec`). -/
theorem shlcShiftsWithCarryLow : Obligations.ShlcShiftsWithCarryLow :=
  ⟨shiftWordsOf_of_encode (op := 0x11) (wm := 0) (by decide) (by decide) (fun _ => rfl) fun _ => rfl,
    shiftWordsOf_of_encode (op := 0x11) (wm := 1) (by decide) (by decide) (fun _ => rfl) fun _ => rfl,
    wordsOf_of_illegalWord (by simp) (by simp [IllegalWord]), shlc32_shiftLeftOf, shlc64_shiftLeftOf⟩

/-- Settles O44: every count is encoded (`shiftWordsOf_of_encode`), and a right shift is a quotient and its carry a
product (`shiftRightOf_of_exec`). -/
theorem shrcShiftsWithCarryHigh : Obligations.ShrcShiftsWithCarryHigh :=
  ⟨shiftWordsOf_of_encode (op := 0x12) (wm := 0) (by decide) (by decide) (fun _ => rfl) fun _ => rfl,
    shiftWordsOf_of_encode (op := 0x12) (wm := 1) (by decide) (by decide) (fun _ => rfl) fun _ => rfl,
    wordsOf_of_illegalWord (by simp) (by simp [IllegalWord]), shrc32_shiftRightOf, shrc64_shiftRightOf⟩

end Sys2Proof.Machine
end

section
/-! PROOFS. The chains of SHLC and SHRC over an array of words, by induction on the array: what one word's command
answers is what the chain needs of it (43_reverse_shift.md R250). -/

namespace Sys2Proof.Machine

/-! ### What one command of a chain answers -/

/-- The state with the pattern a on the operand port. -/
def State.withOpa (s : State) (a : Nat) : State := { s with ports := { s.ports with opa := BitVec.ofNat 64 a } }

theorem opa32_withOpa {a : Nat} (s : State) (h : a < 2 ^ 32) : (opa32 (s.withOpa a)).toNat = a := by
  simp only [opa32, State.withOpa, BitVec.toNat_setWidth, BitVec.toNat_ofNat]
  omega

theorem opa64_withOpa {a : Nat} (s : State) (h : a < 2 ^ 64) : (opa64 (s.withOpa a)).toNat = a :=
  Nat.mod_eq_of_lt h

theorem shiftParts_of_completes {w a : Nat} {i : Instr} {s : State} {r0 r1 : BitVec w} (hw : w ≤ 64)
    (h : Completes (exec i (s.withOpa a)) (s.withOpa a) (.pattern r0) (.pattern r1)) :
    shiftParts i s a = (r0.toNat, r1.toNat) := by
  rw [Completes, State.withOpa] at h
  rw [shiftParts, h]
  simp [Slot.pattern, BitVec.toNat_setWidth_of_le hw]

section
variable {w c x : Nat} {i : Int → Instr} {s : State} {a : BitVec w}

theorem shiftParts_of_shiftLeftOf (h : ShiftLeftOf w i (s.withOpa x) a) (ha : a.toNat = x) (hw : w ≤ 64)
    (hc : c ≤ w) : shiftParts (i c) s x = (x * 2 ^ c % 2 ^ w, x / 2 ^ (w - c)) := by
  have hlt : x / 2 ^ (w - c) < 2 ^ w := Nat.lt_of_le_of_lt (Nat.div_le_self _ _) (ha ▸ a.isLt)
  rw [shiftParts_of_completes hw (h.1 c hc), ha, BitVec.toNat_ofNat, BitVec.toNat_ofNat, Nat.mod_eq_of_lt hlt]

theorem shiftParts_of_shiftRightOf (h : ShiftRightOf w i (s.withOpa x) a) (ha : a.toNat = x) (hw : w ≤ 64)
    (hc : c ≤ w) : shiftParts (i c) s x = (x / 2 ^ c, x * 2 ^ (w - c) % 2 ^ w) := by
  have hlt : x / 2 ^ c < 2 ^ w := Nat.lt_of_le_of_lt (Nat.div_le_self _ _) (ha ▸ a.isLt)
  rw [shiftParts_of_completes hw (h.1 c hc), ha, BitVec.toNat_ofNat, BitVec.toNat_ofNat, Nat.mod_eq_of_lt hlt]

end

/-! ### The chains -/

section
variable {w c : Nat} (hc : c ≤ w)
include hc

/-- The bits that stay in a word shifted by c are its low bits, c places up. -/
theorem mul_two_pow_mod (x : Nat) : x * 2 ^ c % 2 ^ w = 2 ^ c * (x % 2 ^ (w - c)) := by
  rw [← Nat.pow_sub_mul_pow 2 hc, Nat.mul_mod_mul_right, Nat.mul_comm]

/-- The shifted word has room for a carry of c bits, and nothing is lost between it and its own carry. -/
theorem shiftLeft_parts_or_carry (x : Nat) {carry : Nat} (h : carry < 2 ^ c) :
    (x * 2 ^ c % 2 ^ w ||| carry) + 2 ^ w * (x / 2 ^ (w - c)) = x * 2 ^ c + carry := by
  have hor : x * 2 ^ c % 2 ^ w ||| carry = x * 2 ^ c % 2 ^ w + carry := by
    rw [mul_two_pow_mod hc, Nat.two_pow_add_eq_or_of_lt h]
  have hdiv : x * 2 ^ c / 2 ^ w = x / 2 ^ (w - c) := by
    rw [← Nat.pow_sub_mul_pow 2 hc, Nat.mul_div_mul_right _ _ (Nat.two_pow_pos c)]
  have := Nat.mod_add_div (x * 2 ^ c) (2 ^ w)
  rw [hdiv] at this
  omega

/-- The chain to the left, with any carry of c bits into the lowest word. -/
theorem arrayValue_chainLeft {parts : Nat → Nat × Nat}
    (hparts : ∀ x, x < 2 ^ w → parts x = (x * 2 ^ c % 2 ^ w, x / 2 ^ (w - c))) {ws : List Nat}
    (hws : ∀ x, x ∈ ws → x < 2 ^ w) {carry : Nat} (hcarry : carry < 2 ^ c) :
    arrayValue w (chainLeft parts carry ws).1 + 2 ^ (w * ws.length) * (chainLeft parts carry ws).2 =
      arrayValue w ws * 2 ^ c + carry := by
  induction ws generalizing carry with
  | nil => simp [chainLeft, arrayValue]
  | cons x xs ih =>
    obtain ⟨hx, hxs⟩ := List.forall_mem_cons.1 hws
    have hout : x / 2 ^ (w - c) < 2 ^ c := by
      rw [Nat.div_lt_iff_lt_mul (Nat.two_pow_pos _), pow_mul_pow_sub 2 hc]
      exact hx
    have hrest := ih hxs hout
    have hword := shiftLeft_parts_or_carry hc x hcarry
    simp only [chainLeft, arrayValue, hparts x hx, List.length_cons, Nat.mul_succ, Nat.pow_add]
    linear_combination hword + 2 ^ w * hrest

/-- A word shifted right by c has room above for the remainder of the words above it. -/
theorem shiftRight_parts_or_carry {x : Nat} (hx : x < 2 ^ w) (v : Nat) :
    (x / 2 ^ c ||| v % 2 ^ c * 2 ^ (w - c)) + 2 ^ w * (v / 2 ^ c) = (x + 2 ^ w * v) / 2 ^ c := by
  have hsplit : 2 ^ w = 2 ^ c * 2 ^ (w - c) := (pow_mul_pow_sub 2 hc).symm
  have hlow : x / 2 ^ c < 2 ^ (w - c) := Nat.div_lt_of_lt_mul (hsplit ▸ hx)
  have hv := Nat.mod_add_div v (2 ^ c)
  calc (x / 2 ^ c ||| v % 2 ^ c * 2 ^ (w - c)) + 2 ^ w * (v / 2 ^ c)
      = 2 ^ (w - c) * (v % 2 ^ c) + x / 2 ^ c + 2 ^ c * 2 ^ (w - c) * (v / 2 ^ c) := by
        rw [Nat.two_pow_add_eq_or_of_lt hlow, Nat.or_comm, Nat.mul_comm (v % 2 ^ c), ← hsplit]
    _ = x / 2 ^ c + 2 ^ (w - c) * (v % 2 ^ c + 2 ^ c * (v / 2 ^ c)) := by ring
    _ = (x + 2 ^ w * v) / 2 ^ c := by
        rw [hv, hsplit, Nat.mul_assoc, Nat.add_mul_div_left _ _ (Nat.two_pow_pos c)]

theorem arrayValue_chainRight {parts : Nat → Nat × Nat}
    (hparts : ∀ x, x < 2 ^ w → parts x = (x / 2 ^ c, x * 2 ^ (w - c) % 2 ^ w)) {ws : List Nat}
    (hws : ∀ x, x ∈ ws → x < 2 ^ w) :
    arrayValue w (chainRight parts ws).1 = arrayValue w ws / 2 ^ c ∧
      (chainRight parts ws).2 = arrayValue w ws % 2 ^ c * 2 ^ (w - c) := by
  induction ws with
  | nil => simp [chainRight, arrayValue]
  | cons x xs ih =>
    obtain ⟨hx, hxs⟩ := List.forall_mem_cons.1 hws
    obtain ⟨hvalue, hcarry⟩ := ih hxs
    have hsplit : 2 ^ w = 2 ^ c * 2 ^ (w - c) := (pow_mul_pow_sub 2 hc).symm
    simp only [chainRight, arrayValue, hparts x hx, hvalue, hcarry]
    refine ⟨shiftRight_parts_or_carry hc hx _, ?_⟩
    rw [hsplit, Nat.mul_mod_mul_right, Nat.mul_assoc, Nat.add_mul_mod_self_left]

end

/-- Settles O57: each word's command answers the parts of the chain (`shiftParts_of_shiftLeftOf`), which starts with no
carry (`arrayValue_chainLeft`). -/
theorem shlcChainShiftsArray : Obligations.ShlcChainShiftsArray := fun s c _ =>
  ⟨fun hc hws => arrayValue_chainLeft hc (fun _ hx =>
      shiftParts_of_shiftLeftOf (shlc32_shiftLeftOf _) (opa32_withOpa s hx) (by decide) hc) hws (Nat.two_pow_pos c),
    fun hc hws => arrayValue_chainLeft hc (fun _ hx =>
      shiftParts_of_shiftLeftOf (shlc64_shiftLeftOf _) (opa64_withOpa s hx) le_rfl hc) hws (Nat.two_pow_pos c)⟩

/-- Settles O58: each word's command answers the parts of the chain (`shiftParts_of_shiftRightOf`,
`arrayValue_chainRight`). -/
theorem shrcChainShiftsArray : Obligations.ShrcChainShiftsArray := fun s _ _ =>
  ⟨fun hc => arrayValue_chainRight hc fun _ hx =>
      shiftParts_of_shiftRightOf (shrc32_shiftRightOf _) (opa32_withOpa s hx) (by decide) hc,
    fun hc => arrayValue_chainRight hc fun _ hx =>
      shiftParts_of_shiftRightOf (shrc64_shiftRightOf _) (opa64_withOpa s hx) le_rfl hc⟩

end Sys2Proof.Machine
end

section
/-! PROOFS. The adapter family: ADPLEN, ADPHNZ, ADPLNZ. The byte decomposer's length is the least, and each locator is
fixed by the byte it finds and the zero bytes beyond it (44_adapter.md R284 to R286). -/

namespace Sys2Proof.Machine

/-! ### What the commands answer on an operand the port carries -/

section
variable {s : State} {v : Int} (h : s.arbOperand v)
include h

theorem exec_adplenA : exec .adplenA s = respond s (.cnt (byteLen v)) := by
  rw [exec, execAdplenA, withDecomposed_of_arbOperand h]

theorem exec_adphnzA : exec .adphnzA s = respondByteAt s (bytes v) (hnzIndex (bytes v)) := by
  rw [exec, execAdphnzA, withDecomposed_of_arbOperand h]

theorem exec_adplnzA : exec .adplnzA s = respondByteAt s (bytes v) (lnzIndex (bytes v)) := by
  rw [exec, execAdplnzA, withDecomposed_of_arbOperand h]

end

section
variable {o : Outcome} {s : State} {bs : List Byte} {index : Option Nat}

theorem completes_of_index_none (h : o = respondByteAt s bs index) (hi : index = none) :
    Completes o s (.cnt (-1)) (.cnt 0) := by
  rw [h, hi]
  rfl

theorem completes_of_index_some {i : Nat} (h : o = respondByteAt s bs index) (hi : index = some i) :
    Completes o s (.cnt i) (.cnt (bs.getD i 0).toNat) := by
  rw [h, hi]
  rfl

end

/-! ### The locators, by the bytes -/

theorem hnzIndex_bytes_eq_none_iff {v : Int} : hnzIndex (bytes v) = none ↔ v = 0 :=
  hnzIndex_eq_none.trans natOfBytes_bytes_eq_zero_iff

theorem lnzIndex_bytes_eq_none_iff {v : Int} : lnzIndex (bytes v) = none ↔ v = 0 :=
  lnzIndex_eq_none.trans natOfBytes_bytes_eq_zero_iff

section
variable {bs : List Byte} {i : Nat}

theorem natOfBytes_ne_zero_of_getD (h : bs.getD i 0 ≠ 0) : natOfBytes bs ≠ 0 := fun hz =>
  h (BitVec.eq_of_toNat_eq (by rw [getD_toNat, hz]; simp))

/-- An index that answers none for zero bytes only, and else a non-zero byte with only zero bytes on one side, answers
the one position of that kind. -/
theorem index_eq_some_iff {r : Nat → Nat → Prop} [Std.Trichotomous r] {index : Option Nat}
    (hnone : index = none → natOfBytes bs = 0)
    (hsome : ∀ k, index = some k → bs.getD k 0 ≠ 0 ∧ ∀ j, r k j → bs.getD j 0 = 0) :
    index = some i ↔ bs.getD i 0 ≠ 0 ∧ ∀ j, r i j → bs.getD j 0 = 0 := by
  refine ⟨hsome i, fun ⟨hne, beyond⟩ => ?_⟩
  obtain ⟨k, hk⟩ := Option.ne_none_iff_exists'.1 (mt hnone (natOfBytes_ne_zero_of_getD hne))
  obtain ⟨hkne, kbeyond⟩ := hsome k hk
  have hki : k = i := Std.Trichotomous.trichotomous k i (fun h => hne (kbeyond i h)) fun h => hkne (beyond k h)
  rw [hk, hki]

theorem hnzIndex_eq_some_iff : hnzIndex bs = some i ↔ bs.getD i 0 ≠ 0 ∧ ∀ j, i < j → bs.getD j 0 = 0 :=
  index_eq_some_iff (r := (· < ·)) hnzIndex_eq_none.1 fun _ h => (hnzIndex_eq_some h).2

theorem lnzIndex_eq_some_iff : lnzIndex bs = some i ↔ bs.getD i 0 ≠ 0 ∧ ∀ j, j < i → bs.getD j 0 = 0 :=
  index_eq_some_iff (r := (· > ·)) lnzIndex_eq_none.1 fun _ h => (lnzIndex_eq_some h).2

end

/-! ### The statements -/

theorem byteLen_eq_of_isLeast {v : Int} {n : Nat} (hn : 1 ≤ n) (hfits : FitsBytes v n)
    (hleast : ∀ m, 1 ≤ m → FitsBytes v m → n ≤ m) : byteLen v = n :=
  le_antisymm ((byteLen_le_iff hn).2 hfits) (hleast _ (one_le_byteLen v) (byteLen_fits v))

/-- Settles O45: the length of the minimal sequence is the least that fits (`byteLen_eq_of_isLeast`), and WM other
than 2 is a condition of R97. -/
theorem adplenGivesMinimalLength : Obligations.AdplenGivesMinimalLength := by
  refine ⟨wordsOf_of_illegalWord (by decide) (by simp [IllegalWord]), fun s v h n hn hfits hleast => ?_⟩
  rw [← byteLen_eq_of_isLeast hn hfits hleast]
  exact exec_adplenA h

/-- Settles O46: the highest non-zero byte fixes the index (`hnzIndex_eq_some_iff`), and 0 alone has none. -/
theorem adphnzFindsHighestByte : Obligations.AdphnzFindsHighestByte :=
  ⟨wordsOf_of_illegalWord (by decide) (by simp [IllegalWord]), fun _ _ h =>
    ⟨fun hv => completes_of_index_none (exec_adphnzA h) (hnzIndex_bytes_eq_none_iff.2 hv),
      fun _ hne above => completes_of_index_some (exec_adphnzA h) (hnzIndex_eq_some_iff.2 ⟨hne, above⟩)⟩⟩

/-- Settles O47: the lowest non-zero byte fixes the index (`lnzIndex_eq_some_iff`), and 0 alone has none. -/
theorem adplnzFindsLowestByte : Obligations.AdplnzFindsLowestByte :=
  ⟨wordsOf_of_illegalWord (by decide) (by simp [IllegalWord]), fun _ _ h =>
    ⟨fun hv => completes_of_index_none (exec_adplnzA h) (lnzIndex_bytes_eq_none_iff.2 hv),
      fun _ hne below => completes_of_index_some (exec_adplnzA h) (lnzIndex_eq_some_iff.2 ⟨hne, below⟩)⟩⟩

end Sys2Proof.Machine
end

section
/-! PROOFS. The status of a command is that of the first check that fails (60_exceptions.md R304): the instruction's own
domain check, said once for all 57 commands (`exec_statusIn`), behind the checks of the word and of the operand. -/

namespace Sys2Proof.Machine

/-! ### The status of an outcome -/

/-- STATUS of the response an outcome leaves on the ports; none when there is no response. -/
def statusOf (o : Outcome) : Option Status := (answerOf o).map Response.status

theorem answerOf_eq_some_iff {o : Outcome} {r : Response} :
    answerOf o = some r ↔ ∃ t, o = .next t ∧ t.response = some r := by
  cases o <;> simp [answerOf]

theorem statusOf_eq_some_iff {o : Outcome} {st : Status} :
    statusOf o = some st ↔ ∃ t r, o = .next t ∧ t.response = some r ∧ r.status = st := by
  simp only [statusOf, Option.map_eq_some_iff, answerOf_eq_some_iff]
  exact ⟨fun ⟨r, ⟨t, ho, hr⟩, hst⟩ => ⟨t, r, ho, hr, hst⟩, fun ⟨t, r, ho, hr, hst⟩ => ⟨r, ⟨t, ho, hr⟩, hst⟩⟩

/-- The response of a next state has the status of the outcome. -/
theorem status_eq_of_statusOf {t : State} {r : Response} {st : Status} (hr : t.response = some r)
    (h : statusOf (.next t) = some st) : r.status = st := by
  simpa [statusOf, answerOf, hr] using h

@[simp] theorem statusOf_respond (s : State) (a b c : Slot) : statusOf (respond s a b c) = some .ok := rfl
@[simp] theorem statusOf_raise (s : State) (st : Status) : statusOf (raise s st) = some st := rfl

theorem statusOf_failsWith {o : Outcome} {s : State} {st : Status} (h : FailsWith o s st) : statusOf o = some st := by
  rw [h]
  rfl

/-! ### The domain check of an instruction -/

/-- The status of a command past the checks of its operand: INVALID_ARGUMENT exactly when its own domain leaves the
operand out (60_exceptions.md R304, step 3). -/
def StatusIn (outside : Prop) (o : Outcome) : Prop :=
  (outside → statusOf o = some .invalidArgument) ∧ (¬ outside → statusOf o = some .ok)

theorem StatusIn.exists_ne_missingInput {outside : Prop} {o : Outcome} (h : StatusIn outside o) :
    ∃ st, statusOf o = some st ∧ st ≠ .missingInput := by
  obtain ⟨hout, hin⟩ := h
  by_cases ho : outside
  · exact ⟨_, hout ho, by decide⟩
  · exact ⟨_, hin ho, by decide⟩

section
variable {s : State} {outside : Prop}

theorem statusIn_respond (a b c : Slot) : StatusIn False (respond s a b c) := ⟨False.elim, fun _ => rfl⟩

theorem statusIn_respondIndex (g : Bool) (k : Nat) (command : Config.IndexCommand) (x : Int) (top : Nat) :
    StatusIn False (respondIndex s g k command x top) := by
  cases g <;> exact statusIn_respond _ _ _

theorem statusIn_respondByteAt (bs : List Byte) (index : Option Nat) :
    StatusIn False (respondByteAt s bs index) := by
  cases index <;> exact statusIn_respond _ _ _

theorem statusIn_inDomain {good : Bool} (h : good = true ↔ ¬ outside) (a b c : Slot) :
    StatusIn outside (inDomain s good (respond s a b c)) :=
  ⟨fun ho => by rw [inDomain_false (Bool.eq_false_iff.2 fun hg => h.1 hg ho), statusOf_raise],
    fun ho => by rw [inDomain_true (h.2 ho), statusOf_respond]⟩

theorem statusIn_notNegative (x : Int) (a b c : Slot) :
    StatusIn (x < 0) (inDomain s (notNegative x) (respond s a b c)) :=
  statusIn_inDomain (by rw [notNegative_iff, not_lt]) a b c

theorem statusIn_positive (x : Int) (a b c : Slot) :
    StatusIn (x ≤ 0) (inDomain s (positive x) (respond s a b c)) :=
  statusIn_inDomain (by rw [positive_iff, not_le]) a b c

theorem statusIn_countInRange (w : Nat) (count : Int) (a b c : Slot) :
    StatusIn (count < 0 ∨ (w : Int) < count) (inDomain s (countInRange w count) (respond s a b c)) :=
  statusIn_inDomain (by rw [countInRange_iff, not_or, not_lt, not_lt]) a b c

section
variable (h : s.arbOperand (sval s.ports.operandBytes))
include h

theorem statusIn_withDecomposed {k : Decomposed → Outcome} (hk : ∀ d, StatusIn outside (k d)) :
    StatusIn outside (withDecomposed s k) :=
  withDecomposed_of_arbOperand h k ▸ hk _

theorem statusIn_withArb {k : Int → Outcome} (hk : StatusIn outside (k (sval s.ports.operandBytes))) :
    StatusIn outside (withArb s k) :=
  withArb_of_arbOperand h k ▸ hk

end

end

/-- With an operand that passes the checks of its mode, only the instruction's own domain decides the status
(60_exceptions.md R301, R304). -/
theorem exec_statusIn {i : Instr} {s : State} (h : i.width = .arb → s.arbOperand (sval s.ports.operandBytes)) :
    StatusIn (OutsideDomain i s) (exec i s) := by
  cases i <;> simp only [exec, OutsideDomain]
  case popcnt32 | popcnt64 | bitlen32 | bitlen64 | lzc32 | lzc64 | tzc32 | tzc64 | foldr32 | foldr64 | foldl32 |
    foldl64 | ispow232 | ispow264 | lsb132 | lsb164 | msb132 | msb164 | revbits32 | revbits64 | revbytes32 |
    revbytes64 => exact statusIn_respond _ _ _
  case bidxl32 | bidxl64 | bidxm32 | bidxm64 => exact statusIn_respondIndex _ _ _ _ _
  case log232 | log264 => exact statusIn_notNegative _ _ _ _
  case roundup32 | roundup64 | rounddn32 | rounddn64 | roundnr32 | roundnr64 => exact statusIn_positive _ _ _ _
  case shlc32 | shrc32 => exact statusIn_countInRange 32 _ _ _ _
  case shlc64 | shrc64 => exact statusIn_countInRange 64 _ _ _ _
  case bitlenA | tzcA | ispow2A | lsb1A => exact statusIn_withArb (h rfl) (statusIn_respond _ _ _)
  case bidxlA | bidxmA => exact statusIn_withArb (h rfl) (statusIn_respondIndex _ _ _ _ _)
  case popcntA | log2A | lzcA | foldrA | foldlA | msb1A =>
    exact statusIn_withArb (h rfl) (statusIn_notNegative _ _ _ _)
  case roundupA | rounddnA | roundnrA => exact statusIn_withArb (h rfl) (statusIn_positive _ _ _ _)
  case revbitsA | adplenA => exact statusIn_withDecomposed (h rfl) fun _ => statusIn_respond _ _ _
  case adphnzA | adplnzA => exact statusIn_withDecomposed (h rfl) fun _ => statusIn_respondByteAt _ _

/-! ### The order of the checks -/

/-- An ARB command that answers was not refused: the port carries its operand. -/
theorem alen_le_of_exec_next {i : Instr} {s t : State} (hw : i.width = .arb) (h : exec i s = .next t) :
    s.ports.alen ≤ s.nArbMax := by
  by_contra hlong
  obtain ⟨k, hk⟩ := exec_eq_withDecomposed hw s
  rw [hk, withDecomposed_too_long (not_le.1 hlong)] at h
  cases h

/-- Settles O18: the word comes first (`illegalWordsComplete`), then the operand (`arbOperandValidity`), then the
instruction's own domain (`exec_statusIn`). -/
theorem statusFollowsPriority : Obligations.StatusFollowsPriority := by
  intro s t r c rest hp hstep hr
  refine ⟨fun hw => status_eq_of_statusOf hr ?_, fun i hd => ?_⟩
  · exact hstep ▸ statusOf_failsWith ((illegalWordsComplete s c rest hp).1 hw)
  · have he : exec i (s.sampled c rest) = .next t := step_of_decode hp hd ▸ hstep
    have operand (hw : i.width = .arb) := arbOperandValidity i (s.sampled c rest) hw (alen_le_of_exec_next hw he)
    refine ⟨fun hw h0 => status_eq_of_statusOf hr ?_, fun hw _ hred => status_eq_of_statusOf hr ?_, fun hpass => ?_⟩
    · exact he ▸ statusOf_failsWith ((operand hw).1 h0)
    · exact he ▸ statusOf_failsWith ((operand hw).2.1 hred)
    · obtain ⟨hout, hin⟩ := he ▸ exec_statusIn fun hw => (operand hw).2.2 (hpass hw).1 (hpass hw).2
      exact ⟨fun ho => status_eq_of_statusOf hr (hout ho), fun ho => status_eq_of_statusOf hr (hin ho)⟩

/-- Settles O20: the checks of an ARB command's length come first (`exec_eq_withDecomposed`), and a fixed-width command
has no check but that of its domain (`exec_statusIn`). -/
theorem missingInputAndOverlongOperand : Obligations.MissingInputAndOverlongOperand := by
  refine fun i s => ⟨fun hw h0 => ?_, fun hw => ?_, fun hw hlong => ?_⟩
  · obtain ⟨k, hk⟩ := exec_eq_withDecomposed hw s
    exact hk.trans (withDecomposed_missing h0 k)
  · obtain ⟨st, hst, hne⟩ := (exec_statusIn (s := s) fun h => absurd h hw).exists_ne_missingInput
    obtain ⟨t, r, ht, hr, rfl⟩ := statusOf_eq_some_iff.1 hst
    exact ⟨t, r, ht, hr, hne⟩
  · obtain ⟨k, hk⟩ := exec_eq_withDecomposed hw s
    exact hk.trans (withDecomposed_too_long hlong k)

end Sys2Proof.Machine
end

section
/-! PROOFS. Every command completes: one step, a run of steps, and the empty slots of an error (60_exceptions.md R303,
R309). -/

namespace Sys2Proof.Machine

/-! ### Every command completes -/

/-- A step on a command the ports carry leaves a response (60_exceptions.md R309). -/
theorem step_answerOf_isSome {s : State} {c : Command} {rest : List Command} (hp : s.pending = c :: rest)
    (hc : c.carried s.nArbMax) : (answerOf (step s)).isSome = true := by
  cases hd : decode c.cmd with
  | ok i => exact step_of_decode hp hd ▸ exec_answerOf_isSome i hc
  | error e => rw [step_of_illegal hp hd]; rfl

/-- A domain check reads the sampled command alone: its operand, and the count in its word (60_exceptions.md R301). -/
theorem outsideDomain_congr {s s' : State} (h : s.ports = s'.ports) (i : Instr) :
    OutsideDomain i s ↔ OutsideDomain i s' := by
  cases i <;> simp only [OutsideDomain, opa32, opa64, h]

/-- Settles O11: no carried operand is refused, and each check that decides the status in `statusFollowsPriority` reads
the command alone. -/
theorem everyCommandCompletes : Obligations.EveryCommandCompletes := by
  refine ⟨fun s c rest hp hc => ?_, fun s s' t t' r r' c rest rest' hp hp' _ hstep hstep' hr hr' => ?_⟩
  · obtain ⟨r, h⟩ := Option.isSome_iff_exists.1 (step_answerOf_isSome hp hc)
    obtain ⟨t, ht, hr⟩ := answerOf_eq_some_iff.1 h
    exact ⟨t, r, ht, hr⟩
  · obtain ⟨word, command⟩ := statusFollowsPriority s t r c rest hp hstep hr
    obtain ⟨word', command'⟩ := statusFollowsPriority s' t' r' c rest' hp' hstep' hr'
    by_cases hw : IllegalWord c.cmd
    · exact (word hw).trans (word' hw).symm
    · rw [illegalWord_iff_not_legalFields, not_not] at hw
      obtain ⟨i, hd⟩ := exists_decode_of_legalFields hw
      obtain ⟨missing, redundant, domain⟩ := command i hd
      obtain ⟨missing', redundant', domain'⟩ := command' i hd
      by_cases hpass : i.width = .arb → c.alen ≠ 0 ∧ ¬ RedundantTop c.operandBytes
      · obtain ⟨hout, hin⟩ := domain hpass
        obtain ⟨hout', hin'⟩ := domain' hpass
        have same := outsideDomain_congr (s := s.sampled c rest) (s' := s'.sampled c rest') rfl i
        by_cases ho : OutsideDomain i (s.sampled c rest)
        · exact (hout ho).trans (hout' (same.1 ho)).symm
        · exact (hin ho).trans (hin' (mt same.2 ho)).symm
      · obtain ⟨harb, hfail⟩ := Classical.not_imp.1 hpass
        by_cases h0 : c.alen = 0
        · exact (missing harb h0).trans (missing' harb h0).symm
        · have hred : RedundantTop c.operandBytes := by_contra fun hn => hfail ⟨h0, hn⟩
          exact (redundant harb h0 hred).trans (redundant' harb h0 hred).symm

/-! ### A run takes every command -/

theorem run_succ_of_step {M : Host.Core} {s s' : M.State} (h : M.step s = .next s') (n : Nat) :
    M.run (n + 1) s = M.run n s' := by
  rw [Host.Core.run, h]

/-- Settles O17, by induction on the commands before the last: the step on a carried command answers
(`everyCommandCompletes`) and leaves the rest of them, the ROMs and N_ARB_MAX as they were (`commandFrame`). -/
theorem runTakesEveryCommand : Obligations.RunTakesEveryCommand := by
  intro s l c hp hc
  induction l generalizing s with
  | nil =>
    obtain ⟨t, r, hstep, hr⟩ := everyCommandCompletes.1 s c [] hp (hc c (by simp))
    obtain ⟨hrom, hmax, htaken⟩ := commandFrame.2 s t hstep
    rw [hp] at htaken
    obtain ⟨hports, hpend⟩ := List.cons.inj htaken
    exact ⟨t, r, run_succ_of_step (M := core) hstep 0, hpend.symm, hports.symm, hr, hrom, hmax⟩
  | cons b l ih =>
    obtain ⟨s', _, hstep, _⟩ := everyCommandCompletes.1 s b (l ++ [c]) hp (hc b (by simp))
    obtain ⟨hrom, hmax, _⟩ := commandFrame.2 s s' hstep
    obtain ⟨t, r, hrun, hpend, hports, hr, hrom', hmax'⟩ :=
      ih s' (step_keeps_rest hp hstep).1 fun x hx => hmax ▸ hc x (List.mem_cons_of_mem b hx)
    exact ⟨t, r, (run_succ_of_step (M := core) hstep _).trans hrun, hpend, hports, hr, hrom'.trans hrom,
      hmax'.trans hmax⟩

/-! ### The slots of an error -/

/-- An answer that is not OK is an error's response, with three empty slots (60_exceptions.md R303). -/
theorem Answers.response_of_not_ok {s t : State} {m : Prop} {r : Response} (h : Answers s m (.next t))
    (hr : t.response = some r) (hst : r.status ≠ .ok) : r = Response.make r.status .empty .empty .empty := by
  generalize ho : Host.Outcome.next t = o at h
  cases h with
  | refused => cases ho
  | raised st => cases ho; cases hr; rfl
  | responded ha hb hc => cases ho; cases hr; exact absurd rfl hst
  | drawn c x top n hm => cases ho; cases hr; exact absurd rfl hst

/-- Settles O19: the response of an error has empty slots only (`Answers.response_of_not_ok`). -/
theorem errorSlotsAreEmpty : Obligations.ErrorSlotsAreEmpty := by
  intro s t r hstep hr hst p hp
  obtain ⟨c, rest, m, _, ha⟩ := step_answers hstep
  have hempty : p = Slot.ports .empty := by
    rw [ha.response_of_not_ok hr hst] at hp
    simpa using hp
  subst hempty
  exact ⟨rfl, rfl, fun _ => rfl⟩

end Sys2Proof.Machine
end

section
/-! PROOFS. The machine right after reset: its ROMs, no response, no step without a command, and the first command
presented (70_reset_and_hazards.md R340, R343). -/

namespace Sys2Proof.Machine

/-- With no command presented there is no step (log 2). -/
theorem step_of_no_command {s : State} (h : s.pending = []) : step s = .refused .noCommand := by
  simp [step, h]

@[simp] theorem State.reset_pending : State.reset.pending = [] := rfl

/-- Settles O5: reset presents no command (`step_of_no_command`), and the first one presented completes as any carried
command does (`everyCommandCompletes`). -/
theorem resetHasRomsAndNoResponse : Obligations.ResetHasRomsAndNoResponse := by
  refine ⟨rom_val _, State.reset_response, step_of_no_command State.reset_pending, fun c _ _ hc => ?_⟩
  obtain ⟨t, r, hstep, hr⟩ := everyCommandCompletes.1 { State.reset with pending := [c] } c [] rfl hc
  exact ⟨t, hstep, Option.isSome_of_eq_some hr⟩

end Sys2Proof.Machine
end

section
/-! PROOFS. The shift sequence of the fold: each OR doubles the window of bits above a place that its bit gathers, and a
window as long as the word gives `fold_W` (41_fold_pow2.md, preamble). -/

namespace Sys2Proof.Machine

/-- Each bit of x is the OR of the n bits of a from its own place upwards. -/
abbrev GathersWindow {w : Nat} (a x : BitVec w) (n : Nat) : Prop :=
  ∀ i, x.getLsbD i = true ↔ ∃ j, i ≤ j ∧ j < i + n ∧ a.getLsbD j = true

theorem gathersWindow_self {w : Nat} (a : BitVec w) : GathersWindow a a 1 := by
  refine fun i => ⟨fun h => ⟨i, le_rfl, Nat.lt_succ_self i, h⟩, ?_⟩
  rintro ⟨j, hle, hlt, hj⟩
  obtain rfl : i = j := by omega
  exact hj

theorem smear_getLsbD_iff {w : Nat} (x : BitVec w) (n i : Nat) :
    (smear x n).getLsbD i = true ↔ x.getLsbD i = true ∨ x.getLsbD (i + n) = true := by
  rw [smear, BitVec.getLsbD_or, BitVec.getLsbD_ushiftRight, Bool.or_eq_true, Nat.add_comm]

/-- The window of place i and that of place `i + n` are adjacent, so together they are twice as long. -/
theorem GathersWindow.smear_double {w n : Nat} {a x : BitVec w} (h : GathersWindow a x n) :
    GathersWindow a (smear x n) (2 * n) := by
  intro i
  rw [smear_getLsbD_iff, h i, h (i + n)]
  constructor
  · rintro (⟨j, hle, hlt, hj⟩ | ⟨j, hle, hlt, hj⟩)
    · exact ⟨j, hle, by omega, hj⟩
    · exact ⟨j, by omega, by omega, hj⟩
  · rintro ⟨j, hle, hlt, hj⟩
    by_cases hlower : j < i + n
    · exact .inl ⟨j, hle, hlower, hj⟩
    · exact .inr ⟨j, by omega, by omega, hj⟩

/-- The shift counts of the sequence: the first k powers of two. -/
def foldShifts (k : Nat) : List Nat := (List.range k).map (2 ^ ·)

theorem foldShifts_succ (k : Nat) : foldShifts (k + 1) = foldShifts k ++ [2 ^ k] := by
  simp [foldShifts, List.range_succ]

theorem foldl_smear_gathersWindow {w : Nat} (a : BitVec w) (k : Nat) :
    GathersWindow a ((foldShifts k).foldl smear a) (2 ^ k) := by
  induction k with
  | zero => exact gathersWindow_self a
  | succ k ih =>
    rw [foldShifts_succ, List.foldl_concat, Nat.pow_succ']
    exact ih.smear_double

/-- A window as long as the word holds every set bit at or above the place, as `fold_W` does. -/
theorem GathersWindow.eq_foldW {w n : Nat} {a x : BitVec w} (h : GathersWindow a x n) (hn : w ≤ n) : x = foldW a := by
  refine eq_of_getLsbD_iff h fun i _ => (foldW_getLsbD_iff a i).trans (exists_congr fun j => and_congr_right fun _ => ?_)
  exact ⟨fun hj => ⟨by have := BitVec.lt_of_getLsbD hj; omega, hj⟩, And.right⟩

/-- Settles O49: the k shifts of the sequence gather windows of 2^k bits (`foldl_smear_gathersWindow`), and both widths
are 2^k bits (`GathersWindow.eq_foldW`). -/
theorem foldShiftSequenceIsFold : Obligations.FoldShiftSequenceIsFold :=
  ⟨fun a => (foldl_smear_gathersWindow a 5).eq_foldW (by decide),
    fun a => (foldl_smear_gathersWindow a 6).eq_foldW (by decide)⟩

end Sys2Proof.Machine
end
